-- ==== Sys2Proof/Word.lean ====
section
/-! DEFINITION. The word types of the hardware. Everything is unsigned (00_scope.md R12). -/

namespace Sys2Proof

/-- A data byte of a bus transaction (00_scope.md R7: data width 8 bits). -/
abbrev Byte := BitVec 8

/-- A Register Address: bit 8 the bank selector, bits 7:0 the in-bank address (30_encoding.md R101). -/
abbrev Addr := BitVec 9

/-- A command word `CW` (30_encoding.md R91). -/
abbrev CmdWord := BitVec 32

end Sys2Proof
end

