-- ==== Sys2Proof/Syntax.lean ====
section
/-! DEFINITION. The eleven commands (30_encoding.md R92, spec/opcode_table.json), one constructor a row, each with the
operand fields of its format (30_encoding.md R93 to R97). -/

namespace Sys2Proof

/-- A command of the core. -/
inductive Instr where
  /-- `BEGIN`, format N (41_reset_init.md R151). -/
  | begin
  /-- `RESET`, format N (41_reset_init.md R152). -/
  | reset
  /-- `WRITE addr, data`, format W (40_bus_write.md R131). -/
  | write (addr : Addr) (data : Byte)
  /-- `OPOFF idx`, format I (42_address_mapper.md R172). -/
  | opoff (idx : BitVec 6)
  /-- `CHOFF idx`, format I (42_address_mapper.md R174). -/
  | choff (idx : BitVec 6)
  /-- `UPDOP idx`, format I (43_parameter_writes.md R186). -/
  | updop (idx : BitVec 6)
  /-- `KEYON idx`, format I (43_parameter_writes.md R188). -/
  | keyon (idx : BitVec 6)
  /-- `KEYOFF idx`, format I (43_parameter_writes.md R190). -/
  | keyoff (idx : BitVec 6)
  /-- `SETFREQ idx, freq`, format F (44_frequency.md R201). -/
  | setfreq (idx : BitVec 6) (freq : BitVec 16)
  /-- `OPSET idx, field, val`, format S (43_parameter_writes.md R181); `fsel` selects the field (30_encoding.md R99). -/
  | opset (idx : BitVec 6) (fsel : BitVec 4) (val : BitVec 10)
  /-- `CHSET idx, field, val`, format S (43_parameter_writes.md R182); `fsel` selects the field (30_encoding.md R100). -/
  | chset (idx : BitVec 6) (fsel : BitVec 4) (val : BitVec 10)
  deriving DecidableEq, Repr

end Sys2Proof
end

