-- ==== Sys2Proof/WellFormed.lean ====
section
/-! DEFINITION. Which terms of `Instr` are commands of the hardware. Operand widths are in the types; an index outside its
range is no encoding error (30_encoding.md R95), so the one check is the field selector (30_encoding.md R107 case c). -/

namespace Sys2Proof

/-- The selector of `OPSET` is assigned: `fsel` 0 to 11 (30_encoding.md R99). -/
def opSelectorOk (fsel : BitVec 4) : Bool := fsel.toNat < 12

/-- The selector of `CHSET` is assigned: `fsel` 0 to 8 (30_encoding.md R100). -/
def chSelectorOk (fsel : BitVec 4) : Bool := fsel.toNat < 9

/-- The command has an encoding that is not illegal (30_encoding.md R107). -/
def Instr.wellFormed : Instr → Bool
  | .begin => true
  | .reset => true
  | .write _ _ => true
  | .opoff _ => true
  | .choff _ => true
  | .updop _ => true
  | .keyon _ => true
  | .keyoff _ => true
  | .setfreq _ _ => true
  | .opset _ fsel _ => opSelectorOk fsel
  | .chset _ fsel _ => chSelectorOk fsel

end Sys2Proof
end

