-- ==== Sys2Proof/Decode.lean ====
section
/-! DEFINITION. Decoding a command word (30_encoding.md R91 to R100, R107, R109) and encoding a command. -/

namespace Sys2Proof

/-- Why a command word is illegal: the three cases of 30_encoding.md R107. -/
inductive Illegal where
  /-- Case (a): the opcode is 0x0 or 0xC to 0xF. -/
  | reservedOpcode
  /-- Case (b): a reserved bit of the format is 1. -/
  | reservedBits
  /-- Case (c): a reserved field selector. -/
  | reservedSelector
  deriving DecidableEq, Repr

/-- `CW[31:28]`, the opcode (30_encoding.md R91). -/
def opcodeField (w : CmdWord) : BitVec 4 := w.extractLsb' 28 4

/-- Format N: `CW[27:0]` must be 0 (30_encoding.md R93). -/
def decodeN (w : CmdWord) (i : Instr) : Except Illegal Instr :=
  if w.extractLsb' 0 28 = 0 then .ok i else .error .reservedBits

/-- Format W: `addr = CW[16:8]`, `data = CW[7:0]`, `CW[27:17]` must be 0 (30_encoding.md R94). -/
def decodeW (w : CmdWord) (mk : Addr → Byte → Instr) : Except Illegal Instr :=
  if w.extractLsb' 17 11 = 0 then .ok (mk (w.extractLsb' 8 9) (w.extractLsb' 0 8)) else .error .reservedBits

/-- Format I: `idx = CW[5:0]`, `CW[27:6]` must be 0 (30_encoding.md R95). -/
def decodeI (w : CmdWord) (mk : BitVec 6 → Instr) : Except Illegal Instr :=
  if w.extractLsb' 6 22 = 0 then .ok (mk (w.extractLsb' 0 6)) else .error .reservedBits

/-- Format F: `idx = CW[21:16]`, `freq = CW[15:0]`, `CW[27:22]` must be 0 (30_encoding.md R96). -/
def decodeF (w : CmdWord) (mk : BitVec 6 → BitVec 16 → Instr) : Except Illegal Instr :=
  if w.extractLsb' 22 6 = 0 then .ok (mk (w.extractLsb' 16 6) (w.extractLsb' 0 16)) else .error .reservedBits

/-- Format S: `idx = CW[21:16]`, `fsel = CW[15:12]`, `val = CW[9:0]`, `CW[27:22]` and `CW[11:10]` must be 0, and the
selector assigned (30_encoding.md R97, R107). -/
def decodeS (w : CmdWord) (selectorOk : BitVec 4 → Bool) (mk : BitVec 6 → BitVec 4 → BitVec 10 → Instr) :
    Except Illegal Instr :=
  if w.extractLsb' 22 6 = 0 ∧ w.extractLsb' 10 2 = 0 then
    if selectorOk (w.extractLsb' 12 4) then
      .ok (mk (w.extractLsb' 16 6) (w.extractLsb' 12 4) (w.extractLsb' 0 10))
    else .error .reservedSelector
  else .error .reservedBits

/-- The command a word stands for, or why it is illegal. A function of the 32 bits alone (30_encoding.md R108). -/
def decode (w : CmdWord) : Except Illegal Instr :=
  match (opcodeField w).toNat with
  | 0x1 => decodeN w .begin
  | 0x2 => decodeN w .reset
  | 0x3 => decodeW w .write
  | 0x4 => decodeI w .opoff
  | 0x5 => decodeI w .choff
  | 0x6 => decodeI w .updop
  | 0x7 => decodeI w .keyon
  | 0x8 => decodeI w .keyoff
  | 0x9 => decodeF w .setfreq
  | 0xA => decodeS w opSelectorOk .opset
  | 0xB => decodeS w chSelectorOk .chset
  | _ => .error .reservedOpcode

/-- The word of a command (30_encoding.md R93 to R97). -/
def encode : Instr → CmdWord
  | .begin => 0x10000000#32
  | .reset => 0x20000000#32
  | .write addr data => 0x3#4 ++ 0#11 ++ addr ++ data
  | .opoff idx => 0x4#4 ++ 0#22 ++ idx
  | .choff idx => 0x5#4 ++ 0#22 ++ idx
  | .updop idx => 0x6#4 ++ 0#22 ++ idx
  | .keyon idx => 0x7#4 ++ 0#22 ++ idx
  | .keyoff idx => 0x8#4 ++ 0#22 ++ idx
  | .setfreq idx freq => 0x9#4 ++ 0#6 ++ idx ++ freq
  | .opset idx fsel val => 0xA#4 ++ 0#6 ++ idx ++ fsel ++ 0#2 ++ val
  | .chset idx fsel val => 0xB#4 ++ 0#6 ++ idx ++ fsel ++ 0#2 ++ val

/-- A row of spec/opcode_table.json: its mnemonic, and the mask and match of the decode procedure of 30_encoding.md
R109. -/
structure TableRow where
  mnemonic : String
  mask     : CmdWord
  bits     : CmdWord
  deriving DecidableEq, Repr

/-- The row of spec/opcode_table.json a command belongs to. -/
def Instr.row : Instr → TableRow
  | .begin => ⟨"BEGIN", 0xFFFFFFFF, 0x10000000⟩
  | .reset => ⟨"RESET", 0xFFFFFFFF, 0x20000000⟩
  | .write _ _ => ⟨"WRITE", 0xFFFE0000, 0x30000000⟩
  | .opoff _ => ⟨"OPOFF", 0xFFFFFFC0, 0x40000000⟩
  | .choff _ => ⟨"CHOFF", 0xFFFFFFC0, 0x50000000⟩
  | .updop _ => ⟨"UPDOP", 0xFFFFFFC0, 0x60000000⟩
  | .keyon _ => ⟨"KEYON", 0xFFFFFFC0, 0x70000000⟩
  | .keyoff _ => ⟨"KEYOFF", 0xFFFFFFC0, 0x80000000⟩
  | .setfreq _ _ => ⟨"SETFREQ", 0xFFC00000, 0x90000000⟩
  | .opset _ _ _ => ⟨"OPSET", 0xFFC00C00, 0xA0000000⟩
  | .chset _ _ _ => ⟨"CHSET", 0xFFC00C00, 0xB0000000⟩

/-- The opcode table, one row a command. -/
def opcodeTable : List TableRow :=
  [Instr.begin, .reset, .write 0 0, .opoff 0, .choff 0, .updop 0, .keyon 0, .keyoff 0, .setfreq 0 0,
   .opset 0 0 0, .chset 0 0 0].map Instr.row

/-- The word matches the row: `(CW & mask) == match` (30_encoding.md R109). -/
def TableRow.matchesWord (r : TableRow) (w : CmdWord) : Bool := w &&& r.mask == r.bits

/-- The host's reading of the decoder: a table word of `nbits` bits, the bits above them 0. -/
def decodeTableWord (nbits w : Nat) : Option Instr :=
  match decode (BitVec.ofNat 32 (w % 2 ^ nbits)) with
  | .ok i => some i
  | .error _ => none

end Sys2Proof
end

