-- ==== Sys2Proof/Config.lean ====
section
/-! DEFINITION. The two parameter records and the configuration of the hardware (00_scope.md R7). -/

namespace Sys2Proof

/-- The four output waveform shapes, in the source's order of listing (10_state.md R21, decision D30). -/
inductive Waveform where
  | sine | halfSine | absSine | pulseSine
  deriving DecidableEq, Repr

/-- An Operator Parameter Set: twelve fields, 34 bits (10_state.md R21). -/
structure OpParams where
  multiplier    : BitVec 4
  keyScaleRate  : Bool
  sustainMode   : Bool
  vibrato       : Bool
  tremolo       : Bool
  totalLevel    : BitVec 6
  keyScaleLevel : BitVec 2
  attackRate    : BitVec 4
  decayRate     : BitVec 4
  sustainLevel  : BitVec 4
  releaseRate   : BitVec 4
  waveform      : Waveform
  deriving DecidableEq, Repr

/-- A Channel Parameter Set: nine fields, 22 bits (10_state.md R23). `fNumber < 1024` holds by its width (R24). -/
structure ChParams where
  fNumber   : BitVec 10
  block     : BitVec 3
  keyOn     : Bool
  feedback  : BitVec 3
  algorithm : Bool
  panLeft   : Bool
  panRight  : Bool
  outC      : Bool
  outD      : Bool
  deriving DecidableEq, Repr

/-- The operator record with every field 0 (`Sine` is code 0). -/
def OpParams.zero : OpParams where
  multiplier := 0
  keyScaleRate := false
  sustainMode := false
  vibrato := false
  tremolo := false
  totalLevel := 0
  keyScaleLevel := 0
  attackRate := 0
  decayRate := 0
  sustainLevel := 0
  releaseRate := 0
  waveform := .sine

/-- The channel record with every field 0. -/
def ChParams.zero : ChParams where
  fNumber := 0
  block := 0
  keyOn := false
  feedback := 0
  algorithm := false
  panLeft := false
  panRight := false
  outC := false
  outD := false

/-- `(2 · F(n))^12 · 2^21` for the pitch `F(n) = 27.5 · 2^((n - 21)/12)` of note `n` (45_note_dispatcher.md R216): a whole
number, on which `F(n)` is compared exactly. -/
def pitchScaled (n : Nat) : Nat := 55 ^ 12 * 2 ^ n

/-- `(2 · h)^12 · 2^21` for a whole number of hertz, on the scale of `pitchScaled`. -/
def hzScaled (h : Nat) : Nat := (2 * h) ^ 12 * 2 ^ 21

/-- `floor(F(n)) ≤ h ≤ ceil(F(n))`: `F(n) < h + 1` and, for `h` above 0, `h - 1 < F(n)` (00_scope.md R7,
45_note_dispatcher.md R217). -/
def noteHzAdmissible (n h : Nat) : Bool :=
  decide (pitchScaled n < hzScaled (h + 1)) && (h == 0 || decide (hzScaled (h - 1) < pitchScaled n))

/-- The implementation parameters of 00_scope.md R7, under the spec's names. Times are in nanoseconds. `NOTE_TO_HZ` is a
function there; as plain data it is the table of its values at the notes 0, 1, 2, … up to a note of one's choice, and past the
table's end it is the floor (`Machine.noteHz`; DESIGN CHOICE, notes/assumptions/20.md, safe). -/
structure Params where
  clockHz      : Nat
  hasResetLine : Bool
  tAS          : Nat
  tDS          : Nat
  tWW          : Nat
  tDH          : Nat
  kSafe        : Nat
  kReset       : Nat
  wInt         : Nat
  wipe0Lo      : Byte
  wipe0Hi      : Byte
  wipe1Lo      : Addr
  wipe1Hi      : Addr
  aWse         : Addr
  vWse         : Byte
  aNts         : Addr
  vNts         : Byte
  aExt         : Addr
  vExt         : Byte
  aExtMode     : Addr
  aTest1       : Addr
  baseMult     : Byte
  baseLevel    : Byte
  baseAd       : Byte
  baseSr       : Byte
  baseWave     : Byte
  baseFlo      : Byte
  baseFbc      : Byte
  baseFhi      : Byte
  opDefault    : OpParams
  chDefault    : ChParams
  noteToHz     : List Nat
  deriving DecidableEq, Repr

namespace Params

/-- The eight register ranges of a bank as (first address, length): `base + {0..21}` for an operator base,
`base + {0..8}` for a channel base (00_scope.md R7). -/
def registerRanges (p : Params) : List (Nat × Nat) :=
  [(p.baseMult.toNat, 22), (p.baseLevel.toNat, 22), (p.baseAd.toNat, 22), (p.baseSr.toNat, 22),
   (p.baseWave.toNat, 22), (p.baseFlo.toNat, 9), (p.baseFbc.toNat, 9), (p.baseFhi.toNat, 9)]

/-- Numbers: clock, multipliers and intermediate width (00_scope.md R7). -/
abbrev NumbersOk (p : Params) : Prop :=
  288 ≤ p.clockHz ∧ p.clockHz < 2 ^ 32 ∧ 1 ≤ p.kSafe ∧ 1 ≤ p.kReset ∧ 32 ≤ p.wInt

/-- Wipe bounds: low ≤ high, the extended range in bank 1 and free of the three explicitly written registers
(00_scope.md R7, 90_conflicts.md C4). -/
abbrev WipeOk (p : Params) : Prop :=
  p.wipe0Lo ≤ p.wipe0Hi ∧ p.wipe1Lo ≤ p.wipe1Hi ∧
  p.wipe1Lo.getLsbD 8 = true ∧ p.wipe1Hi.getLsbD 8 = true ∧
  ∀ a ∈ [p.aExt, p.aExtMode, p.aTest1], ¬ (p.wipe1Lo ≤ a ∧ a ≤ p.wipe1Hi)

/-- Mode registers: `A_EXT`, `A_EXTMODE`, `A_TEST1` in bank 1, `V_EXT` with bit 0 set (00_scope.md R7); each written
value has exactly its one enable bit set (30_encoding.md R106; DEDUCED, notes/assumptions/13.md, safe). -/
abbrev ModesOk (p : Params) : Prop :=
  p.aExt.getLsbD 8 = true ∧ p.aExtMode.getLsbD 8 = true ∧ p.aTest1.getLsbD 8 = true ∧ p.vExt = 1 ∧
  p.vWse.cpop = 1 ∧ p.vNts.cpop = 1

/-- Base registers: operator bases at most 0xEA, channel bases at most 0xF7, the eight ranges pairwise disjoint
(00_scope.md R7; disjoint ranges make the bases distinct). -/
abbrev BasesOk (p : Params) : Prop :=
  (∀ b ∈ [p.baseMult, p.baseLevel, p.baseAd, p.baseSr, p.baseWave], b ≤ 0xEA) ∧
  (∀ b ∈ [p.baseFlo, p.baseFbc, p.baseFhi], b ≤ 0xF7) ∧
  p.registerRanges.Pairwise fun x y => x.1 + x.2 ≤ y.1 ∨ y.1 + y.2 ≤ x.1

/-- Conversion: every value of `NOTE_TO_HZ` is between the floor and the ceiling of the note's pitch (00_scope.md R7,
45_note_dispatcher.md R217). -/
abbrev NotesOk (p : Params) : Prop := ∀ n : Fin p.noteToHz.length, noteHzAdmissible n p.noteToHz[n] = true

/-- The constraints of 00_scope.md R7: "a configuration that breaks one is not a configuration of this hardware". -/
abbrev Valid (p : Params) : Prop := p.NumbersOk ∧ p.WipeOk ∧ p.ModesOk ∧ p.BasesOk ∧ p.NotesOk

/-- The values 95_test_vectors.md uses (00_scope.md R7, last column), of the two conversions shown there the floor. They are no
claim about any build (PRESUMED, notes/assumptions/2.md, unsafe for a claim that used them). -/
def vectors : Params where
  clockHz := 14318180
  hasResetLine := false
  tAS := 10
  tDS := 10
  tWW := 100
  tDH := 20
  kSafe := 1
  kReset := 1
  wInt := 32
  wipe0Lo := 0x20
  wipe0Hi := 0xF5
  wipe1Lo := 0x120
  wipe1Hi := 0x1F5
  aWse := 0x001
  vWse := 0x20
  aNts := 0x008
  vNts := 0x40
  aExt := 0x105
  vExt := 0x01
  aExtMode := 0x104
  aTest1 := 0x101
  baseMult := 0x20
  baseLevel := 0x40
  baseAd := 0x60
  baseSr := 0x80
  baseWave := 0xE0
  baseFlo := 0xA0
  baseFbc := 0xC0
  baseFhi := 0xB0
  opDefault := OpParams.zero
  chDefault := ChParams.zero
  noteToHz := []

end Params

/-- A configuration of this hardware: parameters that meet the constraints of 00_scope.md R7. -/
structure Config extends Params where
  ok : toParams.Valid
  deriving DecidableEq, Repr

/-- The configuration of 95_test_vectors.md. -/
def Config.vectors : Config := ⟨Params.vectors, by decide⟩

end Sys2Proof
end

