-- ==== Sys2Proof/Machine/State.lean ====
section
/-! DEFINITION. The state of the three agents (00_scope.md R8, 10_state.md), and the state after power-on. -/

namespace Sys2Proof.Machine

/-- `MODE`, the "address mode" control line (10_state.md R30). -/
inductive Phase where
  | addr | data
  deriving DecidableEq, Repr

/-- `CS`, chip-select, in its logical values (10_state.md R30). -/
inductive Select where
  | off | on
  deriving DecidableEq, Repr

/-- `WR`, the write strobe, as an electrical level: low is active (10_state.md R30). -/
inductive Level where
  | low | high
  deriving DecidableEq, Repr

/-- `RST`, the reset line, in its logical values (10_state.md R30). -/
inductive ResetLine where
  | inactive | active
  deriving DecidableEq, Repr

/-- A value driven on one output line: the argument of `Set(line, v)` (00_scope.md R13). -/
inductive Drive where
  | mode (v : Phase)
  | bank (v : BitVec 1)
  | cs (v : Select)
  | wr (v : Level)
  | rst (v : ResetLine)
  | d (v : Byte)
  deriving DecidableEq, Repr

/-- An event of the pin trace (00_scope.md R9, R13). -/
inductive PinEvent where
  | set (v : Drive)
  | delay (ns : Nat)
  deriving DecidableEq, Repr

/-- The output latches (10_state.md R30). `rst` is meaningful only when `HAS_RESET_LINE` (notes/assumptions/15.md). -/
structure Pins where
  mode : Phase
  bank : BitVec 1
  cs   : Select
  wr   : Level
  rst  : ResetLine
  d    : Byte
  deriving DecidableEq, Repr

/-- The contents of the target's registers `SHADOW`, as (address, byte) cells. A location that is not listed is the
spec's `unknown` (10_state.md R32). -/
abbrev Memory := List Host.Cell

/-- The target-side state (10_state.md R32 to R35): `WLOG` (newest first), `SHADOW`, `T_ADDR` and `T_EXT`, where `none` is
the spec's `unknown`. -/
structure Target where
  wlogRev : List (Addr × Byte)
  shadow  : Memory
  addr    : Option Addr
  ext     : Option Bool
  deriving DecidableEq, Repr

/-- The sequencer position `(w, s)` (10_state.md R26): transaction index, and step 1 to 11 or 0. -/
structure Seq where
  w : Nat
  s : Nat
  deriving DecidableEq, Repr

/-- The position between commands (10_state.md R26). -/
def Seq.idle : Seq := ⟨0, 0⟩

/-- What the host puts on the core's inputs next: a command word with `cmd_valid`, or `por` (30_encoding.md R90). -/
inductive HostInput where
  | command (cw : CmdWord)
  | por
  deriving DecidableEq, Repr

/-- The whole machine: the configuration, the host's coming inputs, the core, its pins and observations, the target. -/
structure State where
  cfg       : Config
  host      : List HostInput
  ops       : Vector OpParams 36
  chs       : Vector ChParams 18
  seq       : Seq
  begun     : Bool
  fault     : Bool
  faultCode : BitVec 3
  faultInfo : CmdWord
  res       : BitVec 9
  busy      : Bool
  pins      : Pins
  traceRev  : List PinEvent
  tgt       : Target
  deriving DecidableEq, Repr

/-- The causes of a core fault (60_exceptions.md R231). They are part of the machine's ordinary behaviour: raising one is a
next state (R236). -/
inductive Cause where
  | illegalCommand
  | notBegun
  | operatorIndexRange
  | channelIndexRange
  | frequencyRange
  | blockRange
  deriving DecidableEq, Repr

/-- Reasons for the machine to stop with a fault. There are none: every fault of 60_exceptions.md is a state the core goes on
from (R236, R237), so nothing raises one, which is safe. -/
inductive Fault where
  deriving DecidableEq, Repr

/-- Reasons to refuse an instruction. -/
inductive Refusal where
  /-- Raised by no arm: every instruction has its meaning. It would mark an arm without one, and is safe. -/
  | notModelled (mnemonic : String)
  deriving DecidableEq, Repr

/-- The outcome of a step of this machine. -/
abbrev Outcome := Host.Outcome State Fault Refusal

/-- The pin latches after power-on. The spec gives none; these are the idle levels of `PinInit` (41_reset_init.md R153).
DESIGN CHOICE, notes/assumptions/4.md, unsafe. -/
def Pins.reset : Pins := ⟨.addr, 0, .off, .high, .inactive, 0⟩

/-- The target after power-on: nothing logged, everything else `unknown` (10_state.md R38). -/
def Target.reset : Target := ⟨[], [], none, none⟩

/-- The power-on state of 10_state.md R38 for a configuration. `OP`, `CH` and `RES`, to which the spec gives no value, are 0
(DESIGN CHOICE, notes/assumptions/3.md, unsafe). -/
def State.powerOn (cfg : Config) (host : List HostInput) : State where
  cfg := cfg
  host := host
  ops := Vector.replicate 36 OpParams.zero
  chs := Vector.replicate 18 ChParams.zero
  seq := Seq.idle
  begun := false
  fault := false
  faultCode := 0
  faultInfo := 0
  res := 0
  busy := false
  pins := Pins.reset
  traceRev := []
  tgt := Target.reset

/-- The machine right after reset: power-on (10_state.md R38), no command presented, the vectors' configuration
(notes/assumptions/1.md, notes/assumptions/2.md). -/
def State.reset : State := State.powerOn Config.vectors []

end Sys2Proof.Machine
end

