-- ==== Sys2Proof/Machine/Flags.lean ====
section
/-! DEFINITION. The flags and status registers of the core (10_state.md R29) and the port outputs (30_encoding.md R90).
There are no condition codes. -/

namespace Sys2Proof.Machine

/-- `FAULT_CODE` of a cause (60_exceptions.md R231). -/
def Cause.code : Cause → BitVec 3
  | .illegalCommand => 1
  | .notBegun => 2
  | .operatorIndexRange => 3
  | .channelIndexRange => 4
  | .frequencyRange => 5
  | .blockRange => 6

/-- `BEGUN <- 1` (41_reset_init.md R151). -/
def State.setBegun (s : State) : State := { s with begun := true }

/-- `RES <- v` (00_scope.md R13). -/
def State.setRes (v : BitVec 9) (s : State) : State := { s with res := v }

/-- `FAULT <- 1`, `FAULT_CODE <- code`, `FAULT_INFO <- cw` (60_exceptions.md R236). -/
def State.setFault (c : Cause) (cw : CmdWord) (s : State) : State :=
  { s with fault := true, faultCode := c.code, faultInfo := cw }

/-- What the host sees of the core (30_encoding.md R90). -/
structure PortOutputs where
  cmdReady  : Bool
  res       : BitVec 9
  fault     : Bool
  faultCode : BitVec 3
  deriving DecidableEq, Repr

/-- `cmd_ready = not BUSY`, `res = RES`, `fault = FAULT`, `fault_code = FAULT_CODE` (30_encoding.md R90, 10_state.md R29).
`FAULT_INFO` is not among them: R29 names the host as its reader and the spec lists no output that carries it, so the model fixes
no path (DESIGN CHOICE, notes/assumptions/26.md, safe). -/
def State.portOutputs (s : State) : PortOutputs := ⟨!s.busy, s.res, s.fault, s.faultCode⟩

end Sys2Proof.Machine
end

