-- ==== Sys2Proof/Machine/Memory.lean ====
section
/-! DEFINITION. The target's register space as a canonical list of cells (10_state.md R32, 20_memory.md R60, R64): addresses
strictly rising and below 512; a location not listed is `unknown`. -/

namespace Sys2Proof.Machine

/-- The canonical form: addresses strictly rising, all in the 9-bit space (20_memory.md R60). -/
abbrev Memory.wf (m : Memory) : Prop := m.Pairwise (fun x y => x.1 < y.1) ∧ ∀ c ∈ m, c.1 < 512

/-- The contents of a location: a byte, or `none` for `unknown` (10_state.md R32). This is for claims: the core has no read
(20_memory.md R61). -/
def Memory.readCell : Memory → Nat → Option Byte
  | [], _ => none
  | (b, e) :: m, a => if a = b then some e else Memory.readCell m a

/-- A location takes a byte. -/
def Memory.putCell : Memory → Nat → Byte → Memory
  | [], a, d => [(a, d)]
  | (b, e) :: m, a, d =>
    if a < b then (a, d) :: (b, e) :: m
    else if a = b then (a, d) :: m
    else (b, e) :: Memory.putCell m a d

/-- A location becomes `unknown`: its entry goes. -/
def Memory.dropCell : Memory → Nat → Memory
  | [], _ => []
  | (b, e) :: m, a => if a = b then Memory.dropCell m a else (b, e) :: Memory.dropCell m a

/-- `SHADOW[a]` (10_state.md R32). -/
def Memory.read (m : Memory) (a : Addr) : Option Byte := m.readCell a.toNat

/-- `SHADOW[a] <- d`. -/
def Memory.put (m : Memory) (a : Addr) (d : Byte) : Memory := m.putCell a.toNat d

/-- `SHADOW[a] <- unknown`. -/
def Memory.forget (m : Memory) (a : Addr) : Memory := m.dropCell a.toNat

/-- Every one of the 512 locations holds 0 (41_reset_init.md R156). -/
def Memory.allZero : Memory := (List.range 512).map fun a => (a, 0)

end Sys2Proof.Machine
end

