-- ==== Sys2Proof/Machine/Operands.lean ====
section
/-! DEFINITION. Operand forms: logical indices, field selectors, truncation to a field's width (30_encoding.md R95 to R100),
and access to one record of the parameter files (10_state.md R20 to R24). -/

namespace Sys2Proof.Machine

/-- A logical operator index is 0 to 35, else `OperatorIndexRange` (30_encoding.md R95, 60_exceptions.md R231). -/
def opIndex (idx : BitVec 6) : Except Cause (Fin 36) :=
  if h : idx.toNat < 36 then .ok ⟨idx.toNat, h⟩ else .error .operatorIndexRange

/-- A logical channel index is 0 to 17, else `ChannelIndexRange` (30_encoding.md R95, 60_exceptions.md R231). -/
def chIndex (idx : BitVec 6) : Except Cause (Fin 18) :=
  if h : idx.toNat < 18 then .ok ⟨idx.toNat, h⟩ else .error .channelIndexRange

/-- The twelve fields of an operator record (10_state.md R21). -/
inductive OpField where
  | multiplier | keyScaleRate | sustainMode | vibrato | tremolo | totalLevel
  | keyScaleLevel | attackRate | decayRate | sustainLevel | releaseRate | waveform
  deriving DecidableEq, Repr

/-- The nine fields of a channel record (10_state.md R23). -/
inductive ChField where
  | fNumber | block | keyOn | feedback | algorithm | panLeft | panRight | outC | outD
  deriving DecidableEq, Repr

/-- The field an `OPSET` selector names (30_encoding.md R99); 12 to 15 are reserved, `IllegalCommand` (R107). -/
def opField (fsel : BitVec 4) : Except Cause OpField :=
  match fsel.toNat with
  | 0 => .ok .multiplier
  | 1 => .ok .keyScaleRate
  | 2 => .ok .sustainMode
  | 3 => .ok .vibrato
  | 4 => .ok .tremolo
  | 5 => .ok .totalLevel
  | 6 => .ok .keyScaleLevel
  | 7 => .ok .attackRate
  | 8 => .ok .decayRate
  | 9 => .ok .sustainLevel
  | 10 => .ok .releaseRate
  | 11 => .ok .waveform
  | _ => .error .illegalCommand

/-- The field a `CHSET` selector names (30_encoding.md R100); 9 to 15 are reserved, `IllegalCommand` (R107). -/
def chField (fsel : BitVec 4) : Except Cause ChField :=
  match fsel.toNat with
  | 0 => .ok .fNumber
  | 1 => .ok .block
  | 2 => .ok .keyOn
  | 3 => .ok .feedback
  | 4 => .ok .algorithm
  | 5 => .ok .panLeft
  | 6 => .ok .panRight
  | 7 => .ok .outC
  | 8 => .ok .outD
  | _ => .error .illegalCommand

/-- The code of a waveform: 0 to 3 in the order of listing (10_state.md R21). -/
def waveCode : Waveform → BitVec 2
  | .sine => 0
  | .halfSine => 1
  | .absSine => 2
  | .pulseSine => 3

/-- The waveform of a code. -/
def waveOfCode (c : BitVec 2) : Waveform :=
  match c.toNat with
  | 0 => .sine
  | 1 => .halfSine
  | 2 => .absSine
  | _ => .pulseSine

/-- `o.field <- trunc_N(val)` (43_parameter_writes.md R181, 30_encoding.md R98); a bool is one bit, true = 1 (00_scope.md
R12). -/
def writeOpField (f : OpField) (val : BitVec 10) (o : OpParams) : OpParams :=
  match f with
  | .multiplier => { o with multiplier := val.setWidth 4 }
  | .keyScaleRate => { o with keyScaleRate := val.getLsbD 0 }
  | .sustainMode => { o with sustainMode := val.getLsbD 0 }
  | .vibrato => { o with vibrato := val.getLsbD 0 }
  | .tremolo => { o with tremolo := val.getLsbD 0 }
  | .totalLevel => { o with totalLevel := val.setWidth 6 }
  | .keyScaleLevel => { o with keyScaleLevel := val.setWidth 2 }
  | .attackRate => { o with attackRate := val.setWidth 4 }
  | .decayRate => { o with decayRate := val.setWidth 4 }
  | .sustainLevel => { o with sustainLevel := val.setWidth 4 }
  | .releaseRate => { o with releaseRate := val.setWidth 4 }
  | .waveform => { o with waveform := waveOfCode (val.setWidth 2) }

/-- `c.field <- trunc_N(val)` (43_parameter_writes.md R182). -/
def writeChField (f : ChField) (val : BitVec 10) (c : ChParams) : ChParams :=
  match f with
  | .fNumber => { c with fNumber := val }
  | .block => { c with block := val.setWidth 3 }
  | .keyOn => { c with keyOn := val.getLsbD 0 }
  | .feedback => { c with feedback := val.setWidth 3 }
  | .algorithm => { c with algorithm := val.getLsbD 0 }
  | .panLeft => { c with panLeft := val.getLsbD 0 }
  | .panRight => { c with panRight := val.getLsbD 0 }
  | .outC => { c with outC := val.getLsbD 0 }
  | .outD => { c with outD := val.getLsbD 0 }

/-- The width of a field in bits (10_state.md R21). -/
def OpField.width : OpField → Nat
  | .multiplier => 4
  | .keyScaleRate => 1
  | .sustainMode => 1
  | .vibrato => 1
  | .tremolo => 1
  | .totalLevel => 6
  | .keyScaleLevel => 2
  | .attackRate => 4
  | .decayRate => 4
  | .sustainLevel => 4
  | .releaseRate => 4
  | .waveform => 2

/-- The width of a field in bits (10_state.md R23). -/
def ChField.width : ChField → Nat
  | .fNumber => 10
  | .block => 3
  | .keyOn => 1
  | .feedback => 3
  | .algorithm => 1
  | .panLeft => 1
  | .panRight => 1
  | .outC => 1
  | .outD => 1

/-- A field as the unsigned number its bits spell (00_scope.md R12): for claims; the host has no read port (10_state.md
R22). -/
def readOpField (f : OpField) (o : OpParams) : Nat :=
  match f with
  | .multiplier => o.multiplier.toNat
  | .keyScaleRate => o.keyScaleRate.toNat
  | .sustainMode => o.sustainMode.toNat
  | .vibrato => o.vibrato.toNat
  | .tremolo => o.tremolo.toNat
  | .totalLevel => o.totalLevel.toNat
  | .keyScaleLevel => o.keyScaleLevel.toNat
  | .attackRate => o.attackRate.toNat
  | .decayRate => o.decayRate.toNat
  | .sustainLevel => o.sustainLevel.toNat
  | .releaseRate => o.releaseRate.toNat
  | .waveform => (waveCode o.waveform).toNat

/-- A field of a channel record as an unsigned number. -/
def readChField (f : ChField) (c : ChParams) : Nat :=
  match f with
  | .fNumber => c.fNumber.toNat
  | .block => c.block.toNat
  | .keyOn => c.keyOn.toNat
  | .feedback => c.feedback.toNat
  | .algorithm => c.algorithm.toNat
  | .panLeft => c.panLeft.toNat
  | .panRight => c.panRight.toNat
  | .outC => c.outC.toNat
  | .outD => c.outD.toNat

/-- `OP[i]` (10_state.md R20). -/
def State.op (s : State) (i : Fin 36) : OpParams := s.ops.get i

/-- `CH[i]` (10_state.md R23). -/
def State.ch (s : State) (i : Fin 18) : ChParams := s.chs.get i

/-- The record `OP[i]` takes a value; no other record changes. -/
def State.setOp (i : Fin 36) (o : OpParams) (s : State) : State := { s with ops := s.ops.set i o }

/-- The record `CH[i]` takes a value; no other record changes. -/
def State.setCh (i : Fin 18) (c : ChParams) (s : State) : State := { s with chs := s.chs.set i c }

end Sys2Proof.Machine
end

