-- ==== Sys2Proof/Machine/Ops.lean ====
section
/-! DEFINITION. The shared operations: driving pins and requesting delays (00_scope.md R13), the target's reaction
(40_bus_write.md R139, 20_memory.md R66), the bus transaction (40_bus_write.md R132, R133), raising a fault and admitting a
command (60_exceptions.md R232, R236), and the command port (30_encoding.md R90). -/

namespace Sys2Proof.Machine

/-! ## Pins and delays -/

/-- A line is driven to a value; the other latches hold (10_state.md R31). -/
def Pins.drive (p : Pins) : Drive → Pins
  | .mode v => { p with mode := v }
  | .bank v => { p with bank := v }
  | .cs v => { p with cs := v }
  | .wr v => { p with wr := v }
  | .rst v => { p with rst := v }
  | .d v => { p with d := v }

/-- `Set(line, v)`: update the latch and append the event, even when the value does not change (00_scope.md R13). -/
def setLine (v : Drive) (s : State) : State :=
  { s with pins := s.pins.drive v, traceRev := .set v :: s.traceRev }

/-- `Delay(n)`: append the event; no state changes (00_scope.md R13). -/
def delay (ns : Nat) (s : State) : State := { s with traceRev := .delay ns :: s.traceRev }

/-! ## The target -/

/-- The write `(a, d)` reaches a register that is surely writable: bank 0, or `A_EXT`, or extended mode known on
(20_memory.md R66). -/
def Target.lands (aExt a : Addr) (t : Target) : Bool := !a.getLsbD 8 || a == aExt || t.ext == some true

/-- The effect of a transaction on the target (20_memory.md R66). -/
def Target.write (aExt a : Addr) (d : Byte) (t : Target) : Target :=
  { t with
    wlogRev := (a, d) :: t.wlogRev
    shadow := if t.lands aExt a then t.shadow.put a d else t.shadow.forget a
    ext := if a = aExt then some (d.getLsbD 0) else t.ext }

/-- The target's reaction to the end of a strobe pulse (40_bus_write.md R139): with chip-select on, an address phase latches
`{BANK, D}` and a data phase writes the register `T_ADDR` names. A data phase with `T_ADDR` unknown could have written any
register, so everything becomes `unknown` (DESIGN CHOICE, notes/assumptions/10.md, safe; no command leads there). -/
def Target.pulse (aExt : Addr) (p : Pins) (t : Target) : Target :=
  match p.cs, p.mode with
  | .off, _ => t
  | .on, .addr => { t with addr := some (p.bank ++ p.d) }
  | .on, .data =>
    match t.addr with
    | some a => t.write aExt a p.d
    | none => { t with shadow := [], ext := none }

/-- The effect of the hardware reset pulse on the target: every register 0, extended mode off, `T_ADDR` unknown, `WLOG`
unchanged (41_reset_init.md R156). -/
def Target.hardwareReset (t : Target) : Target :=
  { t with shadow := Memory.allZero, addr := none, ext := some false }

/-! ## The bus transaction -/

/-- The rising edge of `WR` that ends a strobe pulse, and the target's reaction to it (40_bus_write.md R139). -/
def endPulse (s : State) : State :=
  let s := setLine (.wr .high) s
  { s with tgt := s.tgt.pulse s.cfg.aExt s.pins }

/-- `Strobe()` (40_bus_write.md R133). -/
def strobe (s : State) : State :=
  let s := delay (s.cfg.kSafe * s.cfg.tDS) s
  let s := setLine (.wr .low) s
  let s := delay (s.cfg.kSafe * s.cfg.tWW) s
  let s := endPulse s
  delay (s.cfg.kSafe * s.cfg.tDH) s

/-- What step `n` of `BusWrite(a, d)` does (40_bus_write.md R132). -/
def busAction (a : Addr) (d : Byte) (n : Nat) (s : State) : State :=
  match n with
  | 1 => setLine (.mode .addr) s
  | 2 => setLine (.bank (a.extractLsb' 8 1)) s
  | 3 => delay (s.cfg.kSafe * s.cfg.tAS) s
  | 4 => setLine (.cs .on) s
  | 5 => setLine (.d (a.extractLsb' 0 8)) s
  | 6 => strobe s
  | 7 => setLine (.d d) s
  | 8 => setLine (.mode .data) s
  | 9 => delay (s.cfg.kSafe * s.cfg.tAS) s
  | 10 => strobe s
  | 11 => setLine (.cs .off) s
  | _ => s

/-- Step `n` of transaction `w` of a command: the sequencer stands at `(w, n)` (10_state.md R26, R27). -/
def busStep (w : Nat) (a : Addr) (d : Byte) (s : State) (n : Nat) : State :=
  busAction a d n { s with seq := ⟨w, n⟩ }

/-- The first `k` steps of transaction `w`, in order, none skipped (10_state.md R27). -/
def busSteps (w : Nat) (a : Addr) (d : Byte) (k : Nat) (s : State) : State :=
  (List.range' 1 k).foldl (busStep w a d) s

/-- `BusWrite(a, d)` as transaction `w` of a command: exactly eleven steps (40_bus_write.md R132). -/
def busWrite (w : Nat) (a : Addr) (d : Byte) (s : State) : State := busSteps w a d 11 s

/-- The first `k` steps of a command's transactions from number `w` on, in the order issued (20_memory.md R74): after the
eleventh step of one the next begins, with `w` one higher (10_state.md R27). -/
def busProgressFrom (w : Nat) : List (Addr × Byte) → Nat → State → State
  | [], _, s => s
  | (a, d) :: rest, k, s =>
    if k ≤ 11 then busSteps w a d k s else busProgressFrom (w + 1) rest (k - 11) (busWrite w a d s)

/-- The first `k` steps of all the transactions of a command. -/
def busProgress (l : List (Addr × Byte)) (k : Nat) (s : State) : State := busProgressFrom 0 l k s

/-- All the transactions of a command: eleven steps each; after the last the sequencer returns to `(0, 0)` (10_state.md
R27). -/
def busWrites (l : List (Addr × Byte)) (s : State) : State := { busProgress l (11 * l.length) s with seq := Seq.idle }

/-! ## Faults and admission -/

/-- `raise X(cw)`, the core's exception entry: the first cause is recorded and nothing else changes (60_exceptions.md R236,
R237). There is no return from it: only power-on clears `FAULT` (R237). -/
def raise (c : Cause) (cw : CmdWord) (s : State) : State :=
  if s.fault then s else s.setFault c cw

/-- Admission and the order of checks (60_exceptions.md R232): ignored while faulted, illegal word, not begun, then the
command's own checks and effects in `body`. A failing check carries no state, so a fault precedes every effect (R234). The
offending word is the command's encoding (notes/assumptions/11.md). -/
def runCommand (i : Instr) (body : State → Except Cause State) (s : State) : Outcome :=
  if s.fault then .next s
  else if !i.wellFormed then .next (raise .illegalCommand (encode i) s)
  else if !s.begun && i != .begin then .next (raise .notBegun (encode i) s)
  else
    match body s with
    | .ok t => .next t
    | .error c => .next (raise c (encode i) s)

/-! ## The command port -/

/-- The core accepts the word the host presents and shows `cmd_ready = 0` (30_encoding.md R90). -/
def acceptWord (rest : List HostInput) (s : State) : State := { s with host := rest, busy := true }

/-- The command has run to completion: `cmd_ready = 1` again, no transaction in progress (30_encoding.md R90). -/
def completeCommand (s : State) : State := { s with busy := false, seq := Seq.idle }

/-- Completion of whatever a command answered. -/
def complete : Outcome → Outcome
  | .next s => .next (completeCommand s)
  | .fault r => .fault r
  | .refused r => .refused r

/-- An illegal word: ignored while faulted, else `IllegalCommand` with the word (60_exceptions.md R232, 30_encoding.md
R107). -/
def illegalWord (cw : CmdWord) (s : State) : Outcome := .next (raise .illegalCommand cw s)

/-- The `por` input: the power-on state of 10_state.md R38, whatever the core was doing; the board's configuration and the
host's further inputs stay (notes/assumptions/7.md). -/
def powerOnInput (rest : List HostInput) (s : State) : State := State.powerOn s.cfg rest

/-- The host presents a word next, the core ready to accept it. -/
def presentWord (cw : CmdWord) (s : State) : State :=
  { s with host := .command cw :: s.host, busy := false }

end Sys2Proof.Machine
end

