-- ==== Sys2Proof/Machine/AddressMapper.lean ====
section
/-! DEFINITION. The address mapper (42_address_mapper.md) and register addresses (20_memory.md R73). -/

namespace Sys2Proof.Machine

/-- `operatorOffset(i)` (42_address_mapper.md R171). -/
def operatorOffset (i : Fin 36) : Addr :=
  let bank := if 18 ≤ i.val then 1 else 0
  let slot := if 18 ≤ i.val then i.val - 18 else i.val
  let group := slot / 6
  let inBank := if group = 0 then slot else if group = 1 then slot + 2 else slot + 4
  BitVec.ofNat 9 (0x100 * bank + inBank)

/-- `channelOffset(i)` (42_address_mapper.md R173). -/
def channelOffset (i : Fin 18) : Addr :=
  BitVec.ofNat 9 (if i.val < 9 then i.val else 0x100 + (i.val - 9))

/-- A register address: `zext_9(base) + offset` (20_memory.md R73). -/
def registerAddress (base : Byte) (off : Addr) : Addr := base.setWidth 9 + off

/-- `OPOFF idx` (42_address_mapper.md R172). -/
def execOpoff (idx : BitVec 6) (s : State) : Outcome :=
  runCommand (.opoff idx) (fun s =>
    match opIndex idx with
    | .error c => .error c
    | .ok i => .ok (s.setRes (operatorOffset i))) s

/-- `CHOFF idx` (42_address_mapper.md R174). -/
def execChoff (idx : BitVec 6) (s : State) : Outcome :=
  runCommand (.choff idx) (fun s =>
    match chIndex idx with
    | .error c => .error c
    | .ok i => .ok (s.setRes (channelOffset i))) s

end Sys2Proof.Machine
end

