-- ==== Sys2Proof/Machine/BusDriver.lean ====
section
/-! DEFINITION. The register bus driver's command (40_bus_write.md). -/

namespace Sys2Proof.Machine

/-- `WRITE addr, data`: one transaction, any address, any data (40_bus_write.md R131). -/
def execWrite (addr : Addr) (data : Byte) (s : State) : Outcome :=
  runCommand (.write addr data) (fun s => .ok (busWrites [(addr, data)] s)) s

end Sys2Proof.Machine
end

