-- ==== Sys2Proof/Machine/Frequency.lean ====
section
/-! DEFINITION. The frequency to block-number converter (44_frequency.md): `SETFREQ`. -/

namespace Sys2Proof.Machine

/-- The halving loop (44_frequency.md R201): while `f ≥ 1024`, halve `f` and count. `fuel` bounds the trips; `W_INT - 10`
suffices for a `W_INT`-bit `f` (R201, notes/assumptions/16.md). -/
def halve : Nat → Nat → Nat → Nat × Nat
  | 0, f, b => (f, b)
  | fuel + 1, f, b => if 1024 ≤ f then halve fuel (f / 2) (b + 1) else (f, b)

/-- `f = (freq << 20) div (CLOCK_HZ div 288)`; both divisions truncate (44_frequency.md R200, R201). -/
def rawFNumber (p : Params) (freq : Nat) : Nat := freq * 2 ^ 20 / (p.clockHz / 288)

/-- The conversion of a whole number of hertz to (f-number, block), with its two range faults in order (44_frequency.md R201,
R206, R207). -/
def convert (p : Params) (freq : Nat) : Except Cause (BitVec 10 × BitVec 3) :=
  if 2 ^ (p.wInt - 20) ≤ freq then .error .frequencyRange
  else
    let (f, b) := halve (p.wInt - 10) (rawFNumber p freq) 0
    if 7 < b then .error .blockRange else .ok (BitVec.ofNat 10 f, BitVec.ofNat 3 b)

/-- `CH[i].fNumber <- f`, `CH[i].block <- b` (44_frequency.md R201). -/
def setFrequency (i : Fin 18) (f : BitVec 10) (b : BitVec 3) (s : State) : State :=
  s.setCh i { s.ch i with fNumber := f, block := b }

/-- `SETFREQ idx, freq` (44_frequency.md R201). -/
def execSetfreq (idx : BitVec 6) (freq : BitVec 16) (s : State) : Outcome :=
  runCommand (.setfreq idx freq) (fun s =>
    match chIndex idx, convert s.cfg.toParams freq.toNat with
    | .error c, _ => .error c
    | .ok _, .error c => .error c
    | .ok i, .ok (f, b) => .ok (setFrequency i f b s)) s

end Sys2Proof.Machine
end

