-- ==== Sys2Proof/Machine/Marshaller.lean ====
section
/-! DEFINITION. The parameter marshaller (43_parameter_writes.md) with the register byte layouts of 30_encoding.md R102 to
R105. The bit positions are the spec's, taken there from general knowledge (PRESUMED, notes/assumptions/12.md, unsafe). -/

namespace Sys2Proof.Machine

/-! ## Packing -/

/-- The multiplier/rate-scaling byte `b0` (30_encoding.md R102). -/
def packMult (o : OpParams) : Byte :=
  BitVec.ofBool o.tremolo ++ BitVec.ofBool o.vibrato ++ BitVec.ofBool o.sustainMode ++
    BitVec.ofBool o.keyScaleRate ++ o.multiplier

/-- The level byte `b1` (30_encoding.md R102). -/
def packLevel (o : OpParams) : Byte := o.keyScaleLevel ++ o.totalLevel

/-- The attack/decay byte `b2` (30_encoding.md R102). -/
def packAd (o : OpParams) : Byte := o.attackRate ++ o.decayRate

/-- The sustain/release byte `b3` (30_encoding.md R102). -/
def packSr (o : OpParams) : Byte := o.sustainLevel ++ o.releaseRate

/-- The waveform byte `b4` (30_encoding.md R102). -/
def packWave (o : OpParams) : Byte := 0#6 ++ waveCode o.waveform

/-- The f-number/block-low byte `flo` (30_encoding.md R103). -/
def packFlo (c : ChParams) : Byte := c.fNumber.extractLsb' 0 8

/-- The key-on/f-number-high/block byte `fhi(k)` (30_encoding.md R104). -/
def packFhi (c : ChParams) (k : Bool) : Byte := 0#2 ++ BitVec.ofBool k ++ c.block ++ c.fNumber.extractLsb' 8 2

/-- The feedback/algorithm/pan byte `fbc` (30_encoding.md R105). -/
def packFbc (c : ChParams) : Byte :=
  BitVec.ofBool c.outD ++ BitVec.ofBool c.outC ++ BitVec.ofBool c.panRight ++ BitVec.ofBool c.panLeft ++
    c.feedback ++ BitVec.ofBool c.algorithm

/-! ## The transactions of the writing commands -/

/-- The five transactions of `UPDOP` (43_parameter_writes.md R185, R186). -/
def updopWrites (p : Params) (i : Fin 36) (o : OpParams) : List (Addr × Byte) :=
  let off := operatorOffset i
  [(registerAddress p.baseMult off, packMult o), (registerAddress p.baseLevel off, packLevel o),
   (registerAddress p.baseAd off, packAd o), (registerAddress p.baseSr off, packSr o),
   (registerAddress p.baseWave off, packWave o)]

/-- The three transactions of `KEYON` (43_parameter_writes.md R188). -/
def keyonWrites (p : Params) (i : Fin 18) (c : ChParams) : List (Addr × Byte) :=
  let off := channelOffset i
  [(registerAddress p.baseFlo off, packFlo c), (registerAddress p.baseFbc off, packFbc c),
   (registerAddress p.baseFhi off, packFhi c true)]

/-- The one transaction of `KEYOFF` (43_parameter_writes.md R190). -/
def keyoffWrites (p : Params) (i : Fin 18) (c : ChParams) : List (Addr × Byte) :=
  [(registerAddress p.baseFhi (channelOffset i), packFhi c false)]

/-- `CH[i].keyOn <- k` (43_parameter_writes.md R192). -/
def setKeyOn (i : Fin 18) (k : Bool) (s : State) : State := s.setCh i { s.ch i with keyOn := k }

/-! ## The commands -/

/-- `OPSET idx, field, val` (43_parameter_writes.md R181). -/
def execOpset (idx : BitVec 6) (fsel : BitVec 4) (val : BitVec 10) (s : State) : Outcome :=
  runCommand (.opset idx fsel val) (fun s =>
    match opIndex idx, opField fsel with
    | .error c, _ => .error c
    | .ok _, .error c => .error c
    | .ok i, .ok f => .ok (s.setOp i (writeOpField f val (s.op i)))) s

/-- `CHSET idx, field, val` (43_parameter_writes.md R182). -/
def execChset (idx : BitVec 6) (fsel : BitVec 4) (val : BitVec 10) (s : State) : Outcome :=
  runCommand (.chset idx fsel val) (fun s =>
    match chIndex idx, chField fsel with
    | .error c, _ => .error c
    | .ok _, .error c => .error c
    | .ok i, .ok f => .ok (s.setCh i (writeChField f val (s.ch i)))) s

/-- `UPDOP idx` (43_parameter_writes.md R186). -/
def execUpdop (idx : BitVec 6) (s : State) : Outcome :=
  runCommand (.updop idx) (fun s =>
    match opIndex idx with
    | .error c => .error c
    | .ok i => .ok (busWrites (updopWrites s.cfg.toParams i (s.op i)) s)) s

/-- `KEYON idx` (43_parameter_writes.md R188). -/
def execKeyon (idx : BitVec 6) (s : State) : Outcome :=
  runCommand (.keyon idx) (fun s =>
    match chIndex idx with
    | .error c => .error c
    | .ok i =>
      let s := setKeyOn i true s
      .ok (busWrites (keyonWrites s.cfg.toParams i (s.ch i)) s)) s

/-- `KEYOFF idx` (43_parameter_writes.md R190). -/
def execKeyoff (idx : BitVec 6) (s : State) : Outcome :=
  runCommand (.keyoff idx) (fun s =>
    match chIndex idx with
    | .error c => .error c
    | .ok i =>
      let s := setKeyOn i false s
      .ok (busWrites (keyoffWrites s.cfg.toParams i (s.ch i)) s)) s

end Sys2Proof.Machine
end

