-- ==== Sys2Proof/Machine/ResetInit.lean ====
section
/-! DEFINITION. The reset/init sequencer (41_reset_init.md): `BEGIN` and `RESET`. -/

namespace Sys2Proof.Machine

/-- `PinInit()` (41_reset_init.md R153). -/
def pinInit (s : State) : State :=
  let s := setLine (.wr .high) s
  let s := setLine (.cs .off) s
  let s := setLine (.mode .addr) s
  let s := setLine (.bank 0) s
  let s := setLine (.d 0) s
  if s.cfg.hasResetLine then setLine (.rst .inactive) s else s

/-- The requested reset pulse `T_RESET_REQ = K_RESET · ceil(400 · 10^9 / CLOCK_HZ)` in nanoseconds (41_reset_init.md R155). -/
def resetPulseNs (p : Params) : Nat := p.kReset * ((400 * 10 ^ 9 + (p.clockHz - 1)) / p.clockHz)

/-- `HardwareResetPath()` and the target's reaction to the pulse (41_reset_init.md R155, R156). -/
def hardwareResetPath (s : State) : State :=
  let s := setLine (.rst .active) s
  let s := delay (resetPulseNs s.cfg.toParams) s
  let s := setLine (.rst .inactive) s
  { s with tgt := s.tgt.hardwareReset }

/-- The addresses `lo` to `hi`, ascending by 1 (41_reset_init.md R157). -/
def addressesUp (lo hi : Nat) : List Addr := (List.range' lo (hi + 1 - lo)).map (BitVec.ofNat 9)

/-- The transactions of `SoftwareWipePath()` (41_reset_init.md R157). -/
def softwareWipe (p : Params) : List (Addr × Byte) :=
  (addressesUp p.wipe0Lo.toNat p.wipe0Hi.toNat).map (·, 0)
  ++ [(p.aExt, p.vExt), (p.aExtMode, 0), (p.aTest1, 0)]
  ++ (addressesUp p.wipe1Lo.toNat p.wipe1Hi.toNat).map (·, 0)

/-- The transactions of `BaselineWrites()` (41_reset_init.md R159). -/
def baselineWrites (p : Params) : List (Addr × Byte) := [(p.aWse, p.vWse), (p.aNts, p.vNts), (p.aExt, p.vExt)]

/-- The parameter files take their defaults (41_reset_init.md R154). -/
def loadDefaults (s : State) : State :=
  { s with ops := Vector.replicate 36 s.cfg.opDefault, chs := Vector.replicate 18 s.cfg.chDefault }

/-- `ResetSequence()` (41_reset_init.md R154). -/
def resetSequence (s : State) : State :=
  let s := loadDefaults s
  if s.cfg.hasResetLine then busWrites (baselineWrites s.cfg.toParams) (hardwareResetPath s)
  else busWrites (softwareWipe s.cfg.toParams ++ baselineWrites s.cfg.toParams) s

/-- `BEGIN` (41_reset_init.md R151). -/
def execBegin (s : State) : Outcome :=
  runCommand .begin (fun s => .ok (resetSequence (pinInit s)).setBegun) s

/-- `RESET` (41_reset_init.md R152). -/
def execReset (s : State) : Outcome :=
  runCommand .reset (fun s => .ok (resetSequence s)) s

end Sys2Proof.Machine
end

