-- ==== Sys2Proof/Machine/Dispatch.lean ====
section
/-! DEFINITION. Each command and its meaning. -/

namespace Sys2Proof.Machine

def exec (i : Instr) (s : State) : Host.Outcome State Fault Refusal :=
  match i with
  | .begin => Sys2Proof.Machine.execBegin s
  | .reset => Sys2Proof.Machine.execReset s
  | .write addr data => Sys2Proof.Machine.execWrite addr data s
  | .opoff idx => Sys2Proof.Machine.execOpoff idx s
  | .choff idx => Sys2Proof.Machine.execChoff idx s
  | .updop idx => Sys2Proof.Machine.execUpdop idx s
  | .keyon idx => Sys2Proof.Machine.execKeyon idx s
  | .keyoff idx => Sys2Proof.Machine.execKeyoff idx s
  | .setfreq idx freq => Sys2Proof.Machine.execSetfreq idx freq s
  | .opset idx fsel val => Sys2Proof.Machine.execOpset idx fsel val s
  | .chset idx fsel val => Sys2Proof.Machine.execChset idx fsel val s

end Sys2Proof.Machine
end

