-- ==== Sys2Proof/Machine/Step.lean ====
section
/-! DEFINITION. One step: the host's next input, run to completion (00_scope.md R8, 30_encoding.md R90, decision D29). A
command is one step (10_state.md R28). -/

namespace Sys2Proof.Machine

/-- An accepted word: decode it, run it, show `cmd_ready` again. -/
def runWord (cw : CmdWord) (s : State) : Outcome :=
  match decode cw with
  | .ok i => complete (exec i s)
  | .error _ => complete (illegalWord cw s)

/-- One step. With nothing presented the core idles (70_reset_and_hazards.md R262, 60_exceptions.md R246); a word presented
while the core is busy is not accepted and has no effect (30_encoding.md R90). -/
def step (s : State) : Host.Outcome State Fault Refusal :=
  match s.host with
  | [] => .next s
  | .por :: rest => .next (powerOnInput rest s)
  | .command cw :: rest => if s.busy then .next s else runWord cw (acceptWord rest s)

/-- The state in which the host presents the word `w` of `nbits` bits next. -/
def State.withFetchWord (s : State) (nbits w : Nat) : State := presentWord (BitVec.ofNat 32 (w % 2 ^ nbits)) s

end Sys2Proof.Machine
end

