-- ==== Sys2Proof/Machine/Assembly.lean ====
section
/-! DEFINITION. The assembler syntax of a command (30_encoding.md R110). -/

namespace Sys2Proof.Machine

/-- A field's identifier (10_state.md R21). -/
def OpField.name : OpField → String
  | .multiplier => "multiplier"
  | .keyScaleRate => "keyScaleRate"
  | .sustainMode => "sustainMode"
  | .vibrato => "vibrato"
  | .tremolo => "tremolo"
  | .totalLevel => "totalLevel"
  | .keyScaleLevel => "keyScaleLevel"
  | .attackRate => "attackRate"
  | .decayRate => "decayRate"
  | .sustainLevel => "sustainLevel"
  | .releaseRate => "releaseRate"
  | .waveform => "waveform"

/-- A field's identifier (10_state.md R23). -/
def ChField.name : ChField → String
  | .fNumber => "fNumber"
  | .block => "block"
  | .keyOn => "keyOn"
  | .feedback => "feedback"
  | .algorithm => "algorithm"
  | .panLeft => "panLeft"
  | .panRight => "panRight"
  | .outC => "outC"
  | .outD => "outD"

/-- The field operand of `OPSET`; a reserved selector has no name and is shown as its number. -/
def opFieldText (fsel : BitVec 4) : String :=
  match opField fsel with
  | .ok f => f.name
  | .error _ => toString fsel.toNat

/-- The field operand of `CHSET`. -/
def chFieldText (fsel : BitVec 4) : String :=
  match chField fsel with
  | .ok f => f.name
  | .error _ => toString fsel.toNat

/-- The operands of a command, numbers in decimal, separated by commas (30_encoding.md R110). -/
def operandTexts : Instr → List String
  | .begin => []
  | .reset => []
  | .write addr data => [toString addr.toNat, toString data.toNat]
  | .opoff idx => [toString idx.toNat]
  | .choff idx => [toString idx.toNat]
  | .updop idx => [toString idx.toNat]
  | .keyon idx => [toString idx.toNat]
  | .keyoff idx => [toString idx.toNat]
  | .setfreq idx freq => [toString idx.toNat, toString freq.toNat]
  | .opset idx fsel val => [toString idx.toNat, opFieldText fsel, toString val.toNat]
  | .chset idx fsel val => [toString idx.toNat, chFieldText fsel, toString val.toNat]

/-- A line of assembly: the mnemonic, then the operands (30_encoding.md R110). -/
def assembly (i : Instr) : String :=
  match operandTexts i with
  | [] => i.row.mnemonic
  | l => i.row.mnemonic ++ " " ++ ", ".intercalate l

end Sys2Proof.Machine
end

