-- ==== Sys2Proof/Machine/Notes.lean ====
section
/-! DEFINITION. The Note Dispatcher at the boundary (45_note_dispatcher.md): two pseudo-commands that expand to core commands.
They have no opcode; a model of the core need not give them (00_scope.md R5). -/

namespace Sys2Proof.Machine

/-- An event of the excluded MIDI layer, with the channel the dispatcher has chosen (45_note_dispatcher.md R215). A note is any
natural number: the source gives it no range (R221; notes/assumptions/20.md). -/
inductive NoteEvent where
  | on (c : BitVec 6) (note vel : Nat)
  | off (c : BitVec 6) (note vel : Nat)
  deriving DecidableEq, Repr

/-! ## From a note to hertz -/

/-- The greatest whole number of hertz not above the pitch of note `n`, bit by bit: `h` and the `k` bits below it. -/
def climbToPitch (n : Nat) : Nat → Nat → Nat
  | 0, h => h
  | k + 1, h => climbToPitch n k (if hzScaled (h + 2 ^ k) ≤ pitchScaled n then h + 2 ^ k else h)

/-- `floor(F(n))` (45_note_dispatcher.md R216); `F(n) < 2^(n div 12 + 4)`. -/
def floorHz (n : Nat) : Nat := climbToPitch n (n / 12 + 4) 0

/-- `NOTE_TO_HZ(n)` of a configuration (00_scope.md R7, 45_note_dispatcher.md R217): its table's value, past the table the
floor (notes/assumptions/20.md). -/
def noteHz (p : Params) (n : Nat) : Nat := p.noteToHz.getD n (floorHz n)

/-! ## The two pseudo-commands -/

/-- What follows a command that has run to completion. -/
def andThen (o : Outcome) (next : State → Outcome) : Outcome :=
  match o with
  | .next s => next s
  | .fault r => .fault r
  | .refused r => .refused r

/-- Commands one after the other, each to completion (20_memory.md R74). -/
def execAll : List Instr → State → Outcome
  | [], s => .next s
  | i :: l, s => andThen (exec i s) (execAll l)

/-- The range fault of a number of hertz that has no 16-bit operand: the one its conversion finds (45_note_dispatcher.md R218,
R221), and `FrequencyRange` where the conversion itself would succeed, which a fast clock and a wide intermediate allow (DESIGN
CHOICE, notes/assumptions/20.md, unsafe). -/
def unencodableCause (p : Params) (hz : Nat) : Cause :=
  match convert p hz with
  | .error c => c
  | .ok _ => .frequencyRange

/-- `SETFREQ c, hz` for a number of hertz of any size (45_note_dispatcher.md R218). One that fits the operand is the command;
one of 2^16 or more has no command word: it raises its range fault in `SETFREQ`'s order of checks, with the largest operand
0xFFFF in the recorded word (DESIGN CHOICE, notes/assumptions/20.md, unsafe). -/
def sendFrequency (c : BitVec 6) (hz : Nat) (s : State) : Outcome :=
  if hz < 2 ^ 16 then exec (.setfreq c (BitVec.ofNat 16 hz)) s
  else
    runCommand (.setfreq c 0xFFFF) (fun s =>
      match chIndex c with
      | .error e => .error e
      | .ok _ => .error (unencodableCause s.cfg.toParams hz)) s

/-- `NOTEON` and `NOTEOFF` (45_note_dispatcher.md R218, R219) with the conversion of the configuration. `keyOn` is selector 2
(30_encoding.md R100); the velocity is carried and not used (R215). -/
def runNote : NoteEvent → State → Outcome
  | .on c note _, s => andThen (sendFrequency c (noteHz s.cfg.toParams note) s) (execAll [.chset c 2 1, .keyon c])
  | .off c _ _, s => execAll [.chset c 2 0, .keyoff c] s

end Sys2Proof.Machine
end

