-- ==== Sys2Proof/Machine/Observer.lean ====
section
/-! DEFINITION. What a claim observes (00_scope.md R9, 60_exceptions.md R245): the pin trace and the write log, the target
replayed from the pin trace alone, the bus timing contract as a monitor of the trace (40_bus_write.md R134), and what the
target's contents say of the hazards (70_reset_and_hazards.md R267 to R272). No step reads any of these. -/

namespace Sys2Proof.Machine

/-- The pin trace, oldest event first (00_scope.md R9). -/
def State.pinTrace (s : State) : List PinEvent := s.traceRev.reverse

/-- `WLOG`, oldest transaction first (10_state.md R33). -/
def State.writeLog (s : State) : List (Addr × Byte) := s.tgt.wlogRev.reverse

/-- The time a stretch of trace is sure to take: the sum of its delay requests (00_scope.md R10, 40_bus_write.md R136). -/
def requestedNs : List PinEvent → Nat
  | [] => 0
  | .set _ :: l => requestedNs l
  | .delay n :: l => n + requestedNs l

/-! ## Event lists, written out -/

/-- The five events of `Strobe()` (40_bus_write.md R133). -/
def strobeEvents (p : Params) : List PinEvent :=
  [.delay (p.kSafe * p.tDS), .set (.wr .low), .delay (p.kSafe * p.tWW), .set (.wr .high), .delay (p.kSafe * p.tDH)]

/-- The nineteen events of `BusWrite(a, d)` (40_bus_write.md R132, R136). -/
def transactionEvents (p : Params) (a : Addr) (d : Byte) : List PinEvent :=
  [.set (.mode .addr), .set (.bank (a.extractLsb' 8 1)), .delay (p.kSafe * p.tAS), .set (.cs .on),
   .set (.d (a.extractLsb' 0 8))]
  ++ strobeEvents p
  ++ [.set (.d d), .set (.mode .data), .delay (p.kSafe * p.tAS)]
  ++ strobeEvents p
  ++ [.set (.cs .off)]

/-- The events of `PinInit()`: five, or six with a reset line (41_reset_init.md R153). -/
def pinInitEvents (p : Params) : List PinEvent :=
  [.set (.wr .high), .set (.cs .off), .set (.mode .addr), .set (.bank 0), .set (.d 0)]
  ++ if p.hasResetLine then [.set (.rst .inactive)] else []

/-- The events of `HardwareResetPath()` (41_reset_init.md R155). -/
def resetPulseEvents (p : Params) : List PinEvent :=
  [.set (.rst .active), .delay (resetPulseNs p), .set (.rst .inactive)]

/-! ## The target replayed from the pin trace -/

/-- The target with the lines it sees, and whether a strobe pulse or a reset pulse is in progress. -/
structure Replay where
  pins      : Pins
  strobing  : Bool
  resetting : Bool
  tgt       : Target
  deriving DecidableEq, Repr

/-- The target's reaction to one event: the rising edge that ends a strobe pulse (40_bus_write.md R139), the release that
ends a reset pulse (41_reset_init.md R156). -/
def replayEvent (aExt : Addr) (v : Replay) : PinEvent → Replay
  | .delay _ => v
  | .set (.wr .low) => { v with pins := v.pins.drive (.wr .low), strobing := true }
  | .set (.wr .high) =>
    let pins := v.pins.drive (.wr .high)
    { v with pins := pins, strobing := false, tgt := if v.strobing then v.tgt.pulse aExt pins else v.tgt }
  | .set (.rst .active) => { v with pins := v.pins.drive (.rst .active), resetting := true }
  | .set (.rst .inactive) =>
    { v with
      pins := v.pins.drive (.rst .inactive)
      resetting := false
      tgt := if v.resetting then v.tgt.hardwareReset else v.tgt }
  | .set (.mode x) => { v with pins := v.pins.drive (.mode x) }
  | .set (.bank x) => { v with pins := v.pins.drive (.bank x) }
  | .set (.cs x) => { v with pins := v.pins.drive (.cs x) }
  | .set (.d x) => { v with pins := v.pins.drive (.d x) }

/-- The target a stretch of trace leaves. -/
def replay (aExt : Addr) (l : List PinEvent) (v : Replay) : Replay := l.foldl (replayEvent aExt) v

/-- The target as it is at power-on. -/
def Replay.start : Replay := ⟨Pins.reset, false, false, Target.reset⟩

/-- A state's pins and target, no pulse in progress. -/
def State.view (s : State) : Replay := ⟨s.pins, false, false, s.tgt⟩

/-! ## The bus timing contract -/

/-- Requested nanoseconds since the last `Set` of `MODE` or `BANK`, since the last `Set` of `D`, since the last rise of `WR`,
how long `WR` has been low (`none` while high), and whether every demand so far was met. -/
structure TimingMonitor where
  sinceSelect : Nat
  sinceData   : Nat
  sinceRise   : Nat
  lowFor      : Option Nat
  met         : Bool
  deriving DecidableEq, Repr

/-- `D`, `MODE`, `BANK` and `CS` may change: the strobe is high and the hold time over (40_bus_write.md R134 (d), R133). -/
def TimingMonitor.mayChange (p : Params) (m : TimingMonitor) : Bool :=
  m.lowFor.isNone && decide (p.kSafe * p.tDH ≤ m.sinceRise)

/-- One event against the contract of 40_bus_write.md R134: (a) setup of `MODE` and `BANK`, with the strobe's own setup delay,
(b) setup of `D`, (c) pulse width, (d) hold. -/
def TimingMonitor.event (p : Params) (m : TimingMonitor) : PinEvent → TimingMonitor
  | .delay n =>
    { m with
      sinceSelect := m.sinceSelect + n
      sinceData := m.sinceData + n
      sinceRise := m.sinceRise + n
      lowFor := m.lowFor.map (· + n) }
  | .set (.mode _) => { m with sinceSelect := 0, met := m.met && m.mayChange p }
  | .set (.bank _) => { m with sinceSelect := 0, met := m.met && m.mayChange p }
  | .set (.cs _) => { m with met := m.met && m.mayChange p }
  | .set (.d _) => { m with sinceData := 0, met := m.met && m.mayChange p }
  | .set (.rst _) => m
  | .set (.wr .low) =>
    { m with
      lowFor := some 0
      met := m.met && decide (p.kSafe * (p.tAS + p.tDS) ≤ m.sinceSelect) &&
        decide (p.kSafe * p.tDS ≤ m.sinceData) }
  | .set (.wr .high) =>
    match m.lowFor with
    | none => m
    | some n => { m with lowFor := none, sinceRise := 0, met := m.met && decide (p.kSafe * p.tWW ≤ n) }

/-- The monitor over a stretch of trace. -/
def monitor (p : Params) (l : List PinEvent) (m : TimingMonitor) : TimingMonitor := l.foldl (TimingMonitor.event p) m

/-- The monitor before the first event: the strobe high, no hold time running. -/
def TimingMonitor.start (p : Params) : TimingMonitor := ⟨0, 0, p.kSafe * p.tDH, none, true⟩

/-! ## What the target's contents say -/

/-- The target's key-on bit of channel `i`: bit 5 of its FHI register, where known (30_encoding.md R104, 10_state.md R37). -/
def State.keyedOn (s : State) (i : Fin 18) : Option Bool :=
  (s.tgt.shadow.read (registerAddress s.cfg.baseFhi (channelOffset i))).map (·.getLsbD 5)

/-- Between two states the key-on bit of channel `i` rises, which restarts the envelope (70_reset_and_hazards.md R269). -/
def keyOnEdge (i : Fin 18) (s t : State) : Bool := s.keyedOn i == some false && t.keyedOn i == some true

/-- The waveform-select enable is known to be set in the target (70_reset_and_hazards.md R271, 30_encoding.md R106). -/
def State.waveSelectOn (s : State) : Bool :=
  (s.tgt.shadow.read s.cfg.aWse).any fun v => v &&& s.cfg.vWse == s.cfg.vWse

/-- The target's registers of operator `i` hold what the file says (70_reset_and_hazards.md R272). -/
def State.opInTarget (s : State) (i : Fin 36) : Bool :=
  (updopWrites s.cfg.toParams i (s.op i)).all fun x => s.tgt.shadow.read x.1 == some x.2

/-- The target's registers of channel `i` hold what the file says (70_reset_and_hazards.md R272). -/
def State.chInTarget (s : State) (i : Fin 18) : Bool :=
  let off := channelOffset i
  s.tgt.shadow.read (registerAddress s.cfg.baseFlo off) == some (packFlo (s.ch i)) &&
  s.tgt.shadow.read (registerAddress s.cfg.baseFbc off) == some (packFbc (s.ch i)) &&
  s.tgt.shadow.read (registerAddress s.cfg.baseFhi off) == some (packFhi (s.ch i) (s.ch i).keyOn)

end Sys2Proof.Machine
end

