-- ==== Sys2Proof/Safety.lean ====
section
/-! DEFINITION. The terms claims use: the invariant of the machine, the frames, the fault causes of a command, and what a safe
run keeps. -/

namespace Sys2Proof.Machine

/-! ## Words that are no command -/

/-- The reserved bits of the format an opcode has (30_encoding.md R91, R93 to R97). -/
def reservedBits (opc : Nat) : CmdWord :=
  if opc ≤ 2 then 0x0FFFFFFF else if opc = 3 then 0x0FFE0000 else if opc ≤ 8 then 0x0FFFFFC0
  else if opc = 9 then 0x0FC00000 else 0x0FC00C00

/-- The word is illegal (30_encoding.md R107): (a) a reserved opcode, (b) a reserved bit of its format set, (c) `OPSET` with
`fsel` ≥ 12 or `CHSET` with `fsel` ≥ 9. -/
def IllegalWord (w : CmdWord) : Prop :=
  let opc := w.toNat / 2 ^ 28
  let fsel := w.toNat / 2 ^ 12 % 16
  (opc = 0 ∨ 0xC ≤ opc) ∨ w &&& reservedBits opc ≠ 0 ∨ (opc = 0xA ∧ 12 ≤ fsel) ∨ (opc = 0xB ∧ 9 ≤ fsel)

/-! ## Frames: what stays -/

/-- The configuration and the host's inputs stay. -/
def SameInputs (s t : State) : Prop := t.cfg = s.cfg ∧ t.host = s.host

/-- Both parameter files stay. -/
def SameFiles (s t : State) : Prop := t.ops = s.ops ∧ t.chs = s.chs

/-- Every flag and status register but `RES` stays (10_state.md R29). -/
def SameFlags (s t : State) : Prop :=
  t.begun = s.begun ∧ t.fault = s.fault ∧ t.faultCode = s.faultCode ∧ t.faultInfo = s.faultInfo ∧ t.busy = s.busy

/-- Nothing happens on the bus: no pin, no event, no transaction, every location of the target as it was. -/
def SameBus (s t : State) : Prop :=
  t.seq = s.seq ∧ t.pins = s.pins ∧ t.pinTrace = s.pinTrace ∧ t.writeLog = s.writeLog ∧ t.tgt.addr = s.tgt.addr ∧
  t.tgt.ext = s.tgt.ext ∧ ∀ a : Addr, t.tgt.shadow.read a = s.tgt.shadow.read a

/-- The pins as the transaction `(a, d)` leaves them (10_state.md R31, 40_bus_write.md R138); `RST` stays. -/
def PinsAfter (a : Addr) (d : Byte) (p q : Pins) : Prop :=
  q.mode = .data ∧ q.bank = a.extractLsb' 8 1 ∧ q.cs = .off ∧ q.wr = .high ∧ q.d = d ∧ q.rst = p.rst

/-- What a location `b` holds after the transactions `l` in order, from content `v` and extended mode `e` (20_memory.md R66):
a write to bank 0, to `A_EXT`, or with extended mode on stores the byte, any other leaves `unknown`. -/
def contentAfter (aExt b : Addr) : List (Addr × Byte) → Option Byte → Option Bool → Option Byte
  | [], v, _ => v
  | (a, d) :: l, v, e =>
    contentAfter aExt b l
      (if a = b then (if b.getLsbD 8 = false ∨ b = aExt ∨ e = some true then some d else none) else v)
      (if a = aExt then some (d.getLsbD 0) else e)

/-- The transactions `l` were issued in that order and nothing else was: events, write log, and the target's registers as
`l` in order leaves them (20_memory.md R66, R74). `l` is not empty. -/
structure Issued (l : List (Addr × Byte)) (s t : State) : Prop where
  trace : t.pinTrace = s.pinTrace ++ l.flatMap fun x => transactionEvents s.cfg.toParams x.1 x.2
  log : t.writeLog = s.writeLog ++ l
  pins : ∃ x ∈ l.getLast?, PinsAfter x.1 x.2 s.pins t.pins ∧ t.tgt.addr = some x.1
  seq : t.seq = Seq.idle
  /-- Every location holds what the transactions make of it. -/
  contents : ∀ b : Addr, t.tgt.shadow.read b = contentAfter s.cfg.aExt b l (s.tgt.shadow.read b) s.tgt.ext
  /-- Every location outside `l` reads as before. -/
  outside : ∀ b : Addr, (∀ x ∈ l, x.1 ≠ b) → t.tgt.shadow.read b = s.tgt.shadow.read b
  /-- Extended mode is what the last write to `A_EXT` says, else as before. -/
  ext : t.tgt.ext = l.foldl (fun e x => if x.1 = s.cfg.aExt then some (x.2.getLsbD 0) else e) s.tgt.ext

/-- The transactions of the reset sequence (41_reset_init.md R154, R157, R159). -/
def resetWrites (p : Params) : List (Addr × Byte) :=
  (if p.hasResetLine then [] else softwareWipe p) ++ [(p.aWse, p.vWse), (p.aNts, p.vNts), (p.aExt, p.vExt)]

/-- What `BEGIN` and `RESET` leave (41_reset_init.md R154 to R159, 70_reset_and_hazards.md R261), after the events `first` of
`BEGIN`'s pin initialisation. -/
structure ResetDone (first : List PinEvent) (s t : State) : Prop where
  ops : ∀ i, t.op i = s.cfg.opDefault
  chs : ∀ i, t.ch i = s.cfg.chDefault
  trace : t.pinTrace = s.pinTrace ++ first ++ (if s.cfg.hasResetLine then resetPulseEvents s.cfg.toParams else []) ++
    (resetWrites s.cfg.toParams).flatMap fun x => transactionEvents s.cfg.toParams x.1 x.2
  log : t.writeLog = s.writeLog ++ resetWrites s.cfg.toParams
  /-- The pulse clears every register; the transactions then do what R66 says. -/
  contents : ∀ b : Addr, t.tgt.shadow.read b =
    if s.cfg.hasResetLine then contentAfter s.cfg.aExt b (resetWrites s.cfg.toParams) (some 0) (some false)
    else contentAfter s.cfg.aExt b (resetWrites s.cfg.toParams) (s.tgt.shadow.read b) s.tgt.ext
  addr : t.tgt.addr = some s.cfg.aExt
  ext : t.tgt.ext = some true
  pins : t.pins.mode = .data ∧ t.pins.bank = 1 ∧ t.pins.cs = .off ∧ t.pins.wr = .high ∧ t.pins.d = s.cfg.vExt ∧
    t.pins.rst = if s.cfg.hasResetLine then .inactive else s.pins.rst
  seq : t.seq = Seq.idle

/-! ## The faults of a command -/

/-- The index operand is above the largest legal one. -/
def indexAbove (last : Nat) (idx : BitVec 6) : Bool := last < idx.toNat

/-- The cause of the command's own checks, in their order (60_exceptions.md R231, R232 step 4); a block counter that ends
above 7 means `f` was at least 2^17 (44_frequency.md R201, R206). -/
def ownCause (p : Params) : Instr → Option Cause
  | .begin => none
  | .reset => none
  | .write _ _ => none
  | .opoff idx => if indexAbove 35 idx then some .operatorIndexRange else none
  | .choff idx => if indexAbove 17 idx then some .channelIndexRange else none
  | .updop idx => if indexAbove 35 idx then some .operatorIndexRange else none
  | .keyon idx => if indexAbove 17 idx then some .channelIndexRange else none
  | .keyoff idx => if indexAbove 17 idx then some .channelIndexRange else none
  | .setfreq idx freq =>
    if indexAbove 17 idx then some .channelIndexRange
    else if 2 ^ (p.wInt - 20) ≤ freq.toNat then some .frequencyRange
    else if 2 ^ 17 ≤ freq.toNat * 2 ^ 20 / (p.clockHz / 288) then some .blockRange
    else none
  | .opset idx _ _ => if indexAbove 35 idx then some .operatorIndexRange else none
  | .chset idx _ _ => if indexAbove 17 idx then some .channelIndexRange else none

/-- The one cause a command reports, the first in the order of 60_exceptions.md R232 steps 2 to 4. -/
def faultCause (i : Instr) (s : State) : Option Cause :=
  if !i.wellFormed then some .illegalCommand
  else if !s.begun && i != .begin then some .notBegun
  else ownCause s.cfg.toParams i

/-- The command is admitted: no fault is pending and `BEGIN` has completed (60_exceptions.md R232). -/
def State.ready (s : State) : Prop := s.fault = false ∧ s.begun = true

/-! ## How much a command does on the bus -/

/-- The addresses of the primary wipe, `n0` (41_reset_init.md R160). -/
def wipe0Count (p : Params) : Nat := p.wipe0Hi.toNat - p.wipe0Lo.toNat + 1

/-- The addresses of the extended wipe, `n1` (41_reset_init.md R160). -/
def wipe1Count (p : Params) : Nat := p.wipe1Hi.toNat - p.wipe1Lo.toNat + 1

/-- Transactions per command (70_reset_and_hazards.md R275). -/
def transactionCount (p : Params) : Instr → Nat
  | .begin => if p.hasResetLine then 3 else wipe0Count p + wipe1Count p + 6
  | .reset => if p.hasResetLine then 3 else wipe0Count p + wipe1Count p + 6
  | .write _ _ => 1
  | .opoff _ => 0
  | .choff _ => 0
  | .updop _ => 5
  | .keyon _ => 3
  | .keyoff _ => 1
  | .setfreq _ _ => 0
  | .opset _ _ _ => 0
  | .chset _ _ _ => 0

/-- Pin events beside the 19 of each transaction (70_reset_and_hazards.md R275). -/
def extraEvents (p : Params) : Instr → Nat
  | .begin => if p.hasResetLine then 9 else 5
  | .reset => if p.hasResetLine then 3 else 0
  | .write _ _ => 0
  | .opoff _ => 0
  | .choff _ => 0
  | .updop _ => 0
  | .keyon _ => 0
  | .keyoff _ => 0
  | .setfreq _ _ => 0
  | .opset _ _ _ => 0
  | .chset _ _ _ => 0

/-- The transactions a command issues, in order (20_memory.md R61, R74): none while faulted or when it faults. -/
def issuedBy (i : Instr) (s : State) : List (Addr × Byte) :=
  if s.fault || (faultCause i s).isSome then []
  else
    match i with
    | .begin => resetWrites s.cfg.toParams
    | .reset => resetWrites s.cfg.toParams
    | .write addr data => [(addr, data)]
    | .opoff _ => []
    | .choff _ => []
    | .updop idx => if h : idx.toNat < 36 then updopWrites s.cfg.toParams ⟨idx.toNat, h⟩ (s.op ⟨idx.toNat, h⟩) else []
    | .keyon idx => if h : idx.toNat < 18 then keyonWrites s.cfg.toParams ⟨idx.toNat, h⟩ (s.ch ⟨idx.toNat, h⟩) else []
    | .keyoff idx => if h : idx.toNat < 18 then keyoffWrites s.cfg.toParams ⟨idx.toNat, h⟩ (s.ch ⟨idx.toNat, h⟩) else []
    | .setfreq _ _ => []
    | .opset _ _ _ => []
    | .chset _ _ _ => []

/-- The hardware reset path where there is a reset line (41_reset_init.md R154). -/
def resetLead (s : State) : State := if s.cfg.hasResetLine then hardwareResetPath s else s

/-- The bus as a command's first transaction finds it: after the pin initialisation and the hardware reset path of `BEGIN`, the
hardware reset path of `RESET`, and as it was for every other command (41_reset_init.md R151, R152, R154). -/
def busLead : Instr → State → State
  | .begin, s => resetLead (pinInit s)
  | .reset, s => resetLead s
  | .write _ _, s => s
  | .opoff _, s => s
  | .choff _, s => s
  | .updop _, s => s
  | .keyon _, s => s
  | .keyoff _, s => s
  | .setfreq _ _, s => s
  | .opset _ _ _, s => s
  | .chset _ _ _, s => s

/-! ## The invariant -/

/-- The five mode registers the spec names are five registers, the two of bank 0 in bank 0. The parameter constraints do not
say so (notes/assumptions/14.md, safe): a claim that needs it takes it as a premise. -/
def modesApart (p : Params) : Prop :=
  [p.aWse, p.aNts, p.aExt, p.aExtMode, p.aTest1].Pairwise (· ≠ ·) ∧ p.aWse.getLsbD 8 = false ∧
  p.aNts.getLsbD 8 = false

/-- What holds of every state between commands. -/
structure State.Inv (s : State) : Prop where
  /-- The target's contents are in canonical form. -/
  memory : s.tgt.shadow.wf
  /-- Between commands the core is ready and no transaction is in progress (10_state.md R26, R29). -/
  idle : s.busy = false ∧ s.seq = Seq.idle
  /-- No fault, no code and no word (60_exceptions.md R231). -/
  noFault : s.fault = false → s.faultCode = 0 ∧ s.faultInfo = 0
  /-- A fault has one of the six codes (60_exceptions.md R231). -/
  faultCode : s.fault = true → 1 ≤ s.faultCode.toNat ∧ s.faultCode.toNat ≤ 6
  /-- Before `BEGIN` nothing has reached the bus (10_state.md R38, 60_exceptions.md R232). -/
  beforeBegin : s.begun = false → s.traceRev = [] ∧ s.tgt = Target.reset
  /-- After `BEGIN` the bus is idle (40_bus_write.md R138) and the target's extended mode is known. -/
  busIdle : s.begun = true → s.pins.cs = .off ∧ s.pins.wr = .high ∧
    (s.cfg.hasResetLine = true → s.pins.rst = .inactive) ∧ s.tgt.ext ≠ none
  /-- After `BEGIN` the latches and `T_ADDR` are as the last transaction left them (10_state.md R31, 40_bus_write.md R138,
  R140). -/
  lastWrite : s.begun = true → ∃ a d, s.tgt.wlogRev.head? = some (a, d) ∧ s.tgt.addr = some a ∧
    s.pins.mode = .data ∧ s.pins.bank = a.extractLsb' 8 1 ∧ s.pins.d = d

/-- The pins and the target are what the pin trace since power-on makes of them: `WLOG` is a function of the trace
(00_scope.md R9, 40_bus_write.md R139). -/
def State.traceExplains (s : State) : Prop := replay s.cfg.aExt s.pinTrace Replay.start = s.view

/-- The whole pin trace meets the bus timing contract, and the strobe is high with its hold time over (40_bus_write.md
R134). -/
def State.timingMet (s : State) : Prop :=
  let m := monitor s.cfg.toParams s.pinTrace (TimingMonitor.start s.cfg.toParams)
  m.met = true ∧ m.lowFor = none ∧ s.cfg.kSafe * s.cfg.tDH ≤ m.sinceRise

/-- The host does not press `por` among its coming inputs. -/
def State.noPor (s : State) : Prop := HostInput.por ∉ s.host

end Sys2Proof.Machine
end

