-- ==== Sys2Proof/Certificates/Slice0/Obligations.lean ====
section
/-! DEFINITION. The statements about the machine. Each docstring names the rules of spec/ it rests on. Hypotheses are on the
state and the operands alone; witnesses stand in Sys2Proof/Tests/Slice0.lean. -/

open Sys2Proof Sys2Proof.Machine

/-! ## Encoding -/

/-- 30_encoding.md R93 to R97, R109: no bit of an operand is lost. -/
def Obligations.DecodeUndoesEncode : Prop :=
  ∀ i : Instr, i.wellFormed = true → decode (encode i) = .ok i

/-- 30_encoding.md R91, R107 (decision D2): reserved bits fault, so no two words mean the same command. -/
def Obligations.EveryCommandHasOneWord : Prop :=
  ∀ (w : CmdWord) (i : Instr), decode w = .ok i → i.wellFormed = true ∧ encode i = w

/-- 30_encoding.md R109: a word decodes to a command of a row exactly when the row's mask and match fit it and, in format S,
its selector is assigned; and at most one row fits. -/
def Obligations.DecodeFollowsTheTable : Prop :=
  (∀ (w : CmdWord), ∀ r ∈ opcodeTable,
    (∃ i, decode w = .ok i ∧ i.row = r) ↔
      w &&& r.mask = r.bits ∧ (r.mnemonic = "OPSET" → w.toNat / 2 ^ 12 % 16 ≤ 11) ∧
        (r.mnemonic = "CHSET" → w.toNat / 2 ^ 12 % 16 ≤ 8)) ∧
  ∀ w : CmdWord, ∀ r ∈ opcodeTable, ∀ r' ∈ opcodeTable, w &&& r.mask = r.bits → w &&& r'.mask = r'.bits → r = r'

/-- The accepted encodings of 95_test_vectors.md V-DECODE, one of every command. -/
def Obligations.SpecWordsDecode : Prop :=
  decode 0x10000000 = .ok .begin ∧ decode 0x20000000 = .ok .reset ∧
  decode 0x3001B32A = .ok (.write 0x1B3 0x2A) ∧ decode 0x40000018 = .ok (.opoff 24) ∧
  decode 0x5000000C = .ok (.choff 12) ∧ decode 0x60000018 = .ok (.updop 24) ∧ decode 0x7000000C = .ok (.keyon 12) ∧
  decode 0x8000000C = .ok (.keyoff 12) ∧ decode 0x900C0106 = .ok (.setfreq 12 262) ∧
  decode 0xA018B002 = .ok (.opset 24 11 2) ∧ decode 0xB00C3004 = .ok (.chset 12 3 4)

/-! ## A step -/

/-- 30_encoding.md R90: the core ready and the host presenting a word that decodes to `i`, a step accepts the word, runs `i`,
and shows `cmd_ready` again with no transaction in progress. -/
def Obligations.StepRunsTheDecodedCommand : Prop :=
  ∀ (s : State) (cw : CmdWord) (rest : List HostInput) (i : Instr),
    s.host = .command cw :: rest → s.busy = false → decode cw = .ok i →
    ∃ t, exec i { s with host := rest, busy := true } = .next t ∧
      step s = .next { t with busy := false, seq := Seq.idle }

/-- 30_encoding.md R107: a word does not decode exactly when it is illegal, and an illegal word raises `IllegalCommand` and does
nothing else; the all-zero and the all-ones word are illegal. -/
def Obligations.IllegalWordsRaiseIllegalCommand : Prop :=
  (∀ w : CmdWord, IllegalWord w ↔ ¬ ∃ i, decode w = .ok i) ∧ IllegalWord 0 ∧ IllegalWord 0xFFFFFFFF ∧
  ∀ (s : State) (cw : CmdWord) (rest : List HostInput),
    s.host = .command cw :: rest → s.busy = false → s.seq = Seq.idle → s.fault = false → IllegalWord cw →
    step s = .next { s with host := rest, fault := true, faultCode := 1, faultInfo := cw }

/-- 30_encoding.md R90, 70_reset_and_hazards.md R262, 60_exceptions.md R246: with nothing presented the core idles; a word
presented while it is busy has no effect. That a step then leaves the whole state is the model's choice (log 6, log 8). -/
def Obligations.IdleAndBusyStepsChangeNothing : Prop :=
  (∀ s : State, s.host = [] → step s = .next s) ∧
  ∀ (s : State) (cw : CmdWord) (rest : List HostInput), s.host = .command cw :: rest → s.busy = true → step s = .next s

/-- 10_state.md R38, 70_reset_and_hazards.md R260: `por` clears the flags, empties `WLOG` and the pin trace, and leaves every
location of the target, `T_ADDR` and `T_EXT` unknown. The values of the other registers are the model's choice (log 3, log 4)
and are not stated. -/
def Obligations.PowerOnInputClearsTheFlags : Prop :=
  ∀ (s : State) (rest : List HostInput), s.host = .por :: rest →
    ∃ t, step s = .next t ∧ t.host = rest ∧ t.cfg = s.cfg ∧ t.begun = false ∧ t.fault = false ∧ t.faultCode = 0 ∧
      t.faultInfo = 0 ∧ t.busy = false ∧ t.seq = ⟨0, 0⟩ ∧ t.writeLog = [] ∧ t.pinTrace = [] ∧
      (∀ a : Addr, t.tgt.shadow.read a = none) ∧ t.tgt.addr = none ∧ t.tgt.ext = none

/-- 60_exceptions.md R241, 40_bus_write.md R137: every command runs to completion; no step stops the machine. -/
def Obligations.EveryCommandTerminates : Prop :=
  (∀ (i : Instr) (s : State), ∃ t, exec i s = .next t) ∧ ∀ s : State, ∃ t, step s = .next t

/-! ## Faults -/

/-- 60_exceptions.md R234: a faulting command emits no pin event, issues no transaction, and changes no state other than the
fault registers. -/
def Obligations.FaultsArePrecise : Prop :=
  ∀ (i : Instr) (s t : State), exec i s = .next t → s.fault = false → t.fault = true →
    ∃ c : Cause, t = { s with fault := true, faultCode := c.code, faultInfo := encode i }

/-- 60_exceptions.md R232 (with the causes and codes of R231): an admitted command reports exactly one cause, the first in the
order of checks, or none and runs. -/
def Obligations.OneCauseInTheOrderOfChecks : Prop :=
  ∀ (i : Instr) (s : State),
    (s.fault = true → exec i s = .next s) ∧
    (s.fault = false →
      (∀ c, faultCause i s = some c →
        exec i s = .next { s with fault := true, faultCode := c.code, faultInfo := encode i }) ∧
      (faultCause i s = none → ∃ t, exec i s = .next t ∧ t.fault = false ∧ t.faultCode = s.faultCode ∧
        t.faultInfo = s.faultInfo))

/-- 60_exceptions.md R237 (and R238): while `FAULT = 1` every word of a run of any length is ignored, `BEGIN` included: no
effect on any state, no pin event, the first cause kept, `WLOG` never grows; only `por` clears it. -/
def Obligations.TheFaultStateIsTerminal : Prop :=
  (∀ (n : Nat) (s : State), s.fault = true → s.noPor → s.seq = Seq.idle →
    ∃ rest, core.run n s = .next { s with host := rest }) ∧
  (∀ (i : Instr) (s : State), s.fault = true → exec i s = .next s) ∧
  ∀ (s t : State), s.fault = true → step s = .next t → t.fault = false → ∃ rest, s.host = .por :: rest

/-- 60_exceptions.md R231 rows 3 and 4, R235: an index outside its range is never a value. -/
def Obligations.IndexOutOfRangeFaults : Prop :=
  ∀ (s : State) (idx : BitVec 6) (fsel : BitVec 4) (val : BitVec 10) (freq : BitVec 16), s.ready →
    (35 < idx.toNat →
      (∀ i ∈ [Instr.opoff idx, .updop idx],
        exec i s = .next { s with fault := true, faultCode := 3, faultInfo := encode i }) ∧
      (fsel.toNat ≤ 11 → exec (.opset idx fsel val) s =
        .next { s with fault := true, faultCode := 3, faultInfo := encode (.opset idx fsel val) })) ∧
    (17 < idx.toNat →
      (∀ i ∈ [Instr.choff idx, .keyon idx, .keyoff idx, .setfreq idx freq],
        exec i s = .next { s with fault := true, faultCode := 4, faultInfo := encode i }) ∧
      (fsel.toNat ≤ 8 → exec (.chset idx fsel val) s =
        .next { s with fault := true, faultCode := 4, faultInfo := encode (.chset idx fsel val) }))

/-- 70_reset_and_hazards.md R262, 60_exceptions.md R232 step 3: after power-on `cmd_ready = 1` and the only command admitted is
`BEGIN`; every other raises `NotBegun` (code 2). -/
def Obligations.OnlyBeginIsAdmittedAfterPowerOn : Prop :=
  ∀ (cfg : Config) (host : List HostInput) (i : Instr),
    (State.powerOn cfg host).portOutputs.cmdReady = true ∧
    (i.wellFormed = true → i ≠ .begin → exec i (State.powerOn cfg host) =
      .next { State.powerOn cfg host with fault := true, faultCode := 2, faultInfo := encode i }) ∧
    ∃ t, exec .begin (State.powerOn cfg host) = .next t ∧ t.begun = true ∧ t.fault = false

/-! ## The register bus driver -/

/-- 40_bus_write.md R140: from any pin state with `T_ADDR` arbitrary the target performs exactly one register write `(a, d)`,
with the effect of 20_memory.md R66, and `T_ADDR = a`. -/
def Obligations.BusWriteIsOneRegisterWrite : Prop :=
  ∀ (w : Nat) (a : Addr) (d : Byte) (s : State),
    (busWrite w a d s).writeLog = s.writeLog ++ [(a, d)] ∧ (busWrite w a d s).tgt.addr = some a ∧
    (∀ b, (busWrite w a d s).tgt.shadow.read b =
      if b = a then (if a.getLsbD 8 = false ∨ a = s.cfg.aExt ∨ s.tgt.ext = some true then some d else none)
      else s.tgt.shadow.read b) ∧
    (busWrite w a d s).tgt.ext = if a = s.cfg.aExt then some (d.getLsbD 0) else s.tgt.ext

/-- 40_bus_write.md R136 (the events of R132 and R133): a transaction emits exactly 19 events, 5 of them in each strobe, and takes at least
`K_SAFE·(2·T_AS + 2·(T_DS + T_WW + T_DH))` nanoseconds; the pins are left as R138 says. -/
def Obligations.BusWriteEmitsNineteenEvents : Prop :=
  ∀ (w : Nat) (a : Addr) (d : Byte) (s : State),
    (busWrite w a d s).pinTrace = s.pinTrace ++ transactionEvents s.cfg.toParams a d ∧
    (transactionEvents s.cfg.toParams a d).length = 19 ∧
    requestedNs (transactionEvents s.cfg.toParams a d) =
      s.cfg.kSafe * (2 * s.cfg.tAS + 2 * (s.cfg.tDS + s.cfg.tWW + s.cfg.tDH)) ∧
    (strobeEvents s.cfg.toParams).length = 5 ∧
    PinsAfter a d s.pins (busWrite w a d s).pins

/-- 10_state.md R26, R27: within a transaction the steps are 1 to 11 in order. Through a command's list of transactions, step `n`
of transaction `j` is the step number `11 j + n`: after it the position is `(j, n)`, and it acts on what the step before left, be
that of the same transaction or the last of the one before. After the last step the position is `(0, 0)`. Every command that finds
no cause leaves the bus as exactly its list of transactions does, from the bus as it found it, or, for `BEGIN` and `RESET`, from the
bus after the pin initialisation and the hardware reset path. -/
def Obligations.SequencerStepsInOrder : Prop :=
  (∀ (w : Nat) (a : Addr) (d : Byte) (s : State) (k : Nat), 1 ≤ k → k ≤ 11 →
    (busSteps w a d k s).seq = ⟨w, k⟩ ∧
    busSteps w a d k s = busAction a d k { busSteps w a d (k - 1) s with seq := ⟨w, k⟩ }) ∧
  (∀ (l : List (Addr × Byte)) (s : State),
    busProgress l 0 s = s ∧
    (∀ (j : Nat) (h : j < l.length) (n : Nat), 1 ≤ n → n ≤ 11 →
      (busProgress l (11 * j + n) s).seq = ⟨j, n⟩ ∧
      busProgress l (11 * j + n) s =
        busAction l[j].1 l[j].2 n { busProgress l (11 * j + n - 1) s with seq := ⟨j, n⟩ }) ∧
    busWrites l s = { busProgress l (11 * l.length) s with seq := ⟨0, 0⟩ }) ∧
  ∀ (i : Instr) (s t : State), s.seq = ⟨0, 0⟩ → s.fault = false → faultCause i s = none → exec i s = .next t →
    SameBus (busWrites (issuedBy i s) (busLead i s)) t

/-- 40_bus_write.md R131: `WRITE` completes with one transaction and changes nothing of the core's registers. -/
def Obligations.WriteIssuesOneTransaction : Prop :=
  ∀ (s : State) (addr : Addr) (data : Byte), s.ready →
    ∃ t, exec (.write addr data) s = .next t ∧ Issued [(addr, data)] s t ∧ SameFiles s t ∧ SameFlags s t ∧
      SameInputs s t ∧ t.res = s.res

/-- 00_scope.md R9, 40_bus_write.md R139, 41_reset_init.md R156: the write log, the target's contents, its latch and its extended
mode are a function of the pin trace, kept by every step. Three parts of the replay are the model's and not the spec's: it starts
on the pins of log 4, so the case of `por` holds by that choice; it takes a rise of `WR` as the target's only at the end of a strobe
pulse (log 9); and it takes the reset pulse's effect at the release of `RST` (log 24). -/
def Obligations.ThePinTraceExplainsTheTarget : Prop :=
  ∀ s t : State, s.traceExplains → step s = .next t → t.traceExplains

/-- 40_bus_write.md R134 says what a transaction guarantees; this says that every step keeps that contract on the whole pin trace
since power-on. The trace's start, the strobe high and no hold time running, is the model's choice (log 4), and the times compared
are requested delays (log 18). -/
def Obligations.StepsMeetTheTimingContract : Prop :=
  ∀ s t : State, s.timingMet → step s = .next t → t.timingMet

/-! ## The reset/init sequencer -/

/-- 41_reset_init.md R151, R153 to R159: `BEGIN` completes from any state without a fault pending, before or after an earlier
`BEGIN`. -/
def Obligations.BeginCompletes : Prop :=
  ∀ s : State, s.fault = false →
    ∃ t, exec .begin s = .next t ∧ t.begun = true ∧ ResetDone (pinInitEvents s.cfg.toParams) s t ∧ SameInputs s t ∧
      t.res = s.res ∧ t.fault = false ∧ t.faultCode = s.faultCode ∧ t.faultInfo = s.faultInfo ∧ t.busy = s.busy

/-- 41_reset_init.md R152, R154 to R159: `RESET` is the same without the pin initialisation. -/
def Obligations.ResetCompletes : Prop :=
  ∀ s : State, s.ready →
    ∃ t, exec .reset s = .next t ∧ ResetDone [] s t ∧ SameFlags s t ∧ SameInputs s t ∧ t.res = s.res

/-- 41_reset_init.md R157: the software wipe's transactions one by one: the primary range ascending, the three explicit
writes, the extended range ascending. -/
def Obligations.SoftwareWipeInOrder : Prop :=
  ∀ c : Config,
    (softwareWipe c.toParams).length = wipe0Count c.toParams + 3 + wipe1Count c.toParams ∧
    (∀ k, k < wipe0Count c.toParams →
      ∃ a : Addr, a.toNat = c.wipe0Lo.toNat + k ∧ (softwareWipe c.toParams)[k]? = some (a, 0)) ∧
    (softwareWipe c.toParams)[wipe0Count c.toParams]? = some (c.aExt, c.vExt) ∧
    (softwareWipe c.toParams)[wipe0Count c.toParams + 1]? = some (c.aExtMode, 0) ∧
    (softwareWipe c.toParams)[wipe0Count c.toParams + 2]? = some (c.aTest1, 0) ∧
    ∀ k, k < wipe1Count c.toParams →
      ∃ a : Addr, a.toNat = c.wipe1Lo.toNat + k ∧
        (softwareWipe c.toParams)[wipe0Count c.toParams + 3 + k]? = some (a, 0)

/-- 41_reset_init.md R158 (a): every address of the two wipe ranges receives exactly one write of the wipe, a zero. -/
def Obligations.WipeWritesEachAddressOnce : Prop :=
  ∀ (c : Config) (a : Addr),
    (c.wipe0Lo.toNat ≤ a.toNat ∧ a.toNat ≤ c.wipe0Hi.toNat) ∨ (c.wipe1Lo ≤ a ∧ a ≤ c.wipe1Hi) →
    (softwareWipe c.toParams).filter (fun x => x.1 == a) = [(a, 0)]

/-- 70_reset_and_hazards.md R261, R271, 41_reset_init.md R156, R158: the target after `RESET`, for mode registers that are five
registers, the first two in bank 0 (a premise the constraints of 00_scope.md R7 do not give: log 14). -/
def Obligations.TargetAfterReset : Prop :=
  ∀ (s t : State) (a : Addr), s.ready → modesApart s.cfg.toParams → exec .reset s = .next t →
    t.waveSelectOn = true ∧
    (a = s.cfg.aWse → t.tgt.shadow.read a = some s.cfg.vWse) ∧
    (a = s.cfg.aNts → t.tgt.shadow.read a = some s.cfg.vNts) ∧
    (a = s.cfg.aExt → t.tgt.shadow.read a = some s.cfg.vExt) ∧
    (a ≠ s.cfg.aWse → a ≠ s.cfg.aNts → a ≠ s.cfg.aExt →
      (s.cfg.hasResetLine = true ∨ a = s.cfg.aExtMode ∨ a = s.cfg.aTest1 ∨
        (s.cfg.wipe0Lo.toNat ≤ a.toNat ∧ a.toNat ≤ s.cfg.wipe0Hi.toNat) ∨ (s.cfg.wipe1Lo ≤ a ∧ a ≤ s.cfg.wipe1Hi) →
        t.tgt.shadow.read a = some 0) ∧
      (¬ (s.cfg.hasResetLine = true ∨ a = s.cfg.aExtMode ∨ a = s.cfg.aTest1 ∨
        (s.cfg.wipe0Lo.toNat ≤ a.toNat ∧ a.toNat ≤ s.cfg.wipe0Hi.toNat) ∨ (s.cfg.wipe1Lo ≤ a ∧ a ≤ s.cfg.wipe1Hi)) →
        t.tgt.shadow.read a = s.tgt.shadow.read a))

/-- 41_reset_init.md R155, 70_reset_and_hazards.md R277: the requested pulse is `K_RESET` times the least whole number of
nanoseconds that is at least 400 clock periods. -/
def Obligations.ResetPulseIsLongEnough : Prop :=
  ∀ c : Config, ∃ n, resetPulseNs c.toParams = c.kReset * n ∧ 400 * 10 ^ 9 ≤ n * c.clockHz ∧
    (n - 1) * c.clockHz < 400 * 10 ^ 9

/-- 70_reset_and_hazards.md R275: the transactions and the pin events of every command. -/
def Obligations.TransactionAndEventCounts : Prop :=
  ∀ (i : Instr) (s t : State), exec i s = .next t →
    (s.fault = false → faultCause i s = none →
      t.writeLog.length = s.writeLog.length + transactionCount s.cfg.toParams i ∧
      t.pinTrace.length = s.pinTrace.length + 19 * transactionCount s.cfg.toParams i + extraEvents s.cfg.toParams i) ∧
    (s.fault = true ∨ faultCause i s ≠ none → t.writeLog = s.writeLog ∧ t.pinTrace = s.pinTrace)

/-! ## The address mapper -/

/-- 42_address_mapper.md R172, R171: `OPOFF` completes for every index 0 to 35, writes `RES` and nothing else. -/
def Obligations.OpoffWritesTheOffset : Prop :=
  ∀ (s : State) (idx : BitVec 6), s.ready → idx.toNat ≤ 35 →
    ∃ r : BitVec 9, r.toNat = 0x100 * (idx.toNat / 18) + 8 * (idx.toNat % 18 / 6) + idx.toNat % 6 ∧
      exec (.opoff idx) s = .next { s with res := r }

/-- 42_address_mapper.md R174, R173: `CHOFF` completes for every index 0 to 17, writes `RES` and nothing else. -/
def Obligations.ChoffWritesTheOffset : Prop :=
  ∀ (s : State) (idx : BitVec 6), s.ready → idx.toNat ≤ 17 →
    ∃ r : BitVec 9, r.toNat = 0x100 * (idx.toNat / 9) + idx.toNat % 9 ∧ exec (.choff idx) s = .next { s with res := r }

/-- 42_address_mapper.md R171, R173, and the sentence of R175 that the spec marks as derived from them ("both functions are strictly
increasing, and each is onto the set named in its property"): strictly increasing, hence injective, and onto. -/
def Obligations.OffsetsAreInjective : Prop :=
  (∀ i j : Fin 36, i < j → (operatorOffset i).toNat < (operatorOffset j).toNat) ∧
  (∀ i j : Fin 18, i < j → (channelOffset i).toNat < (channelOffset j).toNat) ∧
  (∀ n, (∃ i, (operatorOffset i).toNat = n) ↔
    n ∈ [0, 1, 2, 3, 4, 5, 8, 9, 10, 11, 12, 13, 16, 17, 18, 19, 20, 21] ∨
    ∃ m ∈ [0, 1, 2, 3, 4, 5, 8, 9, 10, 11, 12, 13, 16, 17, 18, 19, 20, 21], n = 0x100 + m) ∧
  ∀ n, (∃ i, (channelOffset i).toNat = n) ↔ n ≤ 8 ∨ (0x100 ≤ n ∧ n ≤ 0x108)

/-- 20_memory.md R73: adding a base to an offset never carries into the bank bit. -/
def Obligations.RegisterAddressesKeepTheirBank : Prop :=
  ∀ (c : Config),
    (∀ b ∈ [c.baseMult, c.baseLevel, c.baseAd, c.baseSr, c.baseWave], ∀ i : Fin 36,
      registerAddress b (operatorOffset i) = b.setWidth 9 + operatorOffset i ∧
      (registerAddress b (operatorOffset i)).extractLsb' 8 1 = (operatorOffset i).extractLsb' 8 1 ∧
      ((registerAddress b (operatorOffset i)).extractLsb' 0 8).toNat =
        b.toNat + ((operatorOffset i).extractLsb' 0 8).toNat) ∧
    ∀ b ∈ [c.baseFlo, c.baseFbc, c.baseFhi], ∀ i : Fin 18,
      registerAddress b (channelOffset i) = b.setWidth 9 + channelOffset i ∧
      (registerAddress b (channelOffset i)).extractLsb' 8 1 = (channelOffset i).extractLsb' 8 1 ∧
      ((registerAddress b (channelOffset i)).extractLsb' 0 8).toNat =
        b.toNat + ((channelOffset i).extractLsb' 0 8).toNat

/-! ## The parameter marshaller -/

/-- 43_parameter_writes.md R181, 30_encoding.md R98, R99: `OPSET` completes for every index and assigned selector; the one field
of the one record takes the low bits of `val` and nothing else changes. -/
def Obligations.OpsetWritesOneField : Prop :=
  ∀ (s : State) (idx : BitVec 6) (h : idx.toNat < 36) (fsel : BitVec 4) (val : BitVec 10) (f : OpField), s.ready →
    [OpField.multiplier, .keyScaleRate, .sustainMode, .vibrato, .tremolo, .totalLevel, .keyScaleLevel, .attackRate,
      .decayRate, .sustainLevel, .releaseRate, .waveform][fsel.toNat]? = some f →
    ∃ t, exec (.opset idx fsel val) s = .next t ∧
      readOpField f (t.op ⟨idx.toNat, h⟩) = val.toNat % 2 ^ f.width ∧
      (∀ g, g ≠ f → readOpField g (t.op ⟨idx.toNat, h⟩) = readOpField g (s.op ⟨idx.toNat, h⟩)) ∧
      (∀ j, j ≠ ⟨idx.toNat, h⟩ → t.op j = s.op j) ∧
      t.chs = s.chs ∧ SameFlags s t ∧ SameBus s t ∧ SameInputs s t ∧ t.res = s.res

/-- 43_parameter_writes.md R182, 30_encoding.md R98, R100: `CHSET` likewise, on a channel record. -/
def Obligations.ChsetWritesOneField : Prop :=
  ∀ (s : State) (idx : BitVec 6) (h : idx.toNat < 18) (fsel : BitVec 4) (val : BitVec 10) (f : ChField), s.ready →
    [ChField.fNumber, .block, .keyOn, .feedback, .algorithm, .panLeft, .panRight, .outC, .outD][fsel.toNat]? = some f →
    ∃ t, exec (.chset idx fsel val) s = .next t ∧
      readChField f (t.ch ⟨idx.toNat, h⟩) = val.toNat % 2 ^ f.width ∧
      (∀ g, g ≠ f → readChField g (t.ch ⟨idx.toNat, h⟩) = readChField g (s.ch ⟨idx.toNat, h⟩)) ∧
      (∀ j, j ≠ ⟨idx.toNat, h⟩ → t.ch j = s.ch j) ∧
      t.ops = s.ops ∧ SameFlags s t ∧ SameBus s t ∧ SameInputs s t ∧ t.res = s.res

/-- 43_parameter_writes.md R186, R185: `UPDOP` completes with exactly five transactions in the order of the source's listing. -/
def Obligations.UpdopIssuesFiveTransactions : Prop :=
  ∀ (s : State) (idx : BitVec 6) (h : idx.toNat < 36), s.ready →
    let o := s.op ⟨idx.toNat, h⟩
    let off := operatorOffset ⟨idx.toNat, h⟩
    ∃ t, exec (.updop idx) s = .next t ∧
      Issued [(registerAddress s.cfg.baseMult off, packMult o), (registerAddress s.cfg.baseLevel off, packLevel o),
        (registerAddress s.cfg.baseAd off, packAd o), (registerAddress s.cfg.baseSr off, packSr o),
        (registerAddress s.cfg.baseWave off, packWave o)] s t ∧
      SameFiles s t ∧ SameFlags s t ∧ SameInputs s t ∧ t.res = s.res

/-- 30_encoding.md R102: the five operator bytes, field by field. -/
def Obligations.OperatorBytesHoldTheFields : Prop :=
  ∀ o : OpParams,
    (packMult o).toNat = o.tremolo.toNat * 128 + o.vibrato.toNat * 64 + o.sustainMode.toNat * 32 +
      o.keyScaleRate.toNat * 16 + o.multiplier.toNat ∧
    (packLevel o).toNat = o.keyScaleLevel.toNat * 64 + o.totalLevel.toNat ∧
    (packAd o).toNat = o.attackRate.toNat * 16 + o.decayRate.toNat ∧
    (packSr o).toNat = o.sustainLevel.toNat * 16 + o.releaseRate.toNat ∧
    (packWave o).toNat = (match o.waveform with | .sine => 0 | .halfSine => 1 | .absSine => 2 | .pulseSine => 3)

/-- 30_encoding.md R103, R104, R105: the three channel bytes, field by field. -/
def Obligations.ChannelBytesHoldTheFields : Prop :=
  ∀ (c : ChParams) (k : Bool),
    (packFlo c).toNat = c.fNumber.toNat % 256 ∧
    (packFhi c k).toNat = k.toNat * 32 + c.block.toNat * 4 + c.fNumber.toNat / 256 ∧
    (packFbc c).toNat = c.outD.toNat * 128 + c.outC.toNat * 64 + c.panRight.toNat * 32 + c.panLeft.toNat * 16 +
      c.feedback.toNat * 2 + c.algorithm.toNat

/-- 43_parameter_writes.md R183: the bytes determine all the fields of a record. -/
def Obligations.PackingIsInjective : Prop :=
  (∀ o o' : OpParams, packMult o = packMult o' → packLevel o = packLevel o' → packAd o = packAd o' →
    packSr o = packSr o' → packWave o = packWave o' → o = o') ∧
  ∀ c c' : ChParams, packFlo c = packFlo c' → packFbc c = packFbc c' →
    packFhi c c.keyOn = packFhi c' c'.keyOn → c = c'

/-- 43_parameter_writes.md R188, R192: `KEYON` completes with exactly three transactions, the key-on byte last, and writes
`keyOn` of the one record. -/
def Obligations.KeyonWritesInFixedOrder : Prop :=
  ∀ (s : State) (idx : BitVec 6) (h : idx.toNat < 18), s.ready →
    let c := s.ch ⟨idx.toNat, h⟩
    let off := channelOffset ⟨idx.toNat, h⟩
    ∃ t, exec (.keyon idx) s = .next t ∧
      Issued [(registerAddress s.cfg.baseFlo off, packFlo c), (registerAddress s.cfg.baseFbc off, packFbc c),
        (registerAddress s.cfg.baseFhi off, packFhi c true)] s t ∧
      t.ch ⟨idx.toNat, h⟩ = { c with keyOn := true } ∧ (∀ j, j ≠ ⟨idx.toNat, h⟩ → t.ch j = s.ch j) ∧
      t.ops = s.ops ∧ SameFlags s t ∧ SameInputs s t ∧ t.res = s.res

/-- 43_parameter_writes.md R190, R192: `KEYOFF` completes with exactly one transaction and clears `keyOn` of the one record. -/
def Obligations.KeyoffIssuesOneWrite : Prop :=
  ∀ (s : State) (idx : BitVec 6) (h : idx.toNat < 18), s.ready →
    let c := s.ch ⟨idx.toNat, h⟩
    ∃ t, exec (.keyoff idx) s = .next t ∧
      Issued [(registerAddress s.cfg.baseFhi (channelOffset ⟨idx.toNat, h⟩), packFhi c false)] s t ∧
      t.ch ⟨idx.toNat, h⟩ = { c with keyOn := false } ∧ (∀ j, j ≠ ⟨idx.toNat, h⟩ → t.ch j = s.ch j) ∧
      t.ops = s.ops ∧ SameFlags s t ∧ SameInputs s t ∧ t.res = s.res

/-- 43_parameter_writes.md R191: when `fNumber` and `block` have not been written since the last `KEYON`, `KEYOFF` writes the
same register with the key-on bit cleared and every other bit unchanged. That the key-on bit is bit 5 is 30_encoding.md R104, whose
bit positions the spec takes from general knowledge (log 12). -/
def Obligations.KeyoffKeepsTheFrequencyBits : Prop :=
  ∀ (s t u v : State) (idx : BitVec 6) (h : idx.toNat < 18), s.ready → exec (.keyon idx) s = .next t →
    u.ready → u.cfg = t.cfg → (u.ch ⟨idx.toNat, h⟩).fNumber = (t.ch ⟨idx.toNat, h⟩).fNumber →
    (u.ch ⟨idx.toNat, h⟩).block = (t.ch ⟨idx.toNat, h⟩).block → exec (.keyoff idx) u = .next v →
    ∃ (a : Addr) (x y : Byte), t.writeLog.getLast? = some (a, x) ∧ v.writeLog = u.writeLog ++ [(a, y)] ∧
      x.getLsbD 5 = true ∧ y.getLsbD 5 = false ∧ ∀ k, k ≠ 5 → y.getLsbD k = x.getLsbD k

/-- 70_reset_and_hazards.md R269: after `KEYON` the target holds the channel's three bytes and its key-on bit is set; `KEYON` on a
bit known to be set presents no edge, on a bit known to be clear it does, and `KEYOFF` leaves the bit clear; where the channel's
registers are writable and `A_EXT` is none of them. Of a bit not known before nothing is stated. What the key-on bit and its edge are
is the model's reading (log 25), in the place of the bit that log 12 gives. -/
def Obligations.RetriggerNeedsAnEdge : Prop :=
  ∀ (s t : State) (idx : BitVec 6) (h : idx.toNat < 18), s.ready →
    (idx.toNat < 9 ∨ (s.tgt.ext = some true ∧
      ∀ b ∈ [s.cfg.baseFlo, s.cfg.baseFbc, s.cfg.baseFhi],
        registerAddress b (channelOffset ⟨idx.toNat, h⟩) ≠ s.cfg.aExt)) →
    (exec (.keyon idx) s = .next t →
      t.keyedOn ⟨idx.toNat, h⟩ = some true ∧ t.chInTarget ⟨idx.toNat, h⟩ = true ∧
      (s.keyedOn ⟨idx.toNat, h⟩ = some true → keyOnEdge ⟨idx.toNat, h⟩ s t = false) ∧
      (s.keyedOn ⟨idx.toNat, h⟩ = some false → keyOnEdge ⟨idx.toNat, h⟩ s t = true)) ∧
    (exec (.keyoff idx) s = .next t → t.keyedOn ⟨idx.toNat, h⟩ = some false)

/-- 43_parameter_writes.md R184, 70_reset_and_hazards.md R272: after `UPDOP` the target holds all five bytes of the record, where
the operator's registers are writable and `A_EXT` is none of them. -/
def Obligations.UpdopReachesTheTarget : Prop :=
  ∀ (s t : State) (idx : BitVec 6) (h : idx.toNat < 36), s.ready →
    (idx.toNat < 18 ∨ (s.tgt.ext = some true ∧
      ∀ b ∈ [s.cfg.baseMult, s.cfg.baseLevel, s.cfg.baseAd, s.cfg.baseSr, s.cfg.baseWave],
        registerAddress b (operatorOffset ⟨idx.toNat, h⟩) ≠ s.cfg.aExt)) →
    exec (.updop idx) s = .next t → t.opInTarget ⟨idx.toNat, h⟩ = true

/-! ## The frequency converter -/

/-- 44_frequency.md R201: every outcome of `SETFREQ`: the three range faults in order, or the two fields of the one record
written with the least number of halvings that brings the raw value below 1024, and no pin event. -/
def Obligations.SetfreqConverts : Prop :=
  ∀ (s : State) (idx : BitVec 6) (freq : BitVec 16) (F : Nat), s.ready →
    F = freq.toNat * 2 ^ 20 / (s.cfg.clockHz / 288) →
    let faulted (code : BitVec 3) :=
      exec (.setfreq idx freq) s =
        .next { s with fault := true, faultCode := code, faultInfo := encode (.setfreq idx freq) }
    (17 < idx.toNat → faulted 4) ∧
    (idx.toNat ≤ 17 → 2 ^ (s.cfg.wInt - 20) ≤ freq.toNat → faulted 5) ∧
    (idx.toNat ≤ 17 → freq.toNat < 2 ^ (s.cfg.wInt - 20) → 2 ^ 17 ≤ F → faulted 6) ∧
    ∀ (h : idx.toNat < 18) (b : Nat), freq.toNat < 2 ^ (s.cfg.wInt - 20) → b ≤ 7 → F / 2 ^ b < 1024 →
      (b = 0 ∨ 1024 ≤ F / 2 ^ (b - 1)) →
      ∃ t, exec (.setfreq idx freq) s = .next t ∧
        (t.ch ⟨idx.toNat, h⟩).fNumber.toNat = F / 2 ^ b ∧ (t.ch ⟨idx.toNat, h⟩).block.toNat = b ∧
        (∀ g, g ≠ .fNumber → g ≠ .block →
          readChField g (t.ch ⟨idx.toNat, h⟩) = readChField g (s.ch ⟨idx.toNat, h⟩)) ∧
        (∀ j, j ≠ ⟨idx.toNat, h⟩ → t.ch j = s.ch j) ∧
        t.ops = s.ops ∧ SameFlags s t ∧ SameBus s t ∧ SameInputs s t ∧ t.res = s.res

/-- 44_frequency.md R203: after a `SETFREQ` that does not fault the result is normalised, and reconstructed with the divisor the
frequency is at most the input and less than one f-number step below it. -/
def Obligations.ConversionIsNormalised : Prop :=
  ∀ (s t : State) (idx : BitVec 6) (h : idx.toNat < 18) (freq : BitVec 16), s.ready →
    exec (.setfreq idx freq) s = .next t → t.fault = false →
    let n := (t.ch ⟨idx.toNat, h⟩).fNumber.toNat
    let b := (t.ch ⟨idx.toNat, h⟩).block.toNat
    let d := s.cfg.clockHz / 288
    n < 1024 ∧ b ≤ 7 ∧ (b = 0 ∨ (512 ≤ n ∧ n ≤ 1023)) ∧ n = freq.toNat * 2 ^ 20 / d / 2 ^ b ∧
      n * 2 ^ b * d ≤ freq.toNat * 2 ^ 20 ∧ freq.toNat * 2 ^ 20 < (n + 1) * 2 ^ b * d

/-- 44_frequency.md R205: doubling the frequency increases the block by exactly 1 when the f-number would otherwise overflow
(when it is at least 512), and leaves it unchanged otherwise (then it is 0). -/
def Obligations.DoublingRaisesTheBlock : Prop :=
  ∀ (s t u : State) (idx : BitVec 6) (h : idx.toNat < 18) (x y : BitVec 16), s.ready → y.toNat = 2 * x.toNat →
    exec (.setfreq idx x) s = .next t → t.fault = false → exec (.setfreq idx y) s = .next u → u.fault = false →
    (512 ≤ (t.ch ⟨idx.toNat, h⟩).fNumber.toNat →
      (u.ch ⟨idx.toNat, h⟩).block.toNat = (t.ch ⟨idx.toNat, h⟩).block.toNat + 1) ∧
    ((t.ch ⟨idx.toNat, h⟩).fNumber.toNat < 512 →
      (u.ch ⟨idx.toNat, h⟩).block = (t.ch ⟨idx.toNat, h⟩).block ∧ (t.ch ⟨idx.toNat, h⟩).block = 0)

/-- 44_frequency.md R204: 440 Hz at 14318180 Hz gives (580, 4), whatever else the configuration is. -/
def Obligations.ConcertPitchConverts : Prop :=
  ∀ (s : State) (idx : BitVec 6) (h : idx.toNat < 18), s.ready → s.cfg.clockHz = 14318180 →
    ∃ t, exec (.setfreq idx 440) s = .next t ∧ (t.ch ⟨idx.toNat, h⟩).fNumber = 580 ∧
      (t.ch ⟨idx.toNat, h⟩).block = 4

/-! ## The note dispatcher at the boundary -/

/-- 45_note_dispatcher.md R218, 44_frequency.md R201: `NOTEON` on a note whose hertz value converts completes: the record takes the
converted frequency, by the least number of halvings, and key-on, keeps its other fields, and the three writes of `KEYON` for it are
issued. -/
def Obligations.NoteOnPlaysTheFrequency : Prop :=
  ∀ (s : State) (c : BitVec 6) (h : c.toNat < 18) (note vel hz F : Nat), s.ready →
    hz = noteHz s.cfg.toParams note → F = hz * 2 ^ 20 / (s.cfg.clockHz / 288) →
    hz < 2 ^ 16 → hz < 2 ^ (s.cfg.wInt - 20) → F < 2 ^ 17 →
    ∃ t, runNote (.on c note vel) s = .next t ∧
      (∃ b, b ≤ 7 ∧ F / 2 ^ b < 1024 ∧ (b = 0 ∨ 1024 ≤ F / 2 ^ (b - 1)) ∧
        t.ch ⟨c.toNat, h⟩ = { s.ch ⟨c.toNat, h⟩ with
          fNumber := BitVec.ofNat 10 (F / 2 ^ b), block := BitVec.ofNat 3 b, keyOn := true }) ∧
      Issued [(registerAddress s.cfg.baseFlo (channelOffset ⟨c.toNat, h⟩), packFlo (t.ch ⟨c.toNat, h⟩)),
        (registerAddress s.cfg.baseFbc (channelOffset ⟨c.toNat, h⟩), packFbc (t.ch ⟨c.toNat, h⟩)),
        (registerAddress s.cfg.baseFhi (channelOffset ⟨c.toNat, h⟩), packFhi (t.ch ⟨c.toNat, h⟩) true)] s t ∧
      (∀ j, j ≠ ⟨c.toNat, h⟩ → t.ch j = s.ch j) ∧ t.ops = s.ops ∧ SameFlags s t ∧ SameInputs s t ∧ t.res = s.res

/-- 45_note_dispatcher.md R218, 44_frequency.md R201: `NOTEON` on a note whose hertz value `SETFREQ` cannot convert, or on a channel
that does not exist, answers the state with that one fault recorded: the other two commands are ignored and nothing plays. For a
value of 2^16 or more, which has no operand, the word recorded, and the cause where the conversion alone would succeed (the last
clause), are the model's choice (log 20). -/
def Obligations.UnconvertibleNotesFault : Prop :=
  ∀ (s : State) (c : BitVec 6) (note vel hz F : Nat), s.ready →
    hz = noteHz s.cfg.toParams note → F = hz * 2 ^ 20 / (s.cfg.clockHz / 288) →
    let cw := encode (.setfreq c (if hz < 2 ^ 16 then BitVec.ofNat 16 hz else 0xFFFF))
    let faulted (code : BitVec 3) :=
      runNote (.on c note vel) s = .next { s with fault := true, faultCode := code, faultInfo := cw }
    (17 < c.toNat → faulted 4) ∧
    (c.toNat ≤ 17 → 2 ^ (s.cfg.wInt - 20) ≤ hz → faulted 5) ∧
    (c.toNat ≤ 17 → hz < 2 ^ (s.cfg.wInt - 20) → 2 ^ 17 ≤ F → faulted 6) ∧
    (c.toNat ≤ 17 → hz < 2 ^ (s.cfg.wInt - 20) → F < 2 ^ 17 → 2 ^ 16 ≤ hz → faulted 5)

/-- 45_note_dispatcher.md R221, at the clock 14318180 Hz and for every admissible conversion: notes 0 to 107 play, 108 to 114 play
when `W_INT` is at least 33 and fault at 32, and every note from 115 on faults: `FrequencyRange` at `W_INT = 32`, otherwise
`BlockRange` where the hertz value passes the first check of 44_frequency.md R201 (R221 leaves unsaid that a wider intermediate can
also be too narrow) and `FrequencyRange` where it does not. -/
def Obligations.NotesInAndOutOfRange : Prop :=
  ∀ (s : State) (c : BitVec 6) (h : c.toNat < 18) (note vel : Nat), s.ready → s.cfg.clockHz = 14318180 →
    let faulted (code : BitVec 3) :=
      ∃ cw, runNote (.on c note vel) s = .next { s with fault := true, faultCode := code, faultInfo := cw }
    (note ≤ 107 ∨ (note ≤ 114 ∧ 33 ≤ s.cfg.wInt) →
      ∃ t, runNote (.on c note vel) s = .next t ∧ t.fault = false ∧ (t.ch ⟨c.toNat, h⟩).keyOn = true) ∧
    (108 ≤ note → s.cfg.wInt = 32 → faulted 5) ∧
    (115 ≤ note → noteHz s.cfg.toParams note < 2 ^ (s.cfg.wInt - 20) → faulted 6) ∧
    (115 ≤ note → 2 ^ (s.cfg.wInt - 20) ≤ noteHz s.cfg.toParams note → faulted 5) ∧
    (115 ≤ note → note ≤ 119 → 33 ≤ s.cfg.wInt → faulted 6)

/-- 45_note_dispatcher.md R219: `NOTEOFF` completes with the one write of `KEYOFF` and clears key-on; note and velocity are not
used. -/
def Obligations.NoteOffReleasesTheKey : Prop :=
  ∀ (s : State) (c : BitVec 6) (h : c.toNat < 18) (note vel : Nat), s.ready →
    ∃ t, runNote (.off c note vel) s = .next t ∧
      t.ch ⟨c.toNat, h⟩ = { s.ch ⟨c.toNat, h⟩ with keyOn := false } ∧
      Issued [(registerAddress s.cfg.baseFhi (channelOffset ⟨c.toNat, h⟩), packFhi (s.ch ⟨c.toNat, h⟩) false)] s t ∧
      (∀ j, j ≠ ⟨c.toNat, h⟩ → t.ch j = s.ch j) ∧ t.ops = s.ops ∧ SameFlags s t ∧ SameInputs s t ∧ t.res = s.res

/-- 45_note_dispatcher.md R217: where `F(n)` is an integer (n = 33 + 12k) the conversion gives exactly that integer. -/
def Obligations.IntegerPitchesAreExact : Prop :=
  ∀ k h : Nat, noteHzAdmissible (33 + 12 * k) h = true ↔ h = 55 * 2 ^ k

/-- 00_scope.md R7, 45_note_dispatcher.md R217: the conversion of every configuration is between the floor and the ceiling of the
pitch at every note, at n = 33 + 12k it is the pitch; and every conversion so constrained is some configuration's, at as many notes
as one likes, the other parameters as they were (a table of finitely many notes is the model's choice: log 20). -/
def Obligations.EveryConversionIsAdmissible : Prop :=
  (∀ (c : Config) (n : Nat), noteHzAdmissible n (noteHz c.toParams n) = true) ∧
  (∀ (c : Config) (k : Nat), noteHz c.toParams (33 + 12 * k) = 55 * 2 ^ k) ∧
  ∀ (c : Config) (f : Nat → Nat) (m : Nat), (∀ n, noteHzAdmissible n (f n) = true) →
    ∃ c' : Config, c'.toParams = { c.toParams with noteToHz := c'.noteToHz } ∧ ∀ n, n < m → noteHz c'.toParams n = f n

/-! ## The whole machine -/

/-- Every step keeps the invariant of the machine (10_state.md R26, R29, R31, R38; 40_bus_write.md R138; 60_exceptions.md
R231). -/
def Obligations.StepsKeepTheInvariant : Prop :=
  ∀ s t : State, s.Inv → step s = .next t → t.Inv

/-- The invariant, the replay and the timing contract hold right after reset; the pins of power-on, on which the last two
start, are the model's choice (log 4). -/
def Obligations.ResetMeetsTheInvariants : Prop :=
  State.reset.Inv ∧ State.reset.traceExplains ∧ State.reset.timingMet

/-- 00_scope.md R7, 40_bus_write.md R135: no step changes the configuration. -/
def Obligations.TheConfigurationIsConstant : Prop :=
  ∀ s t : State, step s = .next t → t.cfg = s.cfg

/-- 10_state.md R25, 20_memory.md R61: no command reads the target: whatever the target holds, a command leaves the same core,
the same pins and the same events. -/
def Obligations.CommandsNeverReadTheTarget : Prop :=
  ∀ (i : Instr) (s t : State) (g : Target), exec i s = .next t →
    ∃ g', exec i { s with tgt := g } = .next { t with tgt := g' }

/-- 20_memory.md R74, R61: each command appends to `WLOG` exactly the transactions its rule lists, in order. -/
def Obligations.TheWriteLogIsTheConcatenation : Prop :=
  ∀ (i : Instr) (s t : State), exec i s = .next t → t.writeLog = s.writeLog ++ issuedBy i s

/-- 10_state.md R29: `BEGUN` is written only by `BEGIN` and never cleared, `RES` only by `OPOFF` and `CHOFF`, and no command
clears `FAULT`. -/
def Obligations.WhoWritesTheFlags : Prop :=
  ∀ (i : Instr) (s t : State), exec i s = .next t →
    (t.begun ≠ s.begun → i = .begin ∧ t.begun = true) ∧
    (t.res ≠ s.res → ∃ idx, i = .opoff idx ∨ i = .choff idx) ∧
    (s.fault = true → t.fault = true) ∧
    (t.fault = s.fault → t.faultCode = s.faultCode ∧ t.faultInfo = s.faultInfo) ∧ t.busy = s.busy

/-- 10_state.md R22, R24: which commands write the parameter files. -/
def Obligations.WhoWritesTheFiles : Prop :=
  ∀ (i : Instr) (s t : State), exec i s = .next t →
    (t.ops ≠ s.ops → i = .begin ∨ i = .reset ∨ ∃ idx fsel val, i = .opset idx fsel val) ∧
    (t.chs ≠ s.chs → i = .begin ∨ i = .reset ∨ (∃ idx fsel val, i = .chset idx fsel val) ∨
      (∃ idx freq, i = .setfreq idx freq) ∨ ∃ idx, i = .keyon idx ∨ i = .keyoff idx)
end

