-- ==== Sys2Proof/Laws/Config.lean ====
section
/-! SUPPORT. The constraints of a configuration, one by one (00_scope.md R7). -/

namespace Sys2Proof.Config

variable (c : Config)

theorem clock_ge : 288 ≤ c.clockHz := c.ok.1.1
theorem clock_lt : c.clockHz < 2 ^ 32 := c.ok.1.2.1
theorem kSafe_pos : 1 ≤ c.kSafe := c.ok.1.2.2.1
theorem kReset_pos : 1 ≤ c.kReset := c.ok.1.2.2.2.1
theorem wInt_ge : 32 ≤ c.wInt := c.ok.1.2.2.2.2

theorem wipe0_le : c.wipe0Lo ≤ c.wipe0Hi := c.ok.2.1.1
theorem wipe1_le : c.wipe1Lo ≤ c.wipe1Hi := c.ok.2.1.2.1
theorem wipe1Lo_bank : c.wipe1Lo.getLsbD 8 = true := c.ok.2.1.2.2.1
theorem wipe1Hi_bank : c.wipe1Hi.getLsbD 8 = true := c.ok.2.1.2.2.2.1
theorem aExt_outside : ¬ (c.wipe1Lo ≤ c.aExt ∧ c.aExt ≤ c.wipe1Hi) := c.ok.2.1.2.2.2.2 _ (by simp)
theorem aExtMode_outside : ¬ (c.wipe1Lo ≤ c.aExtMode ∧ c.aExtMode ≤ c.wipe1Hi) := c.ok.2.1.2.2.2.2 _ (by simp)
theorem aTest1_outside : ¬ (c.wipe1Lo ≤ c.aTest1 ∧ c.aTest1 ≤ c.wipe1Hi) := c.ok.2.1.2.2.2.2 _ (by simp)

theorem aExt_bank : c.aExt.getLsbD 8 = true := c.ok.2.2.1.1
theorem aExtMode_bank : c.aExtMode.getLsbD 8 = true := c.ok.2.2.1.2.1
theorem aTest1_bank : c.aTest1.getLsbD 8 = true := c.ok.2.2.1.2.2.1
theorem vExt_eq : c.vExt = 1 := c.ok.2.2.1.2.2.2.1

theorem opBase_le {b : Byte} (h : b ∈ [c.baseMult, c.baseLevel, c.baseAd, c.baseSr, c.baseWave]) : b ≤ 0xEA :=
  c.ok.2.2.2.1.1 b h
theorem chBase_le {b : Byte} (h : b ∈ [c.baseFlo, c.baseFbc, c.baseFhi]) : b ≤ 0xF7 := c.ok.2.2.2.1.2.1 b h
theorem ranges_apart : c.registerRanges.Pairwise fun x y => x.1 + x.2 ≤ y.1 ∨ y.1 + y.2 ≤ x.1 := c.ok.2.2.2.1.2.2

theorem ne_of_apart {x y : Byte} {m n : Nat} (h : x.toNat + m ≤ y.toNat ∨ y.toNat + n ≤ x.toNat) (hm : 0 < m)
    (hn : 0 < n) : x ≠ y := by
  rintro rfl
  omega

/-- The eight bases are eight registers. -/
theorem bases_apart : [c.baseMult, c.baseLevel, c.baseAd, c.baseSr, c.baseWave, c.baseFlo, c.baseFbc,
    c.baseFhi].Pairwise (· ≠ ·) := by
  have h := c.ranges_apart
  simp only [Params.registerRanges, List.pairwise_cons, List.mem_cons, List.not_mem_nil, or_false, forall_eq_or_imp,
    forall_eq] at h ⊢
  obtain ⟨⟨a1, a2, a3, a4, a5, a6, a7⟩, ⟨b1, b2, b3, b4, b5, b6⟩, ⟨c1, c2, c3, c4, c5⟩, ⟨d1, d2, d3, d4⟩, ⟨e1, e2, e3⟩,
    ⟨f1, f2⟩, g1, -⟩ := h
  have k {x y : Byte} {m n : Nat} (h : x.toNat + (m + 1) ≤ y.toNat ∨ y.toNat + (n + 1) ≤ x.toNat) : x ≠ y :=
    ne_of_apart h (Nat.succ_pos m) (Nat.succ_pos n)
  exact ⟨⟨k a1, k a2, k a3, k a4, k a5, k a6, k a7⟩, ⟨k b1, k b2, k b3, k b4, k b5, k b6⟩, ⟨k c1, k c2, k c3, k c4, k c5⟩,
    ⟨k d1, k d2, k d3, k d4⟩, ⟨k e1, k e2, k e3⟩, ⟨k f1, k f2⟩, k g1, fun _ h => h.elim, List.Pairwise.nil⟩

/-- The divisor of the frequency conversion is at least 1 (44_frequency.md R200). -/
theorem divisor_pos : 0 < c.clockHz / 288 := Nat.div_pos c.clock_ge (by decide)

/-- Every value of the conversion table is between the floor and the ceiling of its note's pitch. -/
theorem noteToHz_admissible {n : Nat} (h : n < c.noteToHz.length) : noteHzAdmissible n c.noteToHz[n] = true :=
  c.ok.2.2.2.2 ⟨n, h⟩

end Sys2Proof.Config
end

