-- ==== Sys2Proof/Laws/Frequency.lean ====
section
/-! SUPPORT. The halving loop and the conversion (44_frequency.md). -/

namespace Sys2Proof.Machine

/-- The loop stops at the least number of halvings that brings the value below 1024. -/
theorem halve_spec (fuel f b : Nat) (h : f < 1024 * 2 ^ fuel) :
    ∃ k, halve fuel f b = (f / 2 ^ k, b + k) ∧ f / 2 ^ k < 1024 ∧ (k = 0 ∨ 1024 ≤ f / 2 ^ (k - 1)) := by
  induction fuel generalizing f b with
  | zero => exact ⟨0, by simp [halve], by simpa using h, .inl rfl⟩
  | succ fuel ih =>
    unfold halve
    split
    · rename_i hf
      have h2 : f / 2 < 1024 * 2 ^ fuel := by
        rw [Nat.pow_succ] at h
        omega
      obtain ⟨k, hk, hlt, hle⟩ := ih (f / 2) (b + 1) h2
      have hdiv : ∀ n, f / 2 / 2 ^ n = f / 2 ^ (n + 1) := fun n => by
        rw [Nat.div_div_eq_div_mul, Nat.pow_succ, Nat.mul_comm]
      refine ⟨k + 1, by rw [hk, hdiv, Nat.add_assoc, Nat.add_comm 1 k], by rwa [← hdiv], .inr ?_⟩
      rcases hle with rfl | hle
      · simpa using hf
      · cases k with
        | zero => simpa using hf
        | succ k => simpa [hdiv] using hle
    · exact ⟨0, by simp, by simp; omega, .inl rfl⟩

/-- A frequency that passes the first check fits the intermediate (44_frequency.md R200). -/
theorem rawFNumber_lt (c : Config) {x : Nat} (h : x < 2 ^ (c.wInt - 20)) :
    rawFNumber c.toParams x < 1024 * 2 ^ (c.wInt - 10) := by
  have hw := c.wInt_ge
  have e : c.wInt = (c.wInt - 20) + 20 := by omega
  have e' : c.wInt = (c.wInt - 10) + 10 := by omega
  have h1 : rawFNumber c.toParams x ≤ x * 2 ^ 20 := Nat.div_le_self _ _
  have h2 : x * 2 ^ 20 < 2 ^ (c.wInt - 20) * 2 ^ 20 := Nat.mul_lt_mul_of_pos_right h (by decide)
  have h3 : 2 ^ (c.wInt - 20) * 2 ^ 20 = 1024 * 2 ^ (c.wInt - 10) := by
    rw [← Nat.pow_add, ← e, Nat.mul_comm, show (1024 : Nat) = 2 ^ 10 from rfl, ← Nat.pow_add, ← e']
  omega

/-- Everything the conversion can answer (44_frequency.md R201). -/
theorem convert_spec (c : Config) (freq : Nat) :
    (2 ^ (c.wInt - 20) ≤ freq ∧ convert c.toParams freq = .error .frequencyRange) ∨
    (freq < 2 ^ (c.wInt - 20) ∧ ∃ k,
      rawFNumber c.toParams freq / 2 ^ k < 1024 ∧
      (k = 0 ∨ 1024 ≤ rawFNumber c.toParams freq / 2 ^ (k - 1)) ∧
      ((7 < k ∧ convert c.toParams freq = .error .blockRange) ∨
       (k ≤ 7 ∧ convert c.toParams freq =
          .ok (BitVec.ofNat 10 (rawFNumber c.toParams freq / 2 ^ k), BitVec.ofNat 3 k)))) := by
  by_cases h : 2 ^ (c.wInt - 20) ≤ freq
  · exact .inl ⟨h, by simp [convert, h]⟩
  · have h' : freq < 2 ^ (c.wInt - 20) := Nat.lt_of_not_le h
    obtain ⟨k, hk, hlt, hle⟩ := halve_spec (c.wInt - 10) _ 0 (rawFNumber_lt c h')
    refine .inr ⟨h', k, hlt, hle, ?_⟩
    rcases Nat.lt_or_ge 7 k with h7 | h7
    · exact .inl ⟨h7, by simp [convert, h, hk, h7]⟩
    · exact .inr ⟨h7, by simp [convert, h, hk, Nat.not_lt.mpr h7]⟩

/-- The least number of halvings is unique. -/
theorem halvings_unique {f j k : Nat} (hj : f / 2 ^ j < 1024) (hj' : j = 0 ∨ 1024 ≤ f / 2 ^ (j - 1))
    (hk : f / 2 ^ k < 1024) (hk' : k = 0 ∨ 1024 ≤ f / 2 ^ (k - 1)) : j = k := by
  have mono : ∀ {m n : Nat}, m ≤ n → f / 2 ^ n ≤ f / 2 ^ m := fun h =>
    Nat.div_le_div_left (Nat.pow_le_pow_right (by decide) h) (Nat.pow_pos (by decide))
  rcases Nat.lt_trichotomy j k with h | h | h
  · have := mono (m := j) (n := k - 1) (by omega)
    omega
  · exact h
  · have := mono (m := k) (n := j - 1) (by omega)
    omega

end Sys2Proof.Machine
end

