-- ==== Sys2Proof/Laws/Memory.lean ====
section
/-! SUPPORT. The laws of the target's register space: read after write, and the canonical form kept by every operation. -/

namespace Sys2Proof.Machine

/-! ### Read after write -/

theorem Memory.readCell_putCell (m : Memory) (a b : Nat) (d : Byte) :
    Memory.readCell (m.putCell a d) b = if b = a then some d else m.readCell b := by
  induction m with
  | nil => simp [Memory.putCell, Memory.readCell]
  | cons c m ih =>
    obtain ⟨k, e⟩ := c
    unfold Memory.putCell
    split
    · simp [Memory.readCell]
    · split
      · subst a
        by_cases hb : b = k <;> simp [Memory.readCell, hb]
      · simp only [Memory.readCell, ih]
        by_cases hb : b = k
        · have : k ≠ a := by omega
          simp [hb, this]
        · simp [hb]

theorem Memory.readCell_dropCell (m : Memory) (a b : Nat) :
    Memory.readCell (m.dropCell a) b = if b = a then none else m.readCell b := by
  induction m with
  | nil => simp [Memory.dropCell, Memory.readCell]
  | cons c m ih =>
    obtain ⟨k, e⟩ := c
    unfold Memory.dropCell
    split
    · subst a
      rw [ih]
      by_cases hb : b = k <;> simp [Memory.readCell, hb]
    · simp only [Memory.readCell, ih]
      by_cases hb : b = k
      · have : k ≠ a := by omega
        simp [hb, this]
      · simp [hb]

/-- A location reads as the byte put there, every other location as before. -/
theorem Memory.read_put (m : Memory) (a b : Addr) (d : Byte) :
    Memory.read (m.put a d) b = if b = a then some d else m.read b := by
  simp only [Memory.read, Memory.put, Memory.readCell_putCell, BitVec.toNat_inj]

/-- A forgotten location is unknown, every other location reads as before. -/
theorem Memory.read_forget (m : Memory) (a b : Addr) :
    Memory.read (m.forget a) b = if b = a then none else m.read b := by
  simp only [Memory.read, Memory.forget, Memory.readCell_dropCell, BitVec.toNat_inj]

theorem Memory.readCell_zeroCells (l : List Nat) (a : Nat) :
    Memory.readCell (l.map fun k => (k, 0#8)) a = if a ∈ l then some 0#8 else none := by
  induction l with
  | nil => rfl
  | cons k l ih =>
    by_cases h : a = k
    · simp [Memory.readCell, h]
    · simp [Memory.readCell, h, ih]

@[simp] theorem Memory.read_allZero (a : Addr) : Memory.allZero.read a = some 0 := by
  have : a.toNat ∈ List.range 512 := List.mem_range.mpr a.isLt
  exact (Memory.readCell_zeroCells _ _).trans (if_pos this)

@[simp] theorem Memory.read_nil (a : Addr) : Memory.read [] a = none := rfl

/-! ### The canonical form -/

theorem Memory.mem_putCell {m : Memory} {a : Nat} {d : Byte} {c : Host.Cell} (h : c ∈ m.putCell a d) :
    c = (a, d) ∨ c ∈ m := by
  induction m with
  | nil => simpa [Memory.putCell] using h
  | cons x m ih =>
    obtain ⟨k, e⟩ := x
    unfold Memory.putCell at h
    split at h
    · simpa using h
    · split at h
      · rcases List.mem_cons.mp h with h | h
        · exact .inl h
        · exact .inr (List.mem_cons_of_mem _ h)
      · rcases List.mem_cons.mp h with h | h
        · exact .inr (h ▸ List.mem_cons_self)
        · exact (ih h).imp id (List.mem_cons_of_mem _)

theorem Memory.mem_dropCell {m : Memory} {a : Nat} {c : Host.Cell} (h : c ∈ m.dropCell a) : c ∈ m := by
  induction m with
  | nil => simp [Memory.dropCell] at h
  | cons x m ih =>
    obtain ⟨k, e⟩ := x
    unfold Memory.dropCell at h
    split at h
    · exact List.mem_cons_of_mem _ (ih h)
    · rcases List.mem_cons.mp h with h | h
      · exact h ▸ List.mem_cons_self
      · exact List.mem_cons_of_mem _ (ih h)

theorem Memory.putCell_sorted {m : Memory} (hm : m.Pairwise fun x y => x.1 < y.1) (a : Nat) (d : Byte) :
    (m.putCell a d).Pairwise fun x y => x.1 < y.1 := by
  induction m with
  | nil => simp [Memory.putCell]
  | cons x m ih =>
    obtain ⟨k, e⟩ := x
    have hk : ∀ c ∈ m, k < c.1 := fun c hc => List.rel_of_pairwise_cons hm hc
    unfold Memory.putCell
    split
    · refine List.pairwise_cons.mpr ⟨fun c hc => ?_, hm⟩
      rcases List.mem_cons.mp hc with rfl | hc
      · assumption
      · exact Nat.lt_trans ‹a < k› (hk c hc)
    · split
      · subst a
        exact List.pairwise_cons.mpr ⟨hk, hm.of_cons⟩
      · refine List.pairwise_cons.mpr ⟨fun c hc => ?_, ih hm.of_cons⟩
        rcases Memory.mem_putCell hc with rfl | hc
        · simp only
          omega
        · exact hk c hc

theorem Memory.dropCell_sorted {m : Memory} (hm : m.Pairwise fun x y => x.1 < y.1) (a : Nat) :
    (m.dropCell a).Pairwise fun x y => x.1 < y.1 := by
  induction m with
  | nil => simp [Memory.dropCell]
  | cons x m ih =>
    obtain ⟨k, e⟩ := x
    unfold Memory.dropCell
    split
    · exact ih hm.of_cons
    · exact List.pairwise_cons.mpr
        ⟨fun c hc => List.rel_of_pairwise_cons hm (Memory.mem_dropCell hc), ih hm.of_cons⟩

theorem Memory.wf_nil : Memory.wf [] := ⟨List.Pairwise.nil, fun _ h => absurd h List.not_mem_nil⟩

theorem Memory.wf_put {m : Memory} (hm : m.wf) (a : Addr) (d : Byte) : (m.put a d).wf := by
  refine ⟨Memory.putCell_sorted hm.1 _ d, fun c hc => ?_⟩
  rcases Memory.mem_putCell hc with rfl | hc
  · exact a.isLt
  · exact hm.2 c hc

theorem Memory.wf_forget {m : Memory} (hm : m.wf) (a : Addr) : (m.forget a).wf :=
  ⟨Memory.dropCell_sorted hm.1 _, fun c hc => hm.2 c (Memory.mem_dropCell hc)⟩

theorem Memory.wf_allZero : Memory.allZero.wf := by
  refine ⟨?_, fun c hc => ?_⟩
  · simpa [Memory.allZero, List.pairwise_map] using List.pairwise_lt_range
  · obtain ⟨k, hk, rfl⟩ := List.mem_map.mp hc
    exact List.mem_range.mp hk

end Sys2Proof.Machine
end

