-- ==== Sys2Proof/Laws/State.lean ====
section
/-! SUPPORT. One lemma for each field of State under each update, so that no later proof unfolds a record update. -/

namespace Sys2Proof.Machine

/-! ### `State.setBegun` -/

@[simp] theorem State.setBegun_cfg (s : State) : s.setBegun.cfg = s.cfg := rfl
@[simp] theorem State.setBegun_host (s : State) : s.setBegun.host = s.host := rfl
@[simp] theorem State.setBegun_ops (s : State) : s.setBegun.ops = s.ops := rfl
@[simp] theorem State.setBegun_chs (s : State) : s.setBegun.chs = s.chs := rfl
@[simp] theorem State.setBegun_seq (s : State) : s.setBegun.seq = s.seq := rfl
@[simp] theorem State.setBegun_begun (s : State) : s.setBegun.begun = true := rfl
@[simp] theorem State.setBegun_fault (s : State) : s.setBegun.fault = s.fault := rfl
@[simp] theorem State.setBegun_faultCode (s : State) : s.setBegun.faultCode = s.faultCode := rfl
@[simp] theorem State.setBegun_faultInfo (s : State) : s.setBegun.faultInfo = s.faultInfo := rfl
@[simp] theorem State.setBegun_res (s : State) : s.setBegun.res = s.res := rfl
@[simp] theorem State.setBegun_busy (s : State) : s.setBegun.busy = s.busy := rfl
@[simp] theorem State.setBegun_pins (s : State) : s.setBegun.pins = s.pins := rfl
@[simp] theorem State.setBegun_traceRev (s : State) : s.setBegun.traceRev = s.traceRev := rfl
@[simp] theorem State.setBegun_tgt (s : State) : s.setBegun.tgt = s.tgt := rfl

/-! ### `State.setRes` -/

@[simp] theorem State.setRes_cfg (v : BitVec 9) (s : State) : (s.setRes v).cfg = s.cfg := rfl
@[simp] theorem State.setRes_host (v : BitVec 9) (s : State) : (s.setRes v).host = s.host := rfl
@[simp] theorem State.setRes_ops (v : BitVec 9) (s : State) : (s.setRes v).ops = s.ops := rfl
@[simp] theorem State.setRes_chs (v : BitVec 9) (s : State) : (s.setRes v).chs = s.chs := rfl
@[simp] theorem State.setRes_seq (v : BitVec 9) (s : State) : (s.setRes v).seq = s.seq := rfl
@[simp] theorem State.setRes_begun (v : BitVec 9) (s : State) : (s.setRes v).begun = s.begun := rfl
@[simp] theorem State.setRes_fault (v : BitVec 9) (s : State) : (s.setRes v).fault = s.fault := rfl
@[simp] theorem State.setRes_faultCode (v : BitVec 9) (s : State) : (s.setRes v).faultCode = s.faultCode := rfl
@[simp] theorem State.setRes_faultInfo (v : BitVec 9) (s : State) : (s.setRes v).faultInfo = s.faultInfo := rfl
@[simp] theorem State.setRes_res (v : BitVec 9) (s : State) : (s.setRes v).res = v := rfl
@[simp] theorem State.setRes_busy (v : BitVec 9) (s : State) : (s.setRes v).busy = s.busy := rfl
@[simp] theorem State.setRes_pins (v : BitVec 9) (s : State) : (s.setRes v).pins = s.pins := rfl
@[simp] theorem State.setRes_traceRev (v : BitVec 9) (s : State) : (s.setRes v).traceRev = s.traceRev := rfl
@[simp] theorem State.setRes_tgt (v : BitVec 9) (s : State) : (s.setRes v).tgt = s.tgt := rfl

/-! ### `State.setFault` -/

@[simp] theorem State.setFault_cfg (c : Cause) (cw : CmdWord) (s : State) : (s.setFault c cw).cfg = s.cfg := rfl
@[simp] theorem State.setFault_host (c : Cause) (cw : CmdWord) (s : State) : (s.setFault c cw).host = s.host := rfl
@[simp] theorem State.setFault_ops (c : Cause) (cw : CmdWord) (s : State) : (s.setFault c cw).ops = s.ops := rfl
@[simp] theorem State.setFault_chs (c : Cause) (cw : CmdWord) (s : State) : (s.setFault c cw).chs = s.chs := rfl
@[simp] theorem State.setFault_seq (c : Cause) (cw : CmdWord) (s : State) : (s.setFault c cw).seq = s.seq := rfl
@[simp] theorem State.setFault_begun (c : Cause) (cw : CmdWord) (s : State) : (s.setFault c cw).begun = s.begun := rfl
@[simp] theorem State.setFault_fault (c : Cause) (cw : CmdWord) (s : State) : (s.setFault c cw).fault = true := rfl
@[simp] theorem State.setFault_faultCode (c : Cause) (cw : CmdWord) (s : State) : (s.setFault c cw).faultCode = c.code := rfl
@[simp] theorem State.setFault_faultInfo (c : Cause) (cw : CmdWord) (s : State) : (s.setFault c cw).faultInfo = cw := rfl
@[simp] theorem State.setFault_res (c : Cause) (cw : CmdWord) (s : State) : (s.setFault c cw).res = s.res := rfl
@[simp] theorem State.setFault_busy (c : Cause) (cw : CmdWord) (s : State) : (s.setFault c cw).busy = s.busy := rfl
@[simp] theorem State.setFault_pins (c : Cause) (cw : CmdWord) (s : State) : (s.setFault c cw).pins = s.pins := rfl
@[simp] theorem State.setFault_traceRev (c : Cause) (cw : CmdWord) (s : State) : (s.setFault c cw).traceRev = s.traceRev := rfl
@[simp] theorem State.setFault_tgt (c : Cause) (cw : CmdWord) (s : State) : (s.setFault c cw).tgt = s.tgt := rfl

/-! ### `State.setOp` -/

@[simp] theorem State.setOp_cfg (i : Fin 36) (o : OpParams) (s : State) : (s.setOp i o).cfg = s.cfg := rfl
@[simp] theorem State.setOp_host (i : Fin 36) (o : OpParams) (s : State) : (s.setOp i o).host = s.host := rfl
@[simp] theorem State.setOp_ops (i : Fin 36) (o : OpParams) (s : State) : (s.setOp i o).ops = s.ops.set i o := rfl
@[simp] theorem State.setOp_chs (i : Fin 36) (o : OpParams) (s : State) : (s.setOp i o).chs = s.chs := rfl
@[simp] theorem State.setOp_seq (i : Fin 36) (o : OpParams) (s : State) : (s.setOp i o).seq = s.seq := rfl
@[simp] theorem State.setOp_begun (i : Fin 36) (o : OpParams) (s : State) : (s.setOp i o).begun = s.begun := rfl
@[simp] theorem State.setOp_fault (i : Fin 36) (o : OpParams) (s : State) : (s.setOp i o).fault = s.fault := rfl
@[simp] theorem State.setOp_faultCode (i : Fin 36) (o : OpParams) (s : State) : (s.setOp i o).faultCode = s.faultCode := rfl
@[simp] theorem State.setOp_faultInfo (i : Fin 36) (o : OpParams) (s : State) : (s.setOp i o).faultInfo = s.faultInfo := rfl
@[simp] theorem State.setOp_res (i : Fin 36) (o : OpParams) (s : State) : (s.setOp i o).res = s.res := rfl
@[simp] theorem State.setOp_busy (i : Fin 36) (o : OpParams) (s : State) : (s.setOp i o).busy = s.busy := rfl
@[simp] theorem State.setOp_pins (i : Fin 36) (o : OpParams) (s : State) : (s.setOp i o).pins = s.pins := rfl
@[simp] theorem State.setOp_traceRev (i : Fin 36) (o : OpParams) (s : State) : (s.setOp i o).traceRev = s.traceRev := rfl
@[simp] theorem State.setOp_tgt (i : Fin 36) (o : OpParams) (s : State) : (s.setOp i o).tgt = s.tgt := rfl

/-! ### `State.setCh` -/

@[simp] theorem State.setCh_cfg (i : Fin 18) (c : ChParams) (s : State) : (s.setCh i c).cfg = s.cfg := rfl
@[simp] theorem State.setCh_host (i : Fin 18) (c : ChParams) (s : State) : (s.setCh i c).host = s.host := rfl
@[simp] theorem State.setCh_ops (i : Fin 18) (c : ChParams) (s : State) : (s.setCh i c).ops = s.ops := rfl
@[simp] theorem State.setCh_chs (i : Fin 18) (c : ChParams) (s : State) : (s.setCh i c).chs = s.chs.set i c := rfl
@[simp] theorem State.setCh_seq (i : Fin 18) (c : ChParams) (s : State) : (s.setCh i c).seq = s.seq := rfl
@[simp] theorem State.setCh_begun (i : Fin 18) (c : ChParams) (s : State) : (s.setCh i c).begun = s.begun := rfl
@[simp] theorem State.setCh_fault (i : Fin 18) (c : ChParams) (s : State) : (s.setCh i c).fault = s.fault := rfl
@[simp] theorem State.setCh_faultCode (i : Fin 18) (c : ChParams) (s : State) : (s.setCh i c).faultCode = s.faultCode := rfl
@[simp] theorem State.setCh_faultInfo (i : Fin 18) (c : ChParams) (s : State) : (s.setCh i c).faultInfo = s.faultInfo := rfl
@[simp] theorem State.setCh_res (i : Fin 18) (c : ChParams) (s : State) : (s.setCh i c).res = s.res := rfl
@[simp] theorem State.setCh_busy (i : Fin 18) (c : ChParams) (s : State) : (s.setCh i c).busy = s.busy := rfl
@[simp] theorem State.setCh_pins (i : Fin 18) (c : ChParams) (s : State) : (s.setCh i c).pins = s.pins := rfl
@[simp] theorem State.setCh_traceRev (i : Fin 18) (c : ChParams) (s : State) : (s.setCh i c).traceRev = s.traceRev := rfl
@[simp] theorem State.setCh_tgt (i : Fin 18) (c : ChParams) (s : State) : (s.setCh i c).tgt = s.tgt := rfl

/-! ### `setLine` -/

@[simp] theorem setLine_cfg (v : Drive) (s : State) : (setLine v s).cfg = s.cfg := rfl
@[simp] theorem setLine_host (v : Drive) (s : State) : (setLine v s).host = s.host := rfl
@[simp] theorem setLine_ops (v : Drive) (s : State) : (setLine v s).ops = s.ops := rfl
@[simp] theorem setLine_chs (v : Drive) (s : State) : (setLine v s).chs = s.chs := rfl
@[simp] theorem setLine_seq (v : Drive) (s : State) : (setLine v s).seq = s.seq := rfl
@[simp] theorem setLine_begun (v : Drive) (s : State) : (setLine v s).begun = s.begun := rfl
@[simp] theorem setLine_fault (v : Drive) (s : State) : (setLine v s).fault = s.fault := rfl
@[simp] theorem setLine_faultCode (v : Drive) (s : State) : (setLine v s).faultCode = s.faultCode := rfl
@[simp] theorem setLine_faultInfo (v : Drive) (s : State) : (setLine v s).faultInfo = s.faultInfo := rfl
@[simp] theorem setLine_res (v : Drive) (s : State) : (setLine v s).res = s.res := rfl
@[simp] theorem setLine_busy (v : Drive) (s : State) : (setLine v s).busy = s.busy := rfl
@[simp] theorem setLine_pins (v : Drive) (s : State) : (setLine v s).pins = s.pins.drive v := rfl
@[simp] theorem setLine_traceRev (v : Drive) (s : State) : (setLine v s).traceRev = .set v :: s.traceRev := rfl
@[simp] theorem setLine_tgt (v : Drive) (s : State) : (setLine v s).tgt = s.tgt := rfl

/-! ### `delay` -/

@[simp] theorem delay_cfg (n : Nat) (s : State) : (delay n s).cfg = s.cfg := rfl
@[simp] theorem delay_host (n : Nat) (s : State) : (delay n s).host = s.host := rfl
@[simp] theorem delay_ops (n : Nat) (s : State) : (delay n s).ops = s.ops := rfl
@[simp] theorem delay_chs (n : Nat) (s : State) : (delay n s).chs = s.chs := rfl
@[simp] theorem delay_seq (n : Nat) (s : State) : (delay n s).seq = s.seq := rfl
@[simp] theorem delay_begun (n : Nat) (s : State) : (delay n s).begun = s.begun := rfl
@[simp] theorem delay_fault (n : Nat) (s : State) : (delay n s).fault = s.fault := rfl
@[simp] theorem delay_faultCode (n : Nat) (s : State) : (delay n s).faultCode = s.faultCode := rfl
@[simp] theorem delay_faultInfo (n : Nat) (s : State) : (delay n s).faultInfo = s.faultInfo := rfl
@[simp] theorem delay_res (n : Nat) (s : State) : (delay n s).res = s.res := rfl
@[simp] theorem delay_busy (n : Nat) (s : State) : (delay n s).busy = s.busy := rfl
@[simp] theorem delay_pins (n : Nat) (s : State) : (delay n s).pins = s.pins := rfl
@[simp] theorem delay_traceRev (n : Nat) (s : State) : (delay n s).traceRev = .delay n :: s.traceRev := rfl
@[simp] theorem delay_tgt (n : Nat) (s : State) : (delay n s).tgt = s.tgt := rfl

/-! ### `loadDefaults` -/

@[simp] theorem loadDefaults_cfg (s : State) : (loadDefaults s).cfg = s.cfg := rfl
@[simp] theorem loadDefaults_host (s : State) : (loadDefaults s).host = s.host := rfl
@[simp] theorem loadDefaults_ops (s : State) : (loadDefaults s).ops = Vector.replicate 36 s.cfg.opDefault := rfl
@[simp] theorem loadDefaults_chs (s : State) : (loadDefaults s).chs = Vector.replicate 18 s.cfg.chDefault := rfl
@[simp] theorem loadDefaults_seq (s : State) : (loadDefaults s).seq = s.seq := rfl
@[simp] theorem loadDefaults_begun (s : State) : (loadDefaults s).begun = s.begun := rfl
@[simp] theorem loadDefaults_fault (s : State) : (loadDefaults s).fault = s.fault := rfl
@[simp] theorem loadDefaults_faultCode (s : State) : (loadDefaults s).faultCode = s.faultCode := rfl
@[simp] theorem loadDefaults_faultInfo (s : State) : (loadDefaults s).faultInfo = s.faultInfo := rfl
@[simp] theorem loadDefaults_res (s : State) : (loadDefaults s).res = s.res := rfl
@[simp] theorem loadDefaults_busy (s : State) : (loadDefaults s).busy = s.busy := rfl
@[simp] theorem loadDefaults_pins (s : State) : (loadDefaults s).pins = s.pins := rfl
@[simp] theorem loadDefaults_traceRev (s : State) : (loadDefaults s).traceRev = s.traceRev := rfl
@[simp] theorem loadDefaults_tgt (s : State) : (loadDefaults s).tgt = s.tgt := rfl

/-! ### `acceptWord` -/

@[simp] theorem acceptWord_cfg (l : List HostInput) (s : State) : (acceptWord l s).cfg = s.cfg := rfl
@[simp] theorem acceptWord_host (l : List HostInput) (s : State) : (acceptWord l s).host = l := rfl
@[simp] theorem acceptWord_ops (l : List HostInput) (s : State) : (acceptWord l s).ops = s.ops := rfl
@[simp] theorem acceptWord_chs (l : List HostInput) (s : State) : (acceptWord l s).chs = s.chs := rfl
@[simp] theorem acceptWord_seq (l : List HostInput) (s : State) : (acceptWord l s).seq = s.seq := rfl
@[simp] theorem acceptWord_begun (l : List HostInput) (s : State) : (acceptWord l s).begun = s.begun := rfl
@[simp] theorem acceptWord_fault (l : List HostInput) (s : State) : (acceptWord l s).fault = s.fault := rfl
@[simp] theorem acceptWord_faultCode (l : List HostInput) (s : State) : (acceptWord l s).faultCode = s.faultCode := rfl
@[simp] theorem acceptWord_faultInfo (l : List HostInput) (s : State) : (acceptWord l s).faultInfo = s.faultInfo := rfl
@[simp] theorem acceptWord_res (l : List HostInput) (s : State) : (acceptWord l s).res = s.res := rfl
@[simp] theorem acceptWord_busy (l : List HostInput) (s : State) : (acceptWord l s).busy = true := rfl
@[simp] theorem acceptWord_pins (l : List HostInput) (s : State) : (acceptWord l s).pins = s.pins := rfl
@[simp] theorem acceptWord_traceRev (l : List HostInput) (s : State) : (acceptWord l s).traceRev = s.traceRev := rfl
@[simp] theorem acceptWord_tgt (l : List HostInput) (s : State) : (acceptWord l s).tgt = s.tgt := rfl

/-! ### `completeCommand` -/

@[simp] theorem completeCommand_cfg (s : State) : (completeCommand s).cfg = s.cfg := rfl
@[simp] theorem completeCommand_host (s : State) : (completeCommand s).host = s.host := rfl
@[simp] theorem completeCommand_ops (s : State) : (completeCommand s).ops = s.ops := rfl
@[simp] theorem completeCommand_chs (s : State) : (completeCommand s).chs = s.chs := rfl
@[simp] theorem completeCommand_seq (s : State) : (completeCommand s).seq = Seq.idle := rfl
@[simp] theorem completeCommand_begun (s : State) : (completeCommand s).begun = s.begun := rfl
@[simp] theorem completeCommand_fault (s : State) : (completeCommand s).fault = s.fault := rfl
@[simp] theorem completeCommand_faultCode (s : State) : (completeCommand s).faultCode = s.faultCode := rfl
@[simp] theorem completeCommand_faultInfo (s : State) : (completeCommand s).faultInfo = s.faultInfo := rfl
@[simp] theorem completeCommand_res (s : State) : (completeCommand s).res = s.res := rfl
@[simp] theorem completeCommand_busy (s : State) : (completeCommand s).busy = false := rfl
@[simp] theorem completeCommand_pins (s : State) : (completeCommand s).pins = s.pins := rfl
@[simp] theorem completeCommand_traceRev (s : State) : (completeCommand s).traceRev = s.traceRev := rfl
@[simp] theorem completeCommand_tgt (s : State) : (completeCommand s).tgt = s.tgt := rfl

/-! ### Drives -/

@[simp] theorem Pins.drive_rst_of_mode (p : Pins) (v : Phase) : (p.drive (.mode v)).rst = p.rst := rfl
@[simp] theorem Pins.drive_rst_of_bank (p : Pins) (v : BitVec 1) : (p.drive (.bank v)).rst = p.rst := rfl
@[simp] theorem Pins.drive_rst_of_cs (p : Pins) (v : Select) : (p.drive (.cs v)).rst = p.rst := rfl
@[simp] theorem Pins.drive_rst_of_wr (p : Pins) (v : Level) : (p.drive (.wr v)).rst = p.rst := rfl
@[simp] theorem Pins.drive_rst_of_d (p : Pins) (v : Byte) : (p.drive (.d v)).rst = p.rst := rfl
@[simp] theorem Pins.drive_rst_of_rst (p : Pins) (v : ResetLine) : (p.drive (.rst v)).rst = v := rfl

/-! ### One record of a file -/

@[simp] theorem State.op_setOp_same (i : Fin 36) (o : OpParams) (s : State) : (s.setOp i o).op i = o := by
  simp [State.op, Vector.get_eq_getElem]

theorem State.op_setOp_other {i j : Fin 36} (h : j ≠ i) (o : OpParams) (s : State) : (s.setOp i o).op j = s.op j := by
  have hv : i.val ≠ j.val := fun e => h (Fin.ext e.symm)
  simp [State.op, Vector.get_eq_getElem, hv]

@[simp] theorem State.ch_setOp (i : Fin 36) (o : OpParams) (s : State) (j : Fin 18) : (s.setOp i o).ch j = s.ch j := rfl

@[simp] theorem State.ch_setCh_same (i : Fin 18) (c : ChParams) (s : State) : (s.setCh i c).ch i = c := by
  simp [State.ch, Vector.get_eq_getElem]

theorem State.ch_setCh_other {i j : Fin 18} (h : j ≠ i) (c : ChParams) (s : State) : (s.setCh i c).ch j = s.ch j := by
  have hv : i.val ≠ j.val := fun e => h (Fin.ext e.symm)
  simp [State.ch, Vector.get_eq_getElem, hv]

@[simp] theorem State.op_setCh (i : Fin 18) (c : ChParams) (s : State) (j : Fin 36) : (s.setCh i c).op j = s.op j := rfl

@[simp] theorem State.op_loadDefaults (s : State) (i : Fin 36) : (loadDefaults s).op i = s.cfg.opDefault := by
  simp [State.op, Vector.get_eq_getElem]

@[simp] theorem State.ch_loadDefaults (s : State) (i : Fin 18) : (loadDefaults s).ch i = s.cfg.chDefault := by
  simp [State.ch, Vector.get_eq_getElem]

/-! ### The observations -/

@[simp] theorem State.pinTrace_setLine (v : Drive) (s : State) : (setLine v s).pinTrace = s.pinTrace ++ [.set v] := by
  simp [State.pinTrace]

@[simp] theorem State.pinTrace_delay (n : Nat) (s : State) : (delay n s).pinTrace = s.pinTrace ++ [.delay n] := by
  simp [State.pinTrace]

end Sys2Proof.Machine
end

