-- ==== Sys2Proof/Laws/Ops.lean ====
section
/-! SUPPORT. One lemma for each shared operation: everything it can do. -/

namespace Sys2Proof.Machine

/-! ### The target -/

theorem Target.lands_iff (aExt a : Addr) (t : Target) :
    t.lands aExt a = true ↔ a.getLsbD 8 = false ∨ a = aExt ∨ t.ext = some true := by
  simp only [Target.lands, Bool.or_eq_true, Bool.not_eq_true', beq_iff_eq, or_assoc]

theorem Target.read_write (aExt a b : Addr) (d : Byte) (t : Target) :
    (t.write aExt a d).shadow.read b =
      if a = b then (if b.getLsbD 8 = false ∨ b = aExt ∨ t.ext = some true then some d else none)
      else t.shadow.read b := by
  unfold Target.write
  by_cases hab : a = b
  · subst a
    by_cases h : t.lands aExt b = true
    · simp only [h, if_true, Memory.read_put, if_pos ((t.lands_iff aExt b).mp h)]
    · simp only [Bool.not_eq_true _ ▸ h, Bool.false_eq_true, if_false, Memory.read_forget, if_true,
        if_neg (mt (t.lands_iff aExt b).mpr h)]
  · have hba : ¬ b = a := fun e => hab e.symm
    simp only [hab, if_false]
    split
    · simp only [Memory.read_put, hba, if_false]
    · simp only [Memory.read_forget, hba, if_false]

theorem Target.ext_write (aExt a : Addr) (d : Byte) (t : Target) :
    (t.write aExt a d).ext = if a = aExt then some (d.getLsbD 0) else t.ext := rfl

theorem Target.wf_write {t : Target} (h : t.shadow.wf) (aExt a : Addr) (d : Byte) :
    (t.write aExt a d).shadow.wf := by
  unfold Target.write
  simp only
  split
  · exact Memory.wf_put h a d
  · exact Memory.wf_forget h a

/-! ### One transaction -/

/-- The bank line and the data lines of an address phase carry the address (20_memory.md R62). -/
theorem addr_split (a : Addr) : a.extractLsb' 8 1 ++ a.extractLsb' 0 8 = a := by
  apply BitVec.eq_of_getLsbD_eq
  intro i hi
  simp only [BitVec.getLsbD_append, BitVec.getLsbD_extractLsb']
  by_cases h : i < 8
  · simp [h]
  · have : i = 8 := by omega
    subst this
    simp

/-- The pins after the transaction `(a, d)`. -/
def pinsAfter (a : Addr) (d : Byte) (p : Pins) : Pins := ⟨.data, a.extractLsb' 8 1, .off, .high, p.rst, d⟩

/-- The target after the transaction `(a, d)`: one register write, and the address stays latched. -/
def targetAfter (aExt a : Addr) (d : Byte) (t : Target) : Target := { t.write aExt a d with addr := some a }

/-- Everything a transaction does, from any pins and any target. -/
theorem busWrite_eq (w : Nat) (a : Addr) (d : Byte) (s : State) :
    busWrite w a d s =
      { s with
        seq := ⟨w, 11⟩
        pins := pinsAfter a d s.pins
        traceRev := (transactionEvents s.cfg.toParams a d).reverse ++ s.traceRev
        tgt := targetAfter s.cfg.aExt a d s.tgt } := by
  have h := addr_split a
  simp only [busWrite, busSteps, busStep, busAction, List.range', List.foldl, strobe, endPulse, setLine, delay,
    Pins.drive, Target.pulse, h, pinsAfter, targetAfter, transactionEvents, strobeEvents, Target.write, Target.lands]
  rfl

/-! ### A command's transactions -/

/-- The pins after the transactions `l`. -/
def pinsAfterAll (l : List (Addr × Byte)) (p : Pins) : Pins := l.foldl (fun p x => pinsAfter x.1 x.2 p) p

/-- The target after the transactions `l`. -/
def targetAfterAll (aExt : Addr) (l : List (Addr × Byte)) (t : Target) : Target :=
  l.foldl (fun t x => targetAfter aExt x.1 x.2 t) t

/-- The events of the transactions `l`. -/
def eventsOf (p : Params) (l : List (Addr × Byte)) : List PinEvent := l.flatMap fun x => transactionEvents p x.1 x.2

/-- The steps of the first transaction. -/
theorem busProgressFrom_first {w : Nat} {x : Addr × Byte} {l : List (Addr × Byte)} {k : Nat} (h : k ≤ 11) (s : State) :
    busProgressFrom w (x :: l) k s = busSteps w x.1 x.2 k s := if_pos h

/-- The steps after the first transaction. -/
theorem busProgressFrom_rest {w : Nat} {x : Addr × Byte} {l : List (Addr × Byte)} {k : Nat} (s : State) :
    busProgressFrom w (x :: l) (k + 11) s = busProgressFrom (w + 1) l k (busWrite w x.1 x.2 s) := by
  rcases Nat.eq_zero_or_pos k with rfl | h
  · rw [busProgressFrom_first (Nat.le_refl _)]
    cases l <;> rfl
  · rw [busProgressFrom, if_neg (by omega), Nat.add_sub_cancel]

/-- Everything the transactions do, but for the position the last leaves. -/
theorem busProgressFrom_all (l : List (Addr × Byte)) (w : Nat) (s : State) :
    { busProgressFrom w l (11 * l.length) s with seq := Seq.idle } =
      { s with
        seq := Seq.idle
        pins := pinsAfterAll l s.pins
        traceRev := (eventsOf s.cfg.toParams l).reverse ++ s.traceRev
        tgt := targetAfterAll s.cfg.aExt l s.tgt } := by
  induction l generalizing w s with
  | nil => rfl
  | cons x l ih =>
    rw [List.length_cons, Nat.mul_succ, busProgressFrom_rest, ih, busWrite_eq]
    simp [pinsAfterAll, targetAfterAll, eventsOf]

theorem busWrites_eq (l : List (Addr × Byte)) (s : State) :
    busWrites l s =
      { s with
        seq := Seq.idle
        pins := pinsAfterAll l s.pins
        traceRev := (eventsOf s.cfg.toParams l).reverse ++ s.traceRev
        tgt := targetAfterAll s.cfg.aExt l s.tgt } := busProgressFrom_all l 0 s

theorem wlog_targetAfterAll (aExt : Addr) (l : List (Addr × Byte)) (t : Target) :
    (targetAfterAll aExt l t).wlogRev = l.reverse ++ t.wlogRev := by
  induction l generalizing t with
  | nil => rfl
  | cons x l ih =>
    have := ih (targetAfter aExt x.1 x.2 t)
    simp only [targetAfterAll, List.foldl_cons] at this ⊢
    rw [this]
    simp [targetAfter, Target.write]

theorem ext_targetAfterAll (aExt : Addr) (l : List (Addr × Byte)) (t : Target) :
    (targetAfterAll aExt l t).ext = l.foldl (fun e x => if x.1 = aExt then some (x.2.getLsbD 0) else e) t.ext := by
  induction l generalizing t with
  | nil => rfl
  | cons x l ih => exact ih (targetAfter aExt x.1 x.2 t)

theorem read_targetAfterAll (aExt b : Addr) (l : List (Addr × Byte)) (t : Target) :
    (targetAfterAll aExt l t).shadow.read b = contentAfter aExt b l (t.shadow.read b) t.ext := by
  induction l generalizing t with
  | nil => rfl
  | cons x l ih =>
    have := ih (targetAfter aExt x.1 x.2 t)
    simp only [targetAfterAll, List.foldl_cons] at this ⊢
    rw [this]
    simp only [contentAfter, targetAfter, Target.read_write, Target.ext_write]

theorem wf_targetAfterAll {t : Target} (h : t.shadow.wf) (aExt : Addr) (l : List (Addr × Byte)) :
    (targetAfterAll aExt l t).shadow.wf := by
  induction l generalizing t with
  | nil => exact h
  | cons x l ih => exact ih (t := targetAfter aExt x.1 x.2 t) (Target.wf_write h aExt x.1 x.2)

theorem pinsAfterAll_append (l : List (Addr × Byte)) (x : Addr × Byte) (p : Pins) :
    pinsAfterAll (l ++ [x]) p = pinsAfter x.1 x.2 (pinsAfterAll l p) := by simp [pinsAfterAll]

theorem addr_targetAfterAll_append (aExt : Addr) (l : List (Addr × Byte)) (x : Addr × Byte) (t : Target) :
    (targetAfterAll aExt (l ++ [x]) t).addr = some x.1 := by simp [targetAfterAll, targetAfter]

@[simp] theorem rst_pinsAfterAll (l : List (Addr × Byte)) (p : Pins) : (pinsAfterAll l p).rst = p.rst := by
  induction l generalizing p with
  | nil => rfl
  | cons x l ih => exact ih (pinsAfter x.1 x.2 p)

/-- A location no transaction writes keeps its content. -/
theorem contentAfter_outside {aExt b : Addr} {l : List (Addr × Byte)} (h : ∀ x ∈ l, x.1 ≠ b) (v : Option Byte)
    (e : Option Bool) : contentAfter aExt b l v e = v := by
  induction l generalizing v e with
  | nil => rfl
  | cons x l ih =>
    have hx : x.1 ≠ b := h x List.mem_cons_self
    simp only [contentAfter, hx, if_false]
    exact ih (fun y hy => h y (List.mem_cons_of_mem _ hy)) v _

/-- A command's transactions are issued, and nothing else is. -/
theorem busWrites_issued {l : List (Addr × Byte)} (hl : l ≠ []) (s : State) : Issued l s (busWrites l s) := by
  rw [busWrites_eq]
  obtain ⟨l', x, rfl⟩ : ∃ l' x, l = l' ++ [x] := ⟨_, _, (List.dropLast_append_getLast hl).symm⟩
  exact
    { trace := by simp [State.pinTrace, eventsOf]
      log := by simp [State.writeLog, wlog_targetAfterAll]
      pins := ⟨x, by simp, by simp [pinsAfterAll_append, PinsAfter, pinsAfter],
        addr_targetAfterAll_append s.cfg.aExt l' x s.tgt⟩
      seq := rfl
      contents := fun b => read_targetAfterAll s.cfg.aExt b (l' ++ [x]) s.tgt
      outside := fun b hb => (read_targetAfterAll s.cfg.aExt b (l' ++ [x]) s.tgt).trans (contentAfter_outside hb _ _)
      ext := ext_targetAfterAll s.cfg.aExt (l' ++ [x]) s.tgt }

/-! ### Faults and admission -/

theorem raise_eq_of_clear {s : State} (h : s.fault = false) (c : Cause) (cw : CmdWord) :
    raise c cw s = s.setFault c cw := by simp [raise, h]

theorem raise_eq_of_faulted {s : State} (h : s.fault = true) (c : Cause) (cw : CmdWord) : raise c cw s = s := by
  simp [raise, h]

theorem runCommand_faulted {s : State} (h : s.fault = true) (i : Instr) (body : State → Except Cause State) :
    runCommand i body s = .next s := by simp [runCommand, h]

/-- What a command can do: it is ignored, it raises a fault and nothing else, or it runs its effects. -/
theorem runCommand_cases {i : Instr} {body : State → Except Cause State} {s t : State}
    (h : runCommand i body s = .next t) :
    (s.fault = true ∧ t = s) ∨ (s.fault = false ∧ ∃ c, t = s.setFault c (encode i)) ∨
      (s.fault = false ∧ (s.begun = true ∨ i = .begin) ∧ body s = .ok t) := by
  unfold runCommand at h
  cases hf : s.fault with
  | true => simp_all
  | false =>
    simp only [hf, Bool.false_eq_true, if_false, raise_eq_of_clear hf] at h
    split at h
    · exact .inr (.inl ⟨rfl, _, (Host.Outcome.next.inj h).symm⟩)
    · split at h
      · exact .inr (.inl ⟨rfl, _, (Host.Outcome.next.inj h).symm⟩)
      · rename_i hb
        have hb : s.begun = true ∨ i = .begin := by
          cases hbeg : s.begun <;> simp_all
        split at h
        · rename_i hbody
          exact .inr (.inr ⟨rfl, hb, hbody.trans (congrArg _ (Host.Outcome.next.inj h))⟩)
        · exact .inr (.inl ⟨rfl, _, (Host.Outcome.next.inj h).symm⟩)

/-- A command that is admitted and whose checks pass runs its effects. -/
theorem runCommand_ok {i : Instr} {body : State → Except Cause State} {s t : State} (hf : s.fault = false)
    (hw : i.wellFormed = true) (hb : s.begun = true ∨ i = .begin) (h : body s = .ok t) :
    runCommand i body s = .next t := by
  unfold runCommand
  rcases hb with hb | rfl <;> simp_all

/-- A command that is admitted and whose checks fail raises their cause. -/
theorem runCommand_error {i : Instr} {body : State → Except Cause State} {s : State} {c : Cause} (hf : s.fault = false)
    (hw : i.wellFormed = true) (hb : s.begun = true ∨ i = .begin) (h : body s = .error c) :
    runCommand i body s = .next (s.setFault c (encode i)) := by
  unfold runCommand
  rcases hb with hb | rfl <;> simp_all [raise]

/-! ### Operands -/

theorem opIndex_of_lt {idx : BitVec 6} (h : idx.toNat < 36) : opIndex idx = .ok ⟨idx.toNat, h⟩ := by
  simp [opIndex, h]

theorem opIndex_of_ge {idx : BitVec 6} (h : 36 ≤ idx.toNat) : opIndex idx = .error .operatorIndexRange := by
  simp [opIndex, Nat.not_lt.mpr h]

theorem chIndex_of_lt {idx : BitVec 6} (h : idx.toNat < 18) : chIndex idx = .ok ⟨idx.toNat, h⟩ := by
  simp [chIndex, h]

theorem chIndex_of_ge {idx : BitVec 6} (h : 18 ≤ idx.toNat) : chIndex idx = .error .channelIndexRange := by
  simp [chIndex, Nat.not_lt.mpr h]

/-- Truncation to one bit keeps bit 0. -/
theorem toNat_bit_zero (v : BitVec 10) : v[0].toNat = v.toNat % 2 := by
  rw [← BitVec.getLsbD_eq_getElem, BitVec.getLsbD, Nat.testBit_zero]
  rcases Nat.mod_two_eq_zero_or_one v.toNat with h | h <;> simp [h]

theorem waveCode_waveOfCode (c : BitVec 2) : waveCode (waveOfCode c) = c := by
  revert c
  decide

theorem waveOfCode_waveCode (w : Waveform) : waveOfCode (waveCode w) = w := by cases w <;> rfl

/-- A field written holds the low bits of the value (30_encoding.md R98). -/
theorem readOpField_write_same (f : OpField) (v : BitVec 10) (o : OpParams) :
    readOpField f (writeOpField f v o) = v.toNat % 2 ^ f.width := by
  cases f <;> simp [readOpField, writeOpField, OpField.width, toNat_bit_zero, waveCode_waveOfCode]

/-- Every other field stays. -/
theorem readOpField_write_other {f g : OpField} (h : g ≠ f) (v : BitVec 10) (o : OpParams) :
    readOpField g (writeOpField f v o) = readOpField g o := by
  cases f <;> cases g <;> first | exact absurd rfl h | rfl

theorem readChField_write_same (f : ChField) (v : BitVec 10) (c : ChParams) :
    readChField f (writeChField f v c) = v.toNat % 2 ^ f.width := by
  cases f <;> simp [readChField, writeChField, ChField.width, toNat_bit_zero]
  exact (Nat.mod_eq_of_lt v.isLt).symm

theorem readChField_write_other {f g : ChField} (h : g ≠ f) (v : BitVec 10) (c : ChParams) :
    readChField g (writeChField f v c) = readChField g c := by
  cases f <;> cases g <;> first | exact absurd rfl h | rfl

end Sys2Proof.Machine
end

