-- ==== Sys2Proof/Laws/Reset.lean ====
section
/-! SUPPORT. Everything the parts of the reset sequence do (41_reset_init.md). -/

namespace Sys2Proof.Machine

/-- The pins after `PinInit()`. -/
def pinsAfterInit (p : Params) (q : Pins) : Pins :=
  ⟨.addr, 0, .off, .high, if p.hasResetLine then .inactive else q.rst, 0⟩

/-- Everything `PinInit()` does: no pulse, so nothing in the target. -/
theorem pinInit_eq (s : State) :
    pinInit s =
      { s with
        pins := pinsAfterInit s.cfg.toParams s.pins
        traceRev := (pinInitEvents s.cfg.toParams).reverse ++ s.traceRev } := by
  cases h : s.cfg.hasResetLine <;> simp [pinInit, setLine, Pins.drive, pinsAfterInit, pinInitEvents, h]

/-! ### The reset pulse, field by field -/

@[simp] theorem Target.hardwareReset_wlogRev (t : Target) : t.hardwareReset.wlogRev = t.wlogRev := by rw [Target.hardwareReset]
@[simp] theorem Target.hardwareReset_shadow (t : Target) : t.hardwareReset.shadow = Memory.allZero := by rw [Target.hardwareReset]
@[simp] theorem Target.hardwareReset_addr (t : Target) : t.hardwareReset.addr = none := by rw [Target.hardwareReset]
@[simp] theorem Target.hardwareReset_ext (t : Target) : t.hardwareReset.ext = some false := by rw [Target.hardwareReset]

/-- Everything `HardwareResetPath()` does. -/
theorem hardwareResetPath_eq (s : State) :
    hardwareResetPath s =
      { s with
        pins := { s.pins with rst := .inactive }
        traceRev := (resetPulseEvents s.cfg.toParams).reverse ++ s.traceRev
        tgt := s.tgt.hardwareReset } := by
  simp [hardwareResetPath, setLine, delay, Pins.drive, resetPulseEvents]

/-- Everything `ResetSequence()` does with a reset line. -/
theorem resetSequence_hardware {s : State} (h : s.cfg.hasResetLine = true) :
    resetSequence s =
      { loadDefaults s with
        seq := Seq.idle
        pins := pinsAfterAll (baselineWrites s.cfg.toParams) { s.pins with rst := .inactive }
        traceRev := (eventsOf s.cfg.toParams (baselineWrites s.cfg.toParams)).reverse ++
          ((resetPulseEvents s.cfg.toParams).reverse ++ s.traceRev)
        tgt := targetAfterAll s.cfg.aExt (baselineWrites s.cfg.toParams) s.tgt.hardwareReset } := by
  simp [resetSequence, h, busWrites_eq, hardwareResetPath_eq]

/-- Everything `ResetSequence()` does without one. -/
theorem resetSequence_software {s : State} (h : s.cfg.hasResetLine = false) :
    resetSequence s =
      { loadDefaults s with
        seq := Seq.idle
        pins := pinsAfterAll (softwareWipe s.cfg.toParams ++ baselineWrites s.cfg.toParams) s.pins
        traceRev := (eventsOf s.cfg.toParams (softwareWipe s.cfg.toParams ++ baselineWrites s.cfg.toParams)).reverse ++
          s.traceRev
        tgt := targetAfterAll s.cfg.aExt (softwareWipe s.cfg.toParams ++ baselineWrites s.cfg.toParams) s.tgt } := by
  simp [resetSequence, h, busWrites_eq]

theorem length_addressesUp (lo hi : Nat) : (addressesUp lo hi).length = hi + 1 - lo := by simp [addressesUp]

theorem mem_addressesUp {lo hi : Nat} (h : hi < 512) {a : Addr} :
    a ∈ addressesUp lo hi ↔ lo ≤ a.toNat ∧ a.toNat ≤ hi := by
  simp only [addressesUp, List.mem_map, List.mem_range'_1]
  constructor
  · rintro ⟨k, ⟨h1, h2⟩, rfl⟩
    rw [BitVec.toNat_ofNat, Nat.mod_eq_of_lt (by omega)]
    omega
  · rintro ⟨h1, h2⟩
    exact ⟨a.toNat, ⟨h1, by omega⟩, by simp⟩

theorem nodup_addressesUp {lo hi : Nat} (h : hi < 512) : (addressesUp lo hi).Nodup := by
  refine List.Nodup.map_on (fun x hx y hy e => ?_) List.nodup_range'
  rw [List.mem_range'_1] at hx hy
  have := congrArg BitVec.toNat e
  rwa [BitVec.toNat_ofNat, BitVec.toNat_ofNat, Nat.mod_eq_of_lt (by omega), Nat.mod_eq_of_lt (by omega)] at this

end Sys2Proof.Machine
end

