-- ==== Sys2Proof/Laws/Exec.lean ====
section
/-! SUPPORT. One form for all commands: admission, then the command's own checks and effects; and everything a command can
answer. -/

namespace Sys2Proof.Machine

/-- A command's own checks and effects, once it is admitted. -/
def commandBody : Instr → State → Except Cause State
  | .begin, s => .ok (resetSequence (pinInit s)).setBegun
  | .reset, s => .ok (resetSequence s)
  | .write addr data, s => .ok (busWrites [(addr, data)] s)
  | .opoff idx, s =>
    match opIndex idx with
    | .error c => .error c
    | .ok i => .ok (s.setRes (operatorOffset i))
  | .choff idx, s =>
    match chIndex idx with
    | .error c => .error c
    | .ok i => .ok (s.setRes (channelOffset i))
  | .updop idx, s =>
    match opIndex idx with
    | .error c => .error c
    | .ok i => .ok (busWrites (updopWrites s.cfg.toParams i (s.op i)) s)
  | .keyon idx, s =>
    match chIndex idx with
    | .error c => .error c
    | .ok i => .ok (busWrites (keyonWrites s.cfg.toParams i ((setKeyOn i true s).ch i)) (setKeyOn i true s))
  | .keyoff idx, s =>
    match chIndex idx with
    | .error c => .error c
    | .ok i => .ok (busWrites (keyoffWrites s.cfg.toParams i ((setKeyOn i false s).ch i)) (setKeyOn i false s))
  | .setfreq idx freq, s =>
    match chIndex idx, convert s.cfg.toParams freq.toNat with
    | .error c, _ => .error c
    | .ok _, .error c => .error c
    | .ok i, .ok (f, b) => .ok (setFrequency i f b s)
  | .opset idx fsel val, s =>
    match opIndex idx, opField fsel with
    | .error c, _ => .error c
    | .ok _, .error c => .error c
    | .ok i, .ok f => .ok (s.setOp i (writeOpField f val (s.op i)))
  | .chset idx fsel val, s =>
    match chIndex idx, chField fsel with
    | .error c, _ => .error c
    | .ok _, .error c => .error c
    | .ok i, .ok f => .ok (s.setCh i (writeChField f val (s.ch i)))

/-- Every command is admission followed by its body. -/
theorem exec_eq (i : Instr) (s : State) : exec i s = runCommand i (commandBody i) s := by cases i <;> rfl

/-! ### The own checks -/

/-- Least halvings above 7 means the value was at least 2^17. -/
theorem block_overflow_iff {f k : Nat} (h : f / 2 ^ k < 1024) (h' : k = 0 ∨ 1024 ≤ f / 2 ^ (k - 1)) :
    7 < k ↔ 2 ^ 17 ≤ f := by
  constructor
  · intro h7
    rcases h' with h' | h'
    · omega
    · have : f / 2 ^ (k - 1) ≤ f / 2 ^ 7 :=
        Nat.div_le_div_left (Nat.pow_le_pow_right (by decide) (by omega)) (by decide)
      omega
  · intro hf
    by_contra hk
    have : f / 2 ^ 7 ≤ f / 2 ^ k :=
      Nat.div_le_div_left (Nat.pow_le_pow_right (by decide) (by omega)) (Nat.pow_pos (by decide))
    omega

theorem opField_ok {fsel : BitVec 4} (h : opSelectorOk fsel = true) : ∃ f, opField fsel = .ok f := by
  have : ∀ g : BitVec 4, opSelectorOk g = true → (opField g).toBool = true := by decide
  cases e : opField fsel with
  | ok f => exact ⟨f, rfl⟩
  | error c => simpa [e, Except.toBool] using this fsel h

theorem chField_ok {fsel : BitVec 4} (h : chSelectorOk fsel = true) : ∃ f, chField fsel = .ok f := by
  have : ∀ g : BitVec 4, chSelectorOk g = true → (chField g).toBool = true := by decide
  cases e : chField fsel with
  | ok f => exact ⟨f, rfl⟩
  | error c => simpa [e, Except.toBool] using this fsel h

theorem opIndex_cases (idx : BitVec 6) :
    (35 < idx.toNat ∧ opIndex idx = .error .operatorIndexRange) ∨
      ∃ h : idx.toNat < 36, opIndex idx = .ok ⟨idx.toNat, h⟩ := by
  by_cases h : idx.toNat < 36
  · exact .inr ⟨h, opIndex_of_lt h⟩
  · exact .inl ⟨by omega, opIndex_of_ge (by omega)⟩

theorem chIndex_cases (idx : BitVec 6) :
    (17 < idx.toNat ∧ chIndex idx = .error .channelIndexRange) ∨
      ∃ h : idx.toNat < 18, chIndex idx = .ok ⟨idx.toNat, h⟩ := by
  by_cases h : idx.toNat < 18
  · exact .inr ⟨h, chIndex_of_lt h⟩
  · exact .inl ⟨by omega, chIndex_of_ge (by omega)⟩

/-- A command's own checks find the cause `ownCause` says, or pass. -/
theorem commandBody_checks {i : Instr} (hw : i.wellFormed = true) (s : State) :
    match ownCause s.cfg.toParams i with
    | some c => commandBody i s = .error c
    | none => ∃ t, commandBody i s = .ok t := by
  cases i with
  | begin => exact ⟨_, rfl⟩
  | reset => exact ⟨_, rfl⟩
  | write a d => exact ⟨_, rfl⟩
  | opoff idx =>
    rcases opIndex_cases idx with ⟨h, e⟩ | ⟨h, e⟩
    · simp [ownCause, indexAbove, commandBody, e, h]
    · simp [ownCause, indexAbove, commandBody, e, Nat.not_lt.mpr (Nat.le_of_lt_succ h)]
  | choff idx =>
    rcases chIndex_cases idx with ⟨h, e⟩ | ⟨h, e⟩
    · simp [ownCause, indexAbove, commandBody, e, h]
    · simp [ownCause, indexAbove, commandBody, e, Nat.not_lt.mpr (Nat.le_of_lt_succ h)]
  | updop idx =>
    rcases opIndex_cases idx with ⟨h, e⟩ | ⟨h, e⟩
    · simp [ownCause, indexAbove, commandBody, e, h]
    · simp [ownCause, indexAbove, commandBody, e, Nat.not_lt.mpr (Nat.le_of_lt_succ h)]
  | keyon idx =>
    rcases chIndex_cases idx with ⟨h, e⟩ | ⟨h, e⟩
    · simp [ownCause, indexAbove, commandBody, e, h]
    · simp [ownCause, indexAbove, commandBody, e, Nat.not_lt.mpr (Nat.le_of_lt_succ h)]
  | keyoff idx =>
    rcases chIndex_cases idx with ⟨h, e⟩ | ⟨h, e⟩
    · simp [ownCause, indexAbove, commandBody, e, h]
    · simp [ownCause, indexAbove, commandBody, e, Nat.not_lt.mpr (Nat.le_of_lt_succ h)]
  | setfreq idx freq =>
    rcases chIndex_cases idx with ⟨h, e⟩ | ⟨h, e⟩
    · simp [ownCause, indexAbove, commandBody, e, h]
    · have h' : ¬ 17 < idx.toNat := by omega
      rcases convert_spec s.cfg freq.toNat with ⟨hf, hc⟩ | ⟨hf, k, hlt, hle, hc⟩
      · simp [ownCause, indexAbove, commandBody, e, h', hf, hc]
      · have hf' : ¬ 2 ^ (s.cfg.wInt - 20) ≤ freq.toNat := by omega
        have h7 := block_overflow_iff hlt hle
        unfold rawFNumber at h7
        rcases hc with ⟨hk, hc⟩ | ⟨hk, hc⟩
        · simp only [ownCause, indexAbove, commandBody, e, h', hf', hc, h7.mp hk, decide_false, Bool.false_eq_true,
            if_false, if_true]
        · have hb : ¬ 2 ^ 17 ≤ freq.toNat * 2 ^ 20 / (s.cfg.clockHz / 288) := fun hb => by
            have := h7.mpr hb
            omega
          simp only [ownCause, indexAbove, commandBody, e, h', hf', hc, hb, decide_false, Bool.false_eq_true, if_false]
          exact ⟨_, rfl⟩
  | opset idx fsel val =>
    obtain ⟨f, hf⟩ := opField_ok (fsel := fsel) hw
    rcases opIndex_cases idx with ⟨h, e⟩ | ⟨h, e⟩
    · simp [ownCause, indexAbove, commandBody, e, h]
    · simp [ownCause, indexAbove, commandBody, e, hf, Nat.not_lt.mpr (Nat.le_of_lt_succ h)]
  | chset idx fsel val =>
    obtain ⟨f, hf⟩ := chField_ok (fsel := fsel) hw
    rcases chIndex_cases idx with ⟨h, e⟩ | ⟨h, e⟩
    · simp [ownCause, indexAbove, commandBody, e, h]
    · simp [ownCause, indexAbove, commandBody, e, hf, Nat.not_lt.mpr (Nat.le_of_lt_succ h)]

/-- Everything a command answers: ignored, one fault and nothing else, or its body's effects. -/
theorem exec_spec (i : Instr) (s : State) :
    (s.fault = true ∧ exec i s = .next s) ∨
    (s.fault = false ∧ ∃ c, faultCause i s = some c ∧ exec i s = .next (s.setFault c (encode i))) ∨
    (s.fault = false ∧ faultCause i s = none ∧ ∃ t, commandBody i s = .ok t ∧ exec i s = .next t) := by
  cases hf : s.fault with
  | true => exact .inl ⟨rfl, (exec_eq i s).trans (runCommand_faulted hf i _)⟩
  | false =>
    refine .inr ?_
    cases hw : i.wellFormed with
    | false => exact .inl ⟨rfl, .illegalCommand, by simp [faultCause, hw], by simp [exec_eq, runCommand, hf, hw, raise]⟩
    | true =>
      cases hb : !s.begun && i != .begin with
      | true =>
        exact .inl ⟨rfl, .notBegun, by simp only [faultCause, hw, hb]; rfl, by
          simp only [exec_eq, runCommand, hf, hw, hb, raise]; rfl⟩
      | false =>
        have hb' : s.begun = true ∨ i = .begin := by
          cases h : s.begun <;> simp_all
        have hc := commandBody_checks hw s
        have hfc : faultCause i s = ownCause s.cfg.toParams i := by simp only [faultCause, hw, hb]; rfl
        rw [← hfc] at hc
        cases h : faultCause i s with
        | some c =>
          rw [h] at hc
          exact .inl ⟨rfl, c, rfl, (exec_eq i s).trans (runCommand_error hf hw hb' hc)⟩
        | none =>
          rw [h] at hc
          obtain ⟨t, ht⟩ := hc
          exact .inr ⟨rfl, rfl, t, ht, (exec_eq i s).trans (runCommand_ok hf hw hb' ht)⟩

/-- Inversion of an answer. -/
theorem exec_cases {i : Instr} {s t : State} (h : exec i s = .next t) :
    (s.fault = true ∧ t = s) ∨
    (s.fault = false ∧ ∃ c, faultCause i s = some c ∧ t = s.setFault c (encode i)) ∨
    (s.fault = false ∧ faultCause i s = none ∧ commandBody i s = .ok t) := by
  rcases exec_spec i s with ⟨hf, e⟩ | ⟨hf, c, hc, e⟩ | ⟨hf, hc, u, hu, e⟩
  · exact .inl ⟨hf, (Host.Outcome.next.inj (e.symm.trans h)).symm⟩
  · exact .inr (.inl ⟨hf, c, hc, (Host.Outcome.next.inj (e.symm.trans h)).symm⟩)
  · exact .inr (.inr ⟨hf, hc, (Host.Outcome.next.inj (e.symm.trans h)) ▸ hu⟩)

/-! ### What a body does -/

/-- The events a command's transactions are preceded by. -/
def leadEvents (p : Params) : Instr → List PinEvent
  | .begin => pinInitEvents p ++ if p.hasResetLine then resetPulseEvents p else []
  | .reset => if p.hasResetLine then resetPulseEvents p else []
  | .write _ _ | .opoff _ | .choff _ | .updop _ | .keyon _ | .keyoff _ | .setfreq _ _ | .opset _ _ _ | .chset _ _ _ => []

/-- The pins and the target the transactions start from. -/
def leadPins (p : Params) (q : Pins) : Instr → Pins
  | .begin => if p.hasResetLine then { pinsAfterInit p q with rst := .inactive } else pinsAfterInit p q
  | .reset => if p.hasResetLine then { q with rst := .inactive } else q
  | .write _ _ | .opoff _ | .choff _ | .updop _ | .keyon _ | .keyoff _ | .setfreq _ _ | .opset _ _ _ | .chset _ _ _ => q

/-- The target the transactions start from. -/
def leadTarget (p : Params) (t : Target) : Instr → Target
  | .begin | .reset => if p.hasResetLine then t.hardwareReset else t
  | .write _ _ | .opoff _ | .choff _ | .updop _ | .keyon _ | .keyoff _ | .setfreq _ _ | .opset _ _ _ | .chset _ _ _ => t

/-- The bus side of a body's result is the lead followed by the command's transactions; the inputs and the fault registers
stay. -/
theorem commandBody_bus {i : Instr} {s t : State} (hf : s.fault = false) (hc : faultCause i s = none)
    (h : commandBody i s = .ok t) :
    t.cfg = s.cfg ∧ t.host = s.host ∧ t.busy = s.busy ∧ t.fault = s.fault ∧ t.faultCode = s.faultCode ∧
    t.faultInfo = s.faultInfo ∧ (s.seq = Seq.idle → t.seq = Seq.idle) ∧
    t.traceRev = (leadEvents s.cfg.toParams i ++ eventsOf s.cfg.toParams (issuedBy i s)).reverse ++ s.traceRev ∧
    t.pins = pinsAfterAll (issuedBy i s) (leadPins s.cfg.toParams s.pins i) ∧
    t.tgt = targetAfterAll s.cfg.aExt (issuedBy i s) (leadTarget s.cfg.toParams s.tgt i) := by
  cases i with
  | begin =>
    injection h with h
    subst h
    have hl' : (pinInit s).cfg = s.cfg := by rw [pinInit_eq]
    cases hr : s.cfg.hasResetLine
    · rw [resetSequence_software (by rw [hl']; exact hr)]
      simp [pinInit_eq, issuedBy, hf, hc, hr, resetWrites, baselineWrites, leadEvents, leadPins, leadTarget,
        State.setBegun, loadDefaults]
    · rw [resetSequence_hardware (by rw [hl']; exact hr)]
      simp [pinInit_eq, issuedBy, hf, hc, hr, resetWrites, baselineWrites, leadEvents, leadPins, leadTarget,
        State.setBegun, loadDefaults]
  | reset =>
    injection h with h
    subst h
    cases hr : s.cfg.hasResetLine
    · rw [resetSequence_software hr]
      simp [issuedBy, hf, hc, hr, resetWrites, baselineWrites, leadEvents, leadPins, leadTarget, loadDefaults]
    · rw [resetSequence_hardware hr]
      simp [issuedBy, hf, hc, hr, resetWrites, baselineWrites, leadEvents, leadPins, leadTarget, loadDefaults]
  | write a d =>
    injection h with h
    subst h
    simp [busWrites_eq, issuedBy, hf, hc, leadEvents, leadPins, leadTarget]
  | opoff idx =>
    rcases opIndex_cases idx with ⟨_, e⟩ | ⟨hi, e⟩
    · simp [commandBody, e] at h
    simp only [commandBody, e] at h
    injection h with h
    subst h
    simp [issuedBy, hf, hc, leadEvents, leadPins, leadTarget, eventsOf, pinsAfterAll, targetAfterAll, State.setRes]
  | choff idx =>
    rcases chIndex_cases idx with ⟨_, e⟩ | ⟨hi, e⟩
    · simp [commandBody, e] at h
    simp only [commandBody, e] at h
    injection h with h
    subst h
    simp [issuedBy, hf, hc, leadEvents, leadPins, leadTarget, eventsOf, pinsAfterAll, targetAfterAll, State.setRes]
  | updop idx =>
    rcases opIndex_cases idx with ⟨_, e⟩ | ⟨hi, e⟩
    · simp [commandBody, e] at h
    simp only [commandBody, e] at h
    injection h with h
    subst h
    simp [busWrites_eq, issuedBy, hf, hc, hi, leadEvents, leadPins, leadTarget]
  | keyon idx =>
    rcases chIndex_cases idx with ⟨_, e⟩ | ⟨hi, e⟩
    · simp [commandBody, e] at h
    simp only [commandBody, e] at h
    injection h with h
    subst h
    have hk : keyonWrites s.cfg.toParams ⟨idx.toNat, hi⟩ ((setKeyOn ⟨idx.toNat, hi⟩ true s).ch ⟨idx.toNat, hi⟩) =
        keyonWrites s.cfg.toParams ⟨idx.toNat, hi⟩ (s.ch ⟨idx.toNat, hi⟩) := by
      simp only [keyonWrites, setKeyOn, State.ch_setCh_same, packFlo, packFbc, packFhi]
    rw [hk, busWrites_eq]
    simp [issuedBy, hf, hc, hi, leadEvents, leadPins, leadTarget, setKeyOn, State.setCh]
  | keyoff idx =>
    rcases chIndex_cases idx with ⟨_, e⟩ | ⟨hi, e⟩
    · simp [commandBody, e] at h
    simp only [commandBody, e] at h
    injection h with h
    subst h
    have hk : keyoffWrites s.cfg.toParams ⟨idx.toNat, hi⟩ ((setKeyOn ⟨idx.toNat, hi⟩ false s).ch ⟨idx.toNat, hi⟩) =
        keyoffWrites s.cfg.toParams ⟨idx.toNat, hi⟩ (s.ch ⟨idx.toNat, hi⟩) := by
      simp only [keyoffWrites, setKeyOn, State.ch_setCh_same, packFhi]
    rw [hk, busWrites_eq]
    simp [issuedBy, hf, hc, hi, leadEvents, leadPins, leadTarget, setKeyOn, State.setCh]
  | setfreq idx freq =>
    simp only [commandBody] at h
    split at h <;> first | (injection h with h; subst h) | cases h
    simp [issuedBy, hf, hc, leadEvents, leadPins, leadTarget, eventsOf, pinsAfterAll, targetAfterAll, setFrequency,
      State.setCh]
  | opset idx fsel val =>
    simp only [commandBody] at h
    split at h <;> first | (injection h with h; subst h) | cases h
    simp [issuedBy, hf, hc, leadEvents, leadPins, leadTarget, eventsOf, pinsAfterAll, targetAfterAll, State.setOp]
  | chset idx fsel val =>
    simp only [commandBody] at h
    split at h <;> first | (injection h with h; subst h) | cases h
    simp [issuedBy, hf, hc, leadEvents, leadPins, leadTarget, eventsOf, pinsAfterAll, targetAfterAll, State.setCh]

end Sys2Proof.Machine
end

