-- ==== Sys2Proof/Laws/Notes.lean ====
section
/-! SUPPORT. The Note Dispatcher's conversion and its first command (45_note_dispatcher.md R216 to R218). -/

namespace Sys2Proof.Machine

/-! ### The conversion -/

theorem hzScaled_mono {x y : Nat} (h : x ≤ y) : hzScaled x ≤ hzScaled y :=
  Nat.mul_le_mul_right _ (Nat.pow_le_pow_left (Nat.mul_le_mul_left 2 h) 12)

theorem pitchScaled_mono {m n : Nat} (h : m ≤ n) : pitchScaled m ≤ pitchScaled n :=
  Nat.mul_le_mul_left _ (Nat.pow_le_pow_right (by decide) h)

/-- The two halves of R217's constraint. -/
theorem noteHzAdmissible_iff {n h : Nat} :
    noteHzAdmissible n h = true ↔ pitchScaled n < hzScaled (h + 1) ∧ (h = 0 ∨ hzScaled (h - 1) < pitchScaled n) := by
  simp [noteHzAdmissible]

/-- The search ends at the last whole number not above the pitch. -/
theorem climbToPitch_spec (n k h : Nat) (hle : hzScaled h ≤ pitchScaled n) (hlt : pitchScaled n < hzScaled (h + 2 ^ k)) :
    hzScaled (climbToPitch n k h) ≤ pitchScaled n ∧ pitchScaled n < hzScaled (climbToPitch n k h + 1) := by
  induction k generalizing h with
  | zero => exact ⟨hle, hlt⟩
  | succ k ih =>
    unfold climbToPitch
    split
    · rename_i hk
      exact ih _ hk (by rwa [Nat.add_assoc, ← Nat.two_mul, ← Nat.pow_succ'])
    · rename_i hk
      exact ih _ hle (Nat.lt_of_not_le hk)

/-- The pitch of note `n` is below 2^(n div 12 + 4) hertz. -/
theorem pitchScaled_lt (n : Nat) : pitchScaled n < hzScaled (2 ^ (n / 12 + 4)) := by
  have e : hzScaled (2 ^ (n / 12 + 4)) = 2 ^ (70 + (12 * (n / 12) + 11)) := by
    unfold hzScaled
    rw [← Nat.pow_succ', ← Nat.pow_mul, ← Nat.pow_add]
    congr 1
    omega
  rw [e, Nat.pow_add, pitchScaled]
  exact Nat.mul_lt_mul_of_lt_of_le (by decide) (Nat.pow_le_pow_right (by decide) (by omega)) (Nat.pow_pos (by decide))

/-- `floorHz` is the floor of the pitch. -/
theorem floorHz_spec (n : Nat) : hzScaled (floorHz n) ≤ pitchScaled n ∧ pitchScaled n < hzScaled (floorHz n + 1) :=
  climbToPitch_spec n _ 0 (by simp [hzScaled]) (by simpa using pitchScaled_lt n)

theorem floorHz_admissible (n : Nat) : noteHzAdmissible n (floorHz n) = true := by
  obtain ⟨hle, hlt⟩ := floorHz_spec n
  refine noteHzAdmissible_iff.mpr ⟨hlt, (Nat.eq_zero_or_pos (floorHz n)).imp_right fun h0 => Nat.lt_of_lt_of_le ?_ hle⟩
  exact Nat.mul_lt_mul_of_pos_right (Nat.pow_lt_pow_left (by omega) (by decide)) (by decide)

/-- The conversion of every configuration is within R217's constraint. -/
theorem noteHz_admissible (c : Config) (n : Nat) : noteHzAdmissible n (noteHz c.toParams n) = true := by
  unfold noteHz
  rcases Nat.lt_or_ge n c.noteToHz.length with h | h
  · rw [List.getD_eq_getElem _ _ h]
    exact c.noteToHz_admissible h
  · rw [List.getD_eq_default _ _ h]
    exact floorHz_admissible n

/-- A bound on a note's pitch bounds its hertz: above `b - 1` it would be past the ceiling. -/
theorem noteHz_le {c : Config} {n b : Nat} (h : pitchScaled n ≤ hzScaled b) : noteHz c.toParams n ≤ b := by
  by_contra hb
  have ha := (noteHzAdmissible_iff.mp (noteHz_admissible c n)).2
  have := hzScaled_mono (x := b) (y := noteHz c.toParams n - 1) (by omega)
  omega

/-- And from below. -/
theorem le_noteHz {c : Config} {n b : Nat} (h : hzScaled b ≤ pitchScaled n) : b ≤ noteHz c.toParams n := by
  by_contra hb
  have ha := (noteHzAdmissible_iff.mp (noteHz_admissible c n)).1
  have := hzScaled_mono (x := noteHz c.toParams n + 1) (y := b) (by omega)
  omega

/-! ### The commands -/

@[simp] theorem andThen_next (s : State) (f : State → Outcome) : andThen (.next s) f = f s := rfl

/-- While a fault is pending every command of an expansion is ignored (45_note_dispatcher.md R218, 60_exceptions.md R237). -/
theorem execAll_faulted {s : State} (h : s.fault = true) (l : List Instr) : execAll l s = .next s := by
  induction l with
  | nil => rfl
  | cons i l ih =>
    have e : exec i s = .next s := (exec_eq i s).trans (runCommand_faulted h i _)
    simp [execAll, e, ih]

/-- The first command of `NOTEON` on a frequency that fits its operand. -/
theorem sendFrequency_fits {hz : Nat} (h : hz < 2 ^ 16) (c : BitVec 6) (s : State) :
    sendFrequency c hz s = exec (.setfreq c (BitVec.ofNat 16 hz)) s := if_pos h

/-- And on one that does not: a range fault and nothing else. -/
theorem sendFrequency_unencodable {hz : Nat} (h : 2 ^ 16 ≤ hz) {c : BitVec 6} (hc : c.toNat < 18) {s : State} (hr : s.ready) :
    sendFrequency c hz s = .next (s.setFault (unencodableCause s.cfg.toParams hz) (encode (.setfreq c 0xFFFF))) := by
  rw [sendFrequency, if_neg (by omega)]
  exact runCommand_error hr.1 rfl (.inl hr.2) (by rw [chIndex_of_lt hc])

/-- The cause of a frequency without an operand. -/
theorem unencodableCause_eq (c : Config) (hz : Nat) :
    unencodableCause c.toParams hz =
      if hz < 2 ^ (c.wInt - 20) ∧ 2 ^ 17 ≤ rawFNumber c.toParams hz then .blockRange else .frequencyRange := by
  unfold unencodableCause
  rcases convert_spec c hz with ⟨hf, hc⟩ | ⟨hf, k, hlt, hle, ⟨hk, hc⟩ | ⟨hk, hc⟩⟩
  · rw [hc, if_neg (by omega)]
  · rw [hc, if_pos ⟨hf, (block_overflow_iff hlt hle).mp hk⟩]
  · have : ¬ 2 ^ 17 ≤ rawFNumber c.toParams hz := fun h => absurd ((block_overflow_iff hlt hle).mpr h) (by omega)
    rw [hc, if_neg (fun h => this h.2)]

end Sys2Proof.Machine
end

