-- ==== Sys2Proof/Laws/PerInstr.lean ====
section
/-! SUPPORT. Statements about every command as syntax, one lemma a constructor. -/

namespace Sys2Proof.Laws.TableRow

/-- A command's word matches its row of the opcode table (30_encoding.md R109). -/
def Statement (i : Instr) : Prop := i.row ∈ opcodeTable ∧ i.row.matchesWord (encode i) = true

/-- Two words are equal when their 32 bits are. -/
theorem word_ext {x y : CmdWord} (h : ∀ k : Fin 32, x.getLsbD k = y.getLsbD k) : x = y :=
  BitVec.eq_of_getLsbD_eq fun k hk => h ⟨k, hk⟩

theorem begin : Statement .begin := by
  unfold Statement
  decide

theorem reset : Statement .reset := by
  unfold Statement
  decide

theorem write (addr : Addr) (data : Byte) : Statement (.write addr data) := by
  refine ⟨by simp [opcodeTable, Instr.row], beq_iff_eq.mpr (word_ext fun k => ?_)⟩
  simp only [Instr.row, encode, BitVec.getLsbD_and, BitVec.getLsbD_append]
  fin_cases k <;> simp

theorem opoff (idx : BitVec 6) : Statement (.opoff idx) := by
  refine ⟨by simp [opcodeTable, Instr.row], beq_iff_eq.mpr (word_ext fun k => ?_)⟩
  simp only [Instr.row, encode, BitVec.getLsbD_and, BitVec.getLsbD_append]
  fin_cases k <;> simp

theorem choff (idx : BitVec 6) : Statement (.choff idx) := by
  refine ⟨by simp [opcodeTable, Instr.row], beq_iff_eq.mpr (word_ext fun k => ?_)⟩
  simp only [Instr.row, encode, BitVec.getLsbD_and, BitVec.getLsbD_append]
  fin_cases k <;> simp

theorem updop (idx : BitVec 6) : Statement (.updop idx) := by
  refine ⟨by simp [opcodeTable, Instr.row], beq_iff_eq.mpr (word_ext fun k => ?_)⟩
  simp only [Instr.row, encode, BitVec.getLsbD_and, BitVec.getLsbD_append]
  fin_cases k <;> simp

theorem keyon (idx : BitVec 6) : Statement (.keyon idx) := by
  refine ⟨by simp [opcodeTable, Instr.row], beq_iff_eq.mpr (word_ext fun k => ?_)⟩
  simp only [Instr.row, encode, BitVec.getLsbD_and, BitVec.getLsbD_append]
  fin_cases k <;> simp

theorem keyoff (idx : BitVec 6) : Statement (.keyoff idx) := by
  refine ⟨by simp [opcodeTable, Instr.row], beq_iff_eq.mpr (word_ext fun k => ?_)⟩
  simp only [Instr.row, encode, BitVec.getLsbD_and, BitVec.getLsbD_append]
  fin_cases k <;> simp

theorem setfreq (idx : BitVec 6) (freq : BitVec 16) : Statement (.setfreq idx freq) := by
  refine ⟨by simp [opcodeTable, Instr.row], beq_iff_eq.mpr (word_ext fun k => ?_)⟩
  simp only [Instr.row, encode, BitVec.getLsbD_and, BitVec.getLsbD_append]
  fin_cases k <;> simp

theorem opset (idx : BitVec 6) (fsel : BitVec 4) (val : BitVec 10) : Statement (.opset idx fsel val) := by
  refine ⟨by simp [opcodeTable, Instr.row], beq_iff_eq.mpr (word_ext fun k => ?_)⟩
  simp only [Instr.row, encode, BitVec.getLsbD_and, BitVec.getLsbD_append]
  fin_cases k <;> simp

theorem chset (idx : BitVec 6) (fsel : BitVec 4) (val : BitVec 10) : Statement (.chset idx fsel val) := by
  refine ⟨by simp [opcodeTable, Instr.row], beq_iff_eq.mpr (word_ext fun k => ?_)⟩
  simp only [Instr.row, encode, BitVec.getLsbD_and, BitVec.getLsbD_append]
  fin_cases k <;> simp

end Sys2Proof.Laws.TableRow
end

