-- ==== Sys2Proof/Laws/Step.lean ====
section
/-! SUPPORT. Everything a step can do. -/

namespace Sys2Proof.Machine

/-- The core idles or does not accept, is powered on, ignores a word, raises one fault, or runs an admitted command's
effects. -/
theorem step_cases {s t : State} (h : step s = .next t) :
    t = s ∨
    (∃ rest, s.host = .por :: rest ∧ t = powerOnInput rest s) ∨
    (∃ cw rest, s.host = .command cw :: rest ∧ s.busy = false ∧
      ((s.fault = true ∧ t = completeCommand (acceptWord rest s)) ∨
       (s.fault = false ∧ ∃ c w, t = completeCommand ((acceptWord rest s).setFault c w)) ∨
       (s.fault = false ∧ ∃ i u, decode cw = .ok i ∧ faultCause i (acceptWord rest s) = none ∧
          commandBody i (acceptWord rest s) = .ok u ∧ t = completeCommand u))) := by
  unfold step at h
  split at h
  · exact .inl (Host.Outcome.next.inj h).symm
  · rename_i rest hh
    exact .inr (.inl ⟨rest, hh, (Host.Outcome.next.inj h).symm⟩)
  · rename_i cw rest hh
    split at h
    · exact .inl (Host.Outcome.next.inj h).symm
    · rename_i hb
      refine .inr (.inr ⟨cw, rest, hh, Bool.eq_false_iff.mpr hb, ?_⟩)
      unfold runWord at h
      split at h
      · rename_i i hd
        rcases exec_spec i (acceptWord rest s) with ⟨hf, e⟩ | ⟨hf, c, hc, e⟩ | ⟨hf, hc, u, hu, e⟩ <;> rw [e] at h
        · exact .inl ⟨hf, (Host.Outcome.next.inj h).symm⟩
        · exact .inr (.inl ⟨hf, c, encode i, (Host.Outcome.next.inj h).symm⟩)
        · exact .inr (.inr ⟨hf, i, u, hd, hc, hu, (Host.Outcome.next.inj h).symm⟩)
      · have h := (Host.Outcome.next.inj h).symm
        cases hf : s.fault with
        | true => exact .inl ⟨rfl, h.trans (congrArg _ (raise_eq_of_faulted (s := acceptWord rest s) hf _ _))⟩
        | false =>
          exact .inr (.inl ⟨rfl, .illegalCommand, cw,
            h.trans (congrArg _ (raise_eq_of_clear (s := acceptWord rest s) hf _ _))⟩)

end Sys2Proof.Machine
end

