-- ==== Sys2Proof/Tests/Slice0.lean ====
section
/-! SUPPORT. Tests on fixed values, whose expected results stand in spec/95_test_vectors.md or in the rule each docstring
names, and for every statement with hypotheses a concrete state and operands that meet them. -/

namespace Sys2Proof.Tests

open Sys2Proof.Machine

/-! ## Helpers -/

/-- The outcome is a next state with the property. -/
def ran (o : Outcome) (p : State → Bool) : Bool :=
  match o with
  | .next t => p t
  | .fault _ => false
  | .refused _ => false

theorem ran_next {o : Outcome} {p : State → Bool} (h : ran o p = true) : ∃ t, o = .next t ∧ p t = true := by
  cases o with
  | next t => exact ⟨t, rfl, h⟩
  | fault r => exact nomatch h
  | refused r => exact nomatch h

/-- The vectors' configuration with a reset line. -/
def lineConfig : Config := ⟨{ Params.vectors with hasResetLine := true }, by decide⟩

/-- The vectors' configuration with two short wipe ranges. -/
def shortConfig : Config :=
  ⟨{ Params.vectors with wipe0Lo := 0x20, wipe0Hi := 0x22, wipe1Lo := 0x120, wipe1Hi := 0x121 }, by decide⟩

/-- A 36-bit intermediate (95_test_vectors.md V-FREQ). -/
def wideConfig : Config := ⟨{ Params.vectors with wInt := 36 }, by decide⟩

/-- The vectors' configuration with the other conversion the spec shows, the nearest, at the notes 0 to 2: 8.18, 8.66 and 9.18 Hz
(45_note_dispatcher.md R216). -/
def nearestConfig : Config := ⟨{ Params.vectors with noteToHz := [8, 9, 9] }, by decide⟩

/-- A fast clock and a wide intermediate: 65536 Hz would convert. -/
def fastConfig : Config := ⟨{ Params.vectors with clockHz := 4000000000, wInt := 40 }, by decide⟩

/-- The least clock: the divisor of the conversion is 1 (44_frequency.md R200). -/
def slowConfig : Config := ⟨{ Params.vectors with clockHz := 288 }, by decide⟩

/-- A machine that has begun, its target in extended mode and otherwise unknown. -/
def running (cfg : Config) : State :=
  { State.powerOn cfg [] with begun := true, tgt := { Target.reset with ext := some true } }

/-- A machine with a fault pending. -/
def faulted : State := (running Config.vectors).setFault .channelIndexRange 0x70000012

/-- A word is presented next. -/
def presenting (cw : CmdWord) (s : State) : State := { s with host := [.command cw] }

/-! ## Well-formed terms (30_encoding.md R99, R100, R107) -/

theorem test_opset_selector_12_refused : (Instr.opset 0 12 0).wellFormed = false := by decide
theorem test_opset_selector_11_accepted : (Instr.opset 0 11 0).wellFormed = true := by decide
theorem test_chset_selector_9_refused : (Instr.chset 0 9 0).wellFormed = false := by decide
theorem test_chset_selector_8_accepted : (Instr.chset 0 8 0).wellFormed = true := by decide

/-- An index out of range is no encoding error (30_encoding.md R95). -/
theorem test_index_63_well_formed : (Instr.keyon 63).wellFormed = true := by decide

/-! ## Decoding (95_test_vectors.md V-DECODE, 30_encoding.md R93 to R107) -/

theorem test_decode_begin : decode 0b00010000000000000000000000000000 = .ok .begin := by decide
theorem test_decode_reset : decode 0b00100000000000000000000000000000 = .ok .reset := by decide
theorem test_decode_write : decode 0b00110000000000011011001100101010 = .ok (.write 0x1B3 0x2A) := by decide
theorem test_decode_opoff : decode 0b01000000000000000000000000011000 = .ok (.opoff 24) := by decide
theorem test_decode_choff : decode 0b01010000000000000000000000001100 = .ok (.choff 12) := by decide
theorem test_decode_updop : decode 0b01100000000000000000000000011000 = .ok (.updop 24) := by decide
theorem test_decode_keyon : decode 0b01110000000000000000000000001100 = .ok (.keyon 12) := by decide
theorem test_decode_keyoff : decode 0b10000000000000000000000000001100 = .ok (.keyoff 12) := by decide
theorem test_decode_setfreq : decode 0b10010000000011000000000100000110 = .ok (.setfreq 12 262) := by decide
theorem test_decode_opset : decode 0b10100000000110001011000000000010 = .ok (.opset 24 11 2) := by decide
theorem test_decode_chset : decode 0b10110000000011000011000000000100 = .ok (.chset 12 3 4) := by decide
theorem test_decode_largest_operands : decode 0xB03F83FF = .ok (.chset 63 8 1023) := by decide

/-- Case (a): the opcodes 0x0 and 0xC to 0xF. -/
theorem test_decode_reserved_opcodes :
    [0x00000000, 0xC0000000, 0xD0000000, 0xE0000000, 0xFFFFFFFF].map decode =
      List.replicate 5 (.error .reservedOpcode) := by decide

/-- Case (b): one reserved bit of each format, at both ends. -/
theorem test_decode_reserved_bits :
    [0x10000001, 0x28000000, 0x30020000, 0x38000000, 0x40000040, 0x78000000, 0x90400000, 0x98000000, 0xA0000400,
      0xB8000000].map decode = List.replicate 10 (.error .reservedBits) := by decide

/-- Case (c): the first and the last reserved selector. -/
theorem test_decode_reserved_selectors :
    [0xA000C000, 0xA000F000, 0xB0009000, 0xB000F000].map decode = List.replicate 4 (.error .reservedSelector) := by decide

theorem test_decode_table_word : decodeTableWord 32 0x900C0106 = some (.setfreq 12 262) := by decide
theorem test_decode_table_word_illegal : decodeTableWord 32 0x900C0106F = none := by decide

/-! ## The assembler syntax (30_encoding.md R110) -/

theorem test_assembly_opset : assembly (.opset 24 11 2) = "OPSET 24, waveform, 2" := by decide
theorem test_assembly_begin : assembly .begin = "BEGIN" := by decide

/-! ## One step from reset -/

set_option maxRecDepth 20000 in
/-- `BEGIN` after reset, short wipe: 3 + 3 + 2 + 3 transactions, five pin events more, the target in extended mode
(41_reset_init.md R160, R153, R158). -/
theorem test_begin_short_wipe :
    ran (step (State.withFetchWord (State.powerOn shortConfig []) 32 0x10000000)) (fun t =>
      t.begun && t.writeLog == [(0x020, 0), (0x021, 0), (0x022, 0), (0x105, 1), (0x104, 0), (0x101, 0), (0x120, 0),
        (0x121, 0), (0x001, 0x20), (0x008, 0x40), (0x105, 1)] && t.traceRev.length == 5 + 19 * 11 &&
      t.tgt.ext == some true) = true := by decide

/-- `BEGIN` with a reset line: three transactions, 6 + 3 + 57 events (95_test_vectors.md V-RESET-4). -/
theorem test_begin_reset_line :
    ran (exec .begin (State.powerOn lineConfig [])) (fun t =>
      t.writeLog == [(0x001, 0x20), (0x008, 0x40), (0x105, 1)] && t.traceRev.length == 66) = true := by decide

/-- A command before `BEGIN` raises `NotBegun` (60_exceptions.md R232). -/
theorem test_keyoff_before_begin :
    ran (step (State.reset.withFetchWord 32 0x8000000C)) (fun t =>
      t.fault && t.faultCode == 2 && t.faultInfo == 0x8000000C && t.pinTrace == []) = true := by decide

set_option maxRecDepth 20000 in
/-- `RESET` with a reset line clears a register and reloads the files (41_reset_init.md R154, R156). -/
theorem test_reset_clears_target :
    ran (exec .reset { running lineConfig with tgt := ⟨[], [(0x30, 0xFF)], none, none⟩ }) (fun t =>
      t.tgt.shadow.read 0x30 == some 0 && t.tgt.shadow.read 0x001 == some 0x20 && t.tgt.ext == some true) = true := by
  decide

/-- `WRITE` in the other bank, latched and stored (40_bus_write.md R140). -/
theorem test_write_bank_one :
    ran (exec (.write 0x1B3 0x2A) (running Config.vectors)) (fun t =>
      t.writeLog == [(0x1B3, 0x2A)] && t.tgt.shadow.read 0x1B3 == some 0x2A && t.pins.bank == 1) = true := by decide

/-- With extended mode off a bank-1 write leaves the register unknown (20_memory.md R66). -/
theorem test_write_bank_one_not_extended :
    ran (exec (.write 0x1B3 0x2A) { running Config.vectors with tgt := ⟨[], [(0x1B3, 7)], none, some false⟩ }) (fun t =>
      t.tgt.shadow.read 0x1B3 == none) = true := by decide

/-- 95_test_vectors.md V-MAP. -/
theorem test_opoff_24 : ran (exec (.opoff 24) (running Config.vectors)) (·.res == 0x108) = true := by decide
theorem test_opoff_35 : ran (exec (.opoff 35) (running Config.vectors)) (·.res == 0x115) = true := by decide
theorem test_choff_9 : ran (exec (.choff 9) (running Config.vectors)) (·.res == 0x100) = true := by decide
theorem test_choff_18_faults :
    ran (exec (.choff 18) (running Config.vectors)) (fun t => t.faultCode == 4 && t.res == 0) = true := by decide

/-- `OPSET` truncates to the field's width (30_encoding.md R98). -/
theorem test_opset_truncates :
    ran (exec (.opset 35 5 0x3FF) (running Config.vectors)) (fun t =>
      t.op 35 == { OpParams.zero with totalLevel := 63 } && t.op 34 == OpParams.zero) = true := by decide
theorem test_chset_truncates :
    ran (exec (.chset 17 2 0x3FE) (running Config.vectors)) (fun t => (t.ch 17).keyOn == false) = true := by decide
theorem test_chset_feedback :
    ran (exec (.chset 12 3 4) (running Config.vectors)) (fun t =>
      t.ch 12 == { ChParams.zero with feedback := 4 }) = true := by decide

/-- The five bytes and addresses of operator 24 (95_test_vectors.md V-PACK layout, 42_address_mapper.md R171). -/
theorem test_updop_24 :
    ran (exec (.updop 24) (((running Config.vectors).setOp 24
        ⟨1, true, false, true, false, 0x15, 2, 0xF, 0x3, 0x7, 0x4, .absSine⟩))) (fun t =>
      t.writeLog == [(0x128, 0x51), (0x148, 0x95), (0x168, 0xF3), (0x188, 0x74), (0x1E8, 0x02)]) = true := by decide

/-- Channel 12 with f-number 580 and block 4: flo 0x44, fhi 0x32 on, 0x12 off (30_encoding.md R103, R104). -/
theorem test_keyon_12 :
    ran (exec (.keyon 12) ((running Config.vectors).setCh 12 ⟨580, 4, false, 5, true, true, false, false, false⟩)) (fun t =>
      t.writeLog == [(0x1A3, 0x44), (0x1C3, 0x1B), (0x1B3, 0x32)] && (t.ch 12).keyOn) = true := by decide
theorem test_keyoff_12 :
    ran (exec (.keyoff 12) ((running Config.vectors).setCh 12 ⟨580, 4, true, 5, true, true, false, false, false⟩)) (fun t =>
      t.writeLog == [(0x1B3, 0x12)] && !(t.ch 12).keyOn) = true := by decide

/-- 440 Hz gives (580, 4) (44_frequency.md R204, 95_test_vectors.md V-FREQ). -/
theorem test_setfreq_440 :
    ran (exec (.setfreq 0 440) (running Config.vectors)) (fun t =>
      (t.ch 0).fNumber == 580 && (t.ch 0).block == 4 && t.pinTrace == []) = true := by decide

/-- 4096 Hz is out of the 32-bit intermediate (44_frequency.md R206). -/
theorem test_setfreq_4096_faults :
    ran (exec (.setfreq 0 4096) (running Config.vectors)) (fun t => t.faultCode == 5) = true := by decide

/-- Truncation that lands on 439 for note 69 is no conversion of this hardware (45_note_dispatcher.md R217). -/
theorem test_conversion_439_refused :
    noteHzAdmissible 69 439 = false ∧ noteHzAdmissible 69 440 = true ∧ noteHzAdmissible 69 441 = false := by decide

/-- Nor is a table with 10 Hz for note 0, which is 8.18 Hz (45_note_dispatcher.md R216). -/
theorem test_table_10_refused : ¬ { Params.vectors with noteToHz := [10] }.NotesOk := by decide

/-- Notes 69, 107 and 156: 440 Hz, 3951.07 Hz, 66976 Hz to the floor (45_note_dispatcher.md R216, R221). -/
theorem test_floor_of_pitches : [69, 107, 156].map (noteHz Config.vectors.toParams) = [440, 3951, 66976] := by decide

set_option maxRecDepth 20000 in
/-- Note 156 does not fit the operand: it faults and nothing plays (45_note_dispatcher.md R218, R221). -/
theorem test_note_156_faults :
    ran (runNote (.on 0 156 100) (running wideConfig)) (fun t =>
      t.fault && t.faultCode == 5 && t.writeLog == [] && !(t.ch 0).keyOn) = true := by decide

/-- Note 69 on and off on channel 0: the four writes of 45_note_dispatcher.md R220. -/
theorem test_note_69_on_off :
    ran (andThen (runNote (.on 0 69 100) (running Config.vectors)) (runNote (.off 0 69 100))) (fun t =>
      t.writeLog == [(0x0A0, 0x44), (0x0C0, 0x00), (0x0B0, 0x32), (0x0B0, 0x12)]) = true := by decide

/-- A key-on edge rises once (70_reset_and_hazards.md R269). -/
theorem test_key_on_edge :
    (let s := { running Config.vectors with tgt := ⟨[], [(0xB0, 0)], none, some true⟩ }
     ran (exec (.keyon 0) s) (fun t => keyOnEdge 0 s t && ran (exec (.keyon 0) t) (fun u => !keyOnEdge 0 t u))) = true := by
  decide

/-! ## Witnesses: a state and operands that meet every hypothesis of a statement -/

theorem witness_DecodeUndoesEncode :
    (Instr.opset 63 11 1023).wellFormed = true ∧ (Instr.chset 63 8 1023).wellFormed = true ∧
    (Instr.write 0x1FF 0xFF).wellFormed = true := by decide

theorem witness_EveryCommandHasOneWord : decode 0xA03FB3FF = .ok (.opset 63 11 1023) := by decide

theorem witness_DecodeFollowsTheTable :
    (Instr.opset 0 0 0).row ∈ opcodeTable ∧
    (0xA03FB3FF : CmdWord) &&& (Instr.opset 0 0 0).row.mask = (Instr.opset 0 0 0).row.bits ∧
    (0xB03F83FF : CmdWord) &&& (Instr.chset 0 0 0).row.mask = (Instr.chset 0 0 0).row.bits := by decide

theorem witness_StepRunsTheDecodedCommand :
    (presenting 0x900C0106 State.reset).host = .command 0x900C0106 :: [] ∧
    (presenting 0x900C0106 State.reset).busy = false ∧ decode 0x900C0106 = .ok (.setfreq 12 262) := by decide

/-- Every case of an illegal word at its boundary. -/
theorem witness_IllegalWordsRaiseIllegalCommand :
    IllegalWord 0xC0000000 ∧ IllegalWord 0x10000001 ∧ IllegalWord 0xA000C000 ∧ IllegalWord 0xB0009000 ∧
    ¬ IllegalWord 0xA000B000 ∧ ¬ IllegalWord 0xB0008000 ∧
    (presenting 0xC0000000 State.reset).host = .command 0xC0000000 :: [] ∧
    (presenting 0xC0000000 State.reset).busy = false ∧ (presenting 0xC0000000 State.reset).seq = Seq.idle ∧
    (presenting 0xC0000000 State.reset).fault = false := by
  unfold IllegalWord
  decide

theorem witness_IdleAndBusyStepsChangeNothing :
    State.reset.host = [] ∧
    { presenting 0x10000000 State.reset with busy := true }.host = .command 0x10000000 :: [] ∧
    { presenting 0x10000000 State.reset with busy := true }.busy = true := by decide

theorem witness_PowerOnInputClearsTheFlags : { faulted with host := [.por] }.host = .por :: [] := by decide

theorem witness_FaultsArePrecise :
    ∃ t, exec (.keyon 18) (running Config.vectors) = .next t ∧
      ((running Config.vectors).fault == false && t.fault) = true :=
  ran_next (p := fun t => (running Config.vectors).fault == false && t.fault) (by decide)

/-- Each of the six causes, and none. -/
theorem witness_OneCauseInTheOrderOfChecks :
    faulted.fault = true ∧ (running Config.vectors).fault = false ∧ (running slowConfig).fault = false ∧
    State.reset.fault = false ∧
    faultCause (.opset 36 12 0) (running Config.vectors) = some .illegalCommand ∧
    faultCause (.keyon 18) State.reset = some .notBegun ∧
    faultCause (.opoff 36) (running Config.vectors) = some .operatorIndexRange ∧
    faultCause (.setfreq 18 4096) (running Config.vectors) = some .channelIndexRange ∧
    faultCause (.setfreq 17 4096) (running Config.vectors) = some .frequencyRange ∧
    faultCause (.setfreq 17 1) (running slowConfig) = some .blockRange ∧
    faultCause (.setfreq 17 4095) (running Config.vectors) = none := by decide

theorem witness_TheFaultStateIsTerminal :
    faulted.fault = true ∧ (presenting 0x10000000 faulted).noPor ∧ faulted.seq = Seq.idle ∧
    (∃ t, core.run 2 (presenting 0x10000000 faulted) = .next t ∧ t.fault = true) ∧
    ∃ t, step { faulted with host := [.por] } = .next t ∧ (t.fault == false) = true := by
  refine ⟨by decide, by unfold State.noPor; decide, by decide, ?_, ran_next (p := fun t => t.fault == false) (by decide)⟩
  exact ran_next (o := core.run 2 (presenting 0x10000000 faulted)) (p := fun t => t.fault) (by decide)

theorem witness_ready :
    (running Config.vectors).ready ∧ (running lineConfig).ready ∧ (running wideConfig).ready ∧
    (running slowConfig).ready := by
  unfold State.ready
  decide

theorem witness_IndexOutOfRangeFaults :
    (running Config.vectors).ready ∧ 35 < (36#6).toNat ∧ (11#4).toNat ≤ 11 ∧ 17 < (18#6).toNat ∧ (8#4).toNat ≤ 8 :=
  ⟨witness_ready.1, by decide⟩

theorem witness_OnlyBeginIsAdmittedAfterPowerOn :
    (Instr.reset).wellFormed = true ∧ Instr.reset ≠ .begin ∧ (Instr.opset 0 11 0).wellFormed = true := by decide

/-- The first and the last step; the last of two transactions; a command with a lead-in and one without. -/
theorem witness_SequencerStepsInOrder :
    (1 : Nat) ≤ 1 ∧ 1 ≤ 11 ∧ (1 : Nat) ≤ 11 ∧ 11 ≤ 11 ∧ 1 < [((0x20 : Addr), (0 : Byte)), (0x21, 0)].length ∧
    (busProgress [(0x20, 0), (0x21, 0)] 12 (running lineConfig)).seq = ⟨1, 1⟩ ∧
    (running lineConfig).seq = ⟨0, 0⟩ ∧ (running lineConfig).fault = false ∧
    faultCause .reset (running lineConfig) = none ∧ faultCause (.updop 35) (running lineConfig) = none ∧
    (∃ t, exec .reset (running lineConfig) = .next t ∧ t.begun = true) ∧
    ∃ t, exec (.updop 35) (running lineConfig) = .next t ∧ t.begun = true :=
  ⟨by decide, by decide, by decide, by decide, by decide, by decide, by decide, by decide, by decide, by decide,
    ran_next (p := fun t => t.begun) (by decide), ran_next (p := fun t => t.begun) (by decide)⟩

theorem witness_WriteIssuesOneTransaction : (running Config.vectors).ready := witness_ready.1

/-- The state right after reset, `BEGIN` presented, with a reset line. -/
def starting : State := presenting 0x10000000 (State.powerOn lineConfig [])

theorem witness_ThePinTraceExplainsTheTarget :
    starting.traceExplains ∧ ∃ t, step starting = .next t ∧ t.begun = true :=
  ⟨by unfold State.traceExplains; decide, ran_next (p := fun t => t.begun) (by decide)⟩

theorem witness_StepsMeetTheTimingContract :
    starting.timingMet ∧ ∃ t, step starting = .next t ∧ t.begun = true :=
  ⟨by unfold State.timingMet; decide, ran_next (p := fun t => t.begun) (by decide)⟩

theorem witness_BeginCompletes : State.reset.fault = false ∧ (running Config.vectors).fault = false := by decide

theorem witness_ResetCompletes : (running Config.vectors).ready ∧ (running lineConfig).ready :=
  ⟨witness_ready.1, witness_ready.2.1⟩

/-- The first and the last address of each range. -/
theorem witness_SoftwareWipeInOrder :
    0 < wipe0Count Config.vectors.toParams ∧ 213 < wipe0Count Config.vectors.toParams ∧
    0 < wipe1Count Config.vectors.toParams ∧ 213 < wipe1Count Config.vectors.toParams := by decide

theorem witness_WipeWritesEachAddressOnce :
    let c := Config.vectors
    (∀ a ∈ [(0x020 : Addr), 0x0F5], c.wipe0Lo.toNat ≤ a.toNat ∧ a.toNat ≤ c.wipe0Hi.toNat) ∧
    ∀ a ∈ [(0x120 : Addr), 0x1F5], c.wipe1Lo ≤ a ∧ a ≤ c.wipe1Hi := by decide

/-- With and without a reset line; the mode registers, the ends of the wipe ranges, and an address no clause covers. -/
theorem witness_TargetAfterReset :
    (running shortConfig).ready ∧ modesApart shortConfig.toParams ∧ modesApart lineConfig.toParams ∧
    (∃ t, exec .reset (running shortConfig) = .next t ∧ t.begun = true) ∧
    (∃ t, exec .reset (running lineConfig) = .next t ∧ t.begun = true) ∧
    (∀ a ∈ [(0x020 : Addr), 0x022, 0x120, 0x121, 0x104, 0x101, 0x1FF],
      a ≠ shortConfig.aWse ∧ a ≠ shortConfig.aNts ∧ a ≠ shortConfig.aExt) ∧
    ¬ (shortConfig.hasResetLine = true ∨ (0x1FF : Addr) = shortConfig.aExtMode ∨ (0x1FF : Addr) = shortConfig.aTest1 ∨
      (shortConfig.wipe0Lo.toNat ≤ (0x1FF : Addr).toNat ∧ (0x1FF : Addr).toNat ≤ shortConfig.wipe0Hi.toNat) ∨
      (shortConfig.wipe1Lo ≤ (0x1FF : Addr) ∧ (0x1FF : Addr) ≤ shortConfig.wipe1Hi)) :=
  ⟨by unfold State.ready; decide, by unfold modesApart; decide, by unfold modesApart; decide,
    ran_next (p := fun t => t.begun) (by decide), ran_next (p := fun t => t.begun) (by decide), by decide, by decide⟩

theorem witness_TransactionAndEventCounts :
    (∃ t, exec (.updop 35) (running Config.vectors) = .next t ∧ t.begun = true) ∧
    (running Config.vectors).fault = false ∧ faultCause (.updop 35) (running Config.vectors) = none ∧
    (∃ t, exec (.updop 36) (running Config.vectors) = .next t ∧ t.fault = true) ∧
    faultCause (.updop 36) (running Config.vectors) ≠ none ∧
    (∃ t, exec (.updop 35) faulted = .next t ∧ t.fault = true) ∧ faulted.fault = true :=
  ⟨ran_next (p := fun t => t.begun) (by decide), by decide, by decide, ran_next (p := fun t => t.fault) (by decide),
    by decide, ran_next (p := fun t => t.fault) (by decide), by decide⟩

theorem witness_OpoffWritesTheOffset : (running Config.vectors).ready ∧ (35#6).toNat ≤ 35 := ⟨witness_ready.1, by decide⟩

theorem witness_ChoffWritesTheOffset : (running Config.vectors).ready ∧ (17#6).toNat ≤ 17 := ⟨witness_ready.1, by decide⟩

theorem witness_OffsetsAreInjective : (17 : Fin 36) < 18 ∧ (8 : Fin 18) < 9 := by decide

theorem witness_OpsetWritesOneField :
    (running Config.vectors).ready ∧ (35#6).toNat < 36 ∧
    [OpField.multiplier, .keyScaleRate, .sustainMode, .vibrato, .tremolo, .totalLevel, .keyScaleLevel, .attackRate,
      .decayRate, .sustainLevel, .releaseRate, .waveform][(11#4).toNat]? = some .waveform := ⟨witness_ready.1, by decide⟩

theorem witness_ChsetWritesOneField :
    (running Config.vectors).ready ∧ (17#6).toNat < 18 ∧
    [ChField.fNumber, .block, .keyOn, .feedback, .algorithm, .panLeft, .panRight, .outC, .outD][(8#4).toNat]? =
      some .outD := ⟨witness_ready.1, by decide⟩

theorem witness_UpdopIssuesFiveTransactions : (running Config.vectors).ready ∧ (35#6).toNat < 36 :=
  ⟨witness_ready.1, by decide⟩

theorem witness_PackingIsInjective :
    packMult OpParams.zero = packMult OpParams.zero ∧ packLevel OpParams.zero = packLevel OpParams.zero ∧
    packAd OpParams.zero = packAd OpParams.zero ∧ packSr OpParams.zero = packSr OpParams.zero ∧
    packWave OpParams.zero = packWave OpParams.zero ∧ packFlo ChParams.zero = packFlo ChParams.zero ∧
    packFbc ChParams.zero = packFbc ChParams.zero ∧
    packFhi ChParams.zero ChParams.zero.keyOn = packFhi ChParams.zero ChParams.zero.keyOn := by decide

theorem witness_KeyonWritesInFixedOrder : (running Config.vectors).ready ∧ (17#6).toNat < 18 :=
  ⟨witness_ready.1, by decide⟩

theorem witness_KeyoffIssuesOneWrite : (running Config.vectors).ready ∧ (17#6).toNat < 18 := ⟨witness_ready.1, by decide⟩

/-- `KEYON` then, from the state it leaves, `KEYOFF`. -/
theorem witness_KeyoffKeepsTheFrequencyBits :
    (running Config.vectors).ready ∧
    ∃ t, exec (.keyon 17) (running Config.vectors) = .next t ∧
      (!t.fault && t.begun && ran (exec (.keyoff 17) t) (·.begun)) = true :=
  ⟨witness_ready.1, ran_next (p := fun t => !t.fault && t.begun && ran (exec (.keyoff 17) t) (·.begun)) (by decide)⟩

/-- A channel of either bank, its key-on bit known clear or known set. -/
theorem witness_RetriggerNeedsAnEdge :
    (running Config.vectors).ready ∧ (8#6).toNat < 9 ∧ (running Config.vectors).tgt.ext = some true ∧
    (∀ b ∈ [Config.vectors.baseFlo, Config.vectors.baseFbc, Config.vectors.baseFhi],
      registerAddress b (channelOffset 9) ≠ Config.vectors.aExt) ∧
    (∃ t, exec (.keyon 9) (running Config.vectors) = .next t ∧ (t.keyedOn 9 == some true) = true) ∧
    (∃ t, exec (.keyoff 9) (running Config.vectors) = .next t ∧ (t.keyedOn 9 == some false) = true) :=
  ⟨witness_ready.1, by decide, by decide, by decide, ran_next (p := fun t => t.keyedOn 9 == some true) (by decide),
    ran_next (p := fun t => t.keyedOn 9 == some false) (by decide)⟩

theorem witness_UpdopReachesTheTarget :
    (running Config.vectors).ready ∧ (17#6).toNat < 18 ∧ (running Config.vectors).tgt.ext = some true ∧
    (∀ b ∈ [Config.vectors.baseMult, Config.vectors.baseLevel, Config.vectors.baseAd, Config.vectors.baseSr,
      Config.vectors.baseWave], registerAddress b (operatorOffset 18) ≠ Config.vectors.aExt) ∧
    ∃ t, exec (.updop 18) (running Config.vectors) = .next t ∧ t.begun = true :=
  ⟨witness_ready.1, by decide, by decide, by decide, ran_next (p := fun t => t.begun) (by decide)⟩

/-- Each clause at its boundary: the index, the first frequency out of range, the first block out of range, and conversions with
no halving and with seven. -/
theorem witness_SetfreqConverts :
    (running Config.vectors).ready ∧ (running slowConfig).ready ∧ (running wideConfig).ready ∧ 17 < (18#6).toNat ∧
    2 ^ (Config.vectors.wInt - 20) ≤ (4096#16).toNat ∧ (4095#16).toNat < 2 ^ (Config.vectors.wInt - 20) ∧
    2 ^ 17 ≤ (1#16).toNat * 2 ^ 20 / (slowConfig.clockHz / 288) ∧
    (0#16).toNat * 2 ^ 20 / (Config.vectors.clockHz / 288) / 2 ^ 0 < 1024 ∧
    (6213#16).toNat < 2 ^ (wideConfig.wInt - 20) ∧
    (6213#16).toNat * 2 ^ 20 / (wideConfig.clockHz / 288) / 2 ^ 7 < 1024 ∧
    1024 ≤ (6213#16).toNat * 2 ^ 20 / (wideConfig.clockHz / 288) / 2 ^ 6 ∧
    2 ^ 17 ≤ (6215#16).toNat * 2 ^ 20 / (wideConfig.clockHz / 288) :=
  ⟨witness_ready.1, witness_ready.2.2.2, witness_ready.2.2.1, by decide⟩

theorem witness_ConversionIsNormalised :
    (running Config.vectors).ready ∧
    ∃ t, exec (.setfreq 17 4095) (running Config.vectors) = .next t ∧ (t.fault == false) = true :=
  ⟨witness_ready.1, ran_next (p := fun t => t.fault == false) (by decide)⟩

/-- A doubling that raises the block, and one that does not. -/
theorem witness_DoublingRaisesTheBlock :
    (running Config.vectors).ready ∧ (880#16).toNat = 2 * (440#16).toNat ∧ (20#16).toNat = 2 * (10#16).toNat ∧
    (∃ t, exec (.setfreq 0 440) (running Config.vectors) = .next t ∧ (t.fault == false) = true) ∧
    (∃ t, exec (.setfreq 0 880) (running Config.vectors) = .next t ∧ (t.fault == false) = true) ∧
    (∃ t, exec (.setfreq 0 10) (running Config.vectors) = .next t ∧ (t.fault == false) = true) ∧
    ∃ t, exec (.setfreq 0 20) (running Config.vectors) = .next t ∧ (t.fault == false) = true :=
  ⟨witness_ready.1, by decide, by decide, ran_next (p := fun t => t.fault == false) (by decide),
    ran_next (p := fun t => t.fault == false) (by decide), ran_next (p := fun t => t.fault == false) (by decide),
    ran_next (p := fun t => t.fault == false) (by decide)⟩

theorem witness_ConcertPitchConverts : (running Config.vectors).ready ∧ (running Config.vectors).cfg.clockHz = 14318180 :=
  ⟨witness_ready.1, by decide⟩

/-- Note 69 is 440 Hz (45_note_dispatcher.md R217). -/
theorem witness_NoteOnPlaysTheFrequency :
    (running Config.vectors).ready ∧ (17#6).toNat < 18 ∧ 440 = noteHz (running Config.vectors).cfg.toParams 69 ∧
    9280 = 440 * 2 ^ 20 / ((running Config.vectors).cfg.clockHz / 288) ∧ 440 < 2 ^ 16 ∧
    440 < 2 ^ ((running Config.vectors).cfg.wInt - 20) ∧ 9280 < 2 ^ 17 :=
  ⟨witness_ready.1, by decide⟩

set_option maxRecDepth 20000 in
/-- Each clause: the channel; notes 108 and 156 at `W_INT` 32; note 115 at 36; note 156 at a fast clock and `W_INT` 40. -/
theorem witness_UnconvertibleNotesFault :
    (running Config.vectors).ready ∧ (running wideConfig).ready ∧ (running fastConfig).ready ∧
    17 < (18#6).toNat ∧ (17#6).toNat ≤ 17 ∧
    2 ^ (Config.vectors.wInt - 20) ≤ noteHz Config.vectors.toParams 108 ∧
    2 ^ 16 ≤ noteHz Config.vectors.toParams 156 ∧
    noteHz wideConfig.toParams 115 < 2 ^ (wideConfig.wInt - 20) ∧
    2 ^ 17 ≤ noteHz wideConfig.toParams 115 * 2 ^ 20 / (wideConfig.clockHz / 288) ∧
    noteHz fastConfig.toParams 156 < 2 ^ (fastConfig.wInt - 20) ∧
    noteHz fastConfig.toParams 156 * 2 ^ 20 / (fastConfig.clockHz / 288) < 2 ^ 17 ∧
    2 ^ 16 ≤ noteHz fastConfig.toParams 156 :=
  ⟨witness_ready.1, witness_ready.2.2.1, by unfold State.ready; decide, by decide⟩

set_option maxRecDepth 20000 in
/-- Every clause: `W_INT` 32 and 36 at the vectors' clock, on either side of the first check of the conversion. -/
theorem witness_NotesInAndOutOfRange :
    (running Config.vectors).ready ∧ (running wideConfig).ready ∧ (17#6).toNat < 18 ∧
    (running Config.vectors).cfg.clockHz = 14318180 ∧ (running wideConfig).cfg.clockHz = 14318180 ∧
    Config.vectors.wInt = 32 ∧ 33 ≤ wideConfig.wInt ∧
    noteHz wideConfig.toParams 155 < 2 ^ (wideConfig.wInt - 20) ∧
    2 ^ (wideConfig.wInt - 20) ≤ noteHz wideConfig.toParams 156 :=
  ⟨witness_ready.1, witness_ready.2.2.1, by decide⟩

theorem witness_NoteOffReleasesTheKey : (running Config.vectors).ready ∧ (17#6).toNat < 18 :=
  ⟨witness_ready.1, by decide⟩

/-- The floor is a conversion of the kind R217 asks for, and the nearest at the notes 0 to 2 is one of a configuration. -/
theorem witness_EveryConversionIsAdmissible :
    (∀ n, noteHzAdmissible n (floorHz n) = true) ∧
    [0, 1, 2].map (noteHz nearestConfig.toParams) = [8, 9, 9] ∧ [0, 1, 2].map floorHz = [8, 8, 9] :=
  ⟨floorHz_admissible, by decide⟩

/-- The invariant holds of the machine right after reset with `BEGIN` presented, and `BEGIN` runs. -/
theorem witness_StepsKeepTheInvariant : starting.Inv ∧ ∃ t, step starting = .next t ∧ t.begun = true :=
  ⟨{  memory := by decide
      idle := by decide
      noFault := by decide
      faultCode := by decide
      beforeBegin := by decide
      busIdle := by decide
      lastWrite := fun h => by cases h },
    ran_next (p := fun t => t.begun) (by decide)⟩

/-- It also holds of a machine that has begun. -/
theorem witness_begun_Inv :
    { running Config.vectors with
      pins := ⟨.data, 1, .off, .high, .inactive, 1⟩
      tgt := ⟨[(0x105, 1)], [(0x105, 1)], some 0x105, some true⟩ }.Inv :=
  { memory := by decide
    idle := by decide
    noFault := by decide
    faultCode := by decide
    beforeBegin := by decide
    busIdle := by decide
    lastWrite := fun _ => ⟨0x105, 1, by decide⟩ }

theorem witness_TheConfigurationIsConstant : ∃ t, step starting = .next t ∧ t.begun = true :=
  ran_next (p := fun t => t.begun) (by decide)

theorem witness_CommandsNeverReadTheTarget :
    ∃ t, exec (.keyon 17) (running Config.vectors) = .next t ∧ t.begun = true :=
  ran_next (p := fun t => t.begun) (by decide)

theorem witness_TheWriteLogIsTheConcatenation :
    ∃ t, exec (.updop 35) (running Config.vectors) = .next t ∧ (t.writeLog.length == 5) = true :=
  ran_next (p := fun t => t.writeLog.length == 5) (by decide)

/-- `BEGIN` writes `BEGUN`, `OPOFF` writes `RES`, and a faulted machine stays faulted. -/
theorem witness_WhoWritesTheFlags :
    (∃ t, exec .begin (State.powerOn lineConfig []) = .next t ∧ t.begun = true) ∧
    (∃ t, exec (.opoff 35) (running Config.vectors) = .next t ∧ (t.res != 0) = true) ∧
    (∃ t, exec (.opoff 35) faulted = .next t ∧ t.fault = true) :=
  ⟨ran_next (p := fun t => t.begun) (by decide), ran_next (p := fun t => t.res != 0) (by decide),
    ran_next (p := fun t => t.fault) (by decide)⟩

/-- A command that changes the operator file, and one that changes the channel file. -/
theorem witness_WhoWritesTheFiles :
    (∃ t, exec (.opset 35 0 1) (running Config.vectors) = .next t ∧
      (t.ops != (running Config.vectors).ops) = true) ∧
    ∃ t, exec (.keyon 17) (running Config.vectors) = .next t ∧ (t.chs != (running Config.vectors).chs) = true :=
  ⟨ran_next (p := fun t => t.ops != (running Config.vectors).ops) (by decide),
    ran_next (p := fun t => t.chs != (running Config.vectors).chs) (by decide)⟩

end Sys2Proof.Tests
end

section
/-! PROOFS of the family 00_scope.md: the configuration, the conversion of notes, and the replay of the pin trace. -/

namespace Sys2Proof.Config

/-- The other parameters as they were, with the values of an admissible `f` at the notes below `m` as the table. -/
def withNotes (c : Config) (f : Nat → Nat) (m : Nat) (hf : ∀ n, noteHzAdmissible n (f n) = true) : Config where
  toParams := { c.toParams with noteToHz := (List.range m).map f }
  ok := by
    obtain ⟨hnumbers, hwipe, hmodes, hbases, -⟩ := c.ok
    exact ⟨hnumbers, hwipe, hmodes, hbases, fun n => by simpa using hf n⟩

end Sys2Proof.Config

namespace Sys2Proof.Machine

/-! ### No step changes the configuration (00_scope.md R7) -/

@[simp] theorem powerOnInput_cfg (l : List HostInput) (s : State) : (powerOnInput l s).cfg = s.cfg := rfl

/-- Settles O52: power-on keeps the configuration, and so do the effects of every command. -/
theorem theConfigurationIsConstant : Obligations.TheConfigurationIsConstant := by
  intro s t h
  rcases step_cases h with rfl | ⟨rest, -, rfl⟩ |
    ⟨cw, rest, -, -, ⟨-, rfl⟩ | ⟨-, c, w, rfl⟩ | ⟨hf, i, u, -, hc, hu, rfl⟩⟩
  · rfl
  · exact powerOnInput_cfg rest s
  · rfl
  · rfl
  · obtain ⟨hcfg, -⟩ := commandBody_bus (s := acceptWord rest s) hf hc hu
    exact hcfg

/-! ### The conversion `NOTE_TO_HZ` (45_note_dispatcher.md R217) -/

/-- The pitch of note `33 + 12 k` is the whole number `55 · 2^k` of hertz. -/
theorem pitchScaled_octaves (k : Nat) : pitchScaled (33 + 12 * k) = hzScaled (55 * 2 ^ k) := by
  unfold pitchScaled hzScaled
  ring

theorem noteHz_withNotes (c : Config) {f : Nat → Nat} {m n : Nat} (hf : ∀ n, noteHzAdmissible n (f n) = true)
    (h : n < m) : noteHz (c.withNotes f m hf).toParams n = f n := by
  simp [noteHz, Config.withNotes, h]

/-- Settles O59: `noteHz_admissible`, the two bounds of a note's hertz where the pitch is whole, and a table of the wanted
values. -/
theorem everyConversionIsAdmissible : Obligations.EveryConversionIsAdmissible := by
  refine ⟨noteHz_admissible, fun c k => ?_, fun c f m hf => ?_⟩
  · have hp := pitchScaled_octaves k
    exact Nat.le_antisymm (noteHz_le hp.le) (le_noteHz hp.ge)
  · exact ⟨c.withNotes f m hf, rfl, fun n hn => noteHz_withNotes c hf hn⟩

/-! ### The replay of the pin trace (00_scope.md R9)

Each stretch of events a command appends, replayed from lines and target with no pulse in progress, leaves the pins and the
target the laws of the machine name, again with no pulse in progress. -/

theorem replay_append (aExt : Addr) (l m : List PinEvent) (v : Replay) :
    replay aExt (l ++ m) v = replay aExt m (replay aExt l v) := List.foldl_append

/-- The data phase after the address phase that latched `a`. -/
theorem write_of_latched (aExt a : Addr) (d : Byte) (t : Target) :
    Target.write aExt a d { t with addr := some a } = targetAfter aExt a d t := rfl

/-- A transaction's two strobes are an address phase and a data phase: one register write (40_bus_write.md R132, R139). -/
theorem replay_transactionEvents (p : Params) (aExt a : Addr) (d : Byte) (q : Pins) (t : Target) :
    replay aExt (transactionEvents p a d) ⟨q, false, false, t⟩ =
      ⟨pinsAfter a d q, false, false, targetAfter aExt a d t⟩ := by
  have h := addr_split a
  simp only [replay, transactionEvents, strobeEvents, List.cons_append, List.nil_append, List.foldl, replayEvent,
    Pins.drive, Target.pulse, h, if_true, write_of_latched, pinsAfter]

theorem replay_eventsOf (p : Params) (aExt : Addr) (l : List (Addr × Byte)) (q : Pins) (t : Target) :
    replay aExt (eventsOf p l) ⟨q, false, false, t⟩ =
      ⟨pinsAfterAll l q, false, false, targetAfterAll aExt l t⟩ := by
  induction l generalizing q t with
  | nil => rfl
  | cons x l ih =>
    have hcons : eventsOf p (x :: l) = transactionEvents p x.1 x.2 ++ eventsOf p l := List.flatMap_cons
    rw [hcons, replay_append, replay_transactionEvents, ih]
    rfl

/-- `PinInit()` ends no pulse: its rise of `WR` is not the target's (41_reset_init.md R153). -/
theorem replay_pinInitEvents (p : Params) (aExt : Addr) (q : Pins) (t : Target) :
    replay aExt (pinInitEvents p) ⟨q, false, false, t⟩ = ⟨pinsAfterInit p q, false, false, t⟩ := by
  cases h : p.hasResetLine <;> simp [replay, pinInitEvents, replayEvent, Pins.drive, pinsAfterInit, h]

/-- The reset pulse clears the target at its release (41_reset_init.md R156). -/
theorem replay_resetPulseEvents (p : Params) (aExt : Addr) (q : Pins) (t : Target) :
    replay aExt (resetPulseEvents p) ⟨q, false, false, t⟩ =
      ⟨{ q with rst := .inactive }, false, false, t.hardwareReset⟩ := rfl

/-- What precedes a command's transactions, replayed. -/
theorem replay_leadEvents (p : Params) (aExt : Addr) (q : Pins) (t : Target) (i : Instr) :
    replay aExt (leadEvents p i) ⟨q, false, false, t⟩ = ⟨leadPins p q i, false, false, leadTarget p t i⟩ := by
  cases i with
  | begin =>
    rw [leadEvents, replay_append, replay_pinInitEvents]
    cases h : p.hasResetLine <;> simp only [leadPins, leadTarget, h] <;> rfl
  | reset => cases h : p.hasResetLine <;> simp only [leadEvents, leadPins, leadTarget, h] <;> rfl
  | write | opoff | choff | updop | keyon | keyoff | setfreq | opset | chset => rfl

/-- New events that replay from the old view to the new one keep the trace an explanation. -/
theorem State.traceExplains_of_events {s t : State} (l : List PinEvent) (hs : s.traceExplains) (hcfg : t.cfg = s.cfg)
    (htrace : t.traceRev = l.reverse ++ s.traceRev) (hview : replay s.cfg.aExt l s.view = t.view) : t.traceExplains := by
  have hs : replay s.cfg.aExt s.pinTrace Replay.start = s.view := hs
  have hl : t.pinTrace = s.pinTrace ++ l := by simp [State.pinTrace, htrace]
  rw [State.traceExplains, hcfg, hl, replay_append, hs, hview]

theorem powerOnInput_traceExplains (l : List HostInput) (s : State) : (powerOnInput l s).traceExplains := rfl

/-- The effects of an admitted command keep it: its lead and its transactions replay to the pins and the target it leaves. -/
theorem commandBody_traceExplains {i : Instr} {s t : State} (hf : s.fault = false) (hc : faultCause i s = none)
    (h : commandBody i s = .ok t) (hs : s.traceExplains) : t.traceExplains := by
  obtain ⟨hcfg, -, -, -, -, -, -, htrace, hpins, htgt⟩ := commandBody_bus hf hc h
  refine State.traceExplains_of_events _ hs hcfg htrace ?_
  rw [State.view, replay_append, replay_leadEvents, replay_eventsOf, State.view, hpins, htgt]

/-- Settles O19: power-on starts the trace again, and a command's events replay to what it does. -/
theorem thePinTraceExplainsTheTarget : Obligations.ThePinTraceExplainsTheTarget := by
  intro s t hs h
  rcases step_cases h with rfl | ⟨rest, -, rfl⟩ |
    ⟨cw, rest, -, -, ⟨-, rfl⟩ | ⟨-, c, w, rfl⟩ | ⟨hf, i, u, -, hc, hu, rfl⟩⟩
  · exact hs
  · exact powerOnInput_traceExplains rest s
  · exact hs
  · exact hs
  · exact commandBody_traceExplains (s := acceptWord rest s) (t := u) hf hc hu hs

end Sys2Proof.Machine
end

section
/-! PROOFS of the family 10_state.md: power-on, the invariant of the machine, who writes which register, the target no command
reads, and the steps of the sequencer. -/

namespace Sys2Proof.Machine

/-! ### The effects of the commands, as a relation (10_state.md R22, R24, R29) -/

/-- What an admitted command whose operands pass its checks makes of the state. -/
inductive Effect : Instr → State → State → Prop
  | begin (s : State) : Effect .begin s (resetSequence (pinInit s)).setBegun
  | reset (s : State) : Effect .reset s (resetSequence s)
  | write (addr : Addr) (data : Byte) (s : State) : Effect (.write addr data) s (busWrites [(addr, data)] s)
  | opoff {idx : BitVec 6} {k : Fin 36} (hk : opIndex idx = .ok k) (s : State) :
      Effect (.opoff idx) s (s.setRes (operatorOffset k))
  | choff {idx : BitVec 6} {k : Fin 18} (hk : chIndex idx = .ok k) (s : State) :
      Effect (.choff idx) s (s.setRes (channelOffset k))
  | updop {idx : BitVec 6} {k : Fin 36} (hk : opIndex idx = .ok k) (s : State) :
      Effect (.updop idx) s (busWrites (updopWrites s.cfg.toParams k (s.op k)) s)
  | keyon {idx : BitVec 6} {k : Fin 18} (hk : chIndex idx = .ok k) (s : State) :
      Effect (.keyon idx) s (busWrites (keyonWrites s.cfg.toParams k ((setKeyOn k true s).ch k)) (setKeyOn k true s))
  | keyoff {idx : BitVec 6} {k : Fin 18} (hk : chIndex idx = .ok k) (s : State) :
      Effect (.keyoff idx) s (busWrites (keyoffWrites s.cfg.toParams k ((setKeyOn k false s).ch k)) (setKeyOn k false s))
  | setfreq {idx : BitVec 6} {freq : BitVec 16} {k : Fin 18} {f : BitVec 10} {b : BitVec 3} {s : State}
      (hk : chIndex idx = .ok k) (hfb : convert s.cfg.toParams freq.toNat = .ok (f, b)) :
      Effect (.setfreq idx freq) s (setFrequency k f b s)
  | opset {idx : BitVec 6} {fsel : BitVec 4} {k : Fin 36} {f : OpField} (hk : opIndex idx = .ok k)
      (hf : opField fsel = .ok f) (val : BitVec 10) (s : State) :
      Effect (.opset idx fsel val) s (s.setOp k (writeOpField f val (s.op k)))
  | chset {idx : BitVec 6} {fsel : BitVec 4} {k : Fin 18} {f : ChField} (hk : chIndex idx = .ok k)
      (hf : chField fsel = .ok f) (val : BitVec 10) (s : State) :
      Effect (.chset idx fsel val) s (s.setCh k (writeChField f val (s.ch k)))

/-- A body that passes its checks has the command's effect. -/
theorem effect_of_commandBody {i : Instr} {s t : State} (h : commandBody i s = .ok t) : Effect i s t := by
  cases i with
  | begin =>
    obtain rfl := Except.ok.inj h
    exact .begin s
  | reset =>
    obtain rfl := Except.ok.inj h
    exact .reset s
  | write addr data =>
    obtain rfl := Except.ok.inj h
    exact .write addr data s
  | opoff | choff | updop | keyon | keyoff =>
    simp only [commandBody] at h
    split at h
    · cases h
    · obtain rfl := Except.ok.inj h
      constructor
      assumption
  | setfreq | opset | chset =>
    simp only [commandBody] at h
    split at h
    · cases h
    · cases h
    · obtain rfl := Except.ok.inj h
      constructor <;> assumption

/-- A command's effect is what its body answers. -/
theorem commandBody_of_effect {i : Instr} {s t : State} (h : Effect i s t) : commandBody i s = .ok t := by
  cases h with
  | begin | reset | write => rfl
  | opoff hk | choff hk | updop hk | keyon hk | keyoff hk => simp only [commandBody, hk]
  | setfreq hk hfb => simp only [commandBody, hk, hfb]
  | opset hk hf | chset hk hf => simp only [commandBody, hk, hf]

/-! ### What the shared operations leave of the core's registers -/

@[simp] theorem busWrites_ops (l : List (Addr × Byte)) (s : State) : (busWrites l s).ops = s.ops := by rw [busWrites_eq]
@[simp] theorem busWrites_chs (l : List (Addr × Byte)) (s : State) : (busWrites l s).chs = s.chs := by rw [busWrites_eq]
@[simp] theorem busWrites_begun (l : List (Addr × Byte)) (s : State) : (busWrites l s).begun = s.begun := by
  rw [busWrites_eq]
@[simp] theorem busWrites_res (l : List (Addr × Byte)) (s : State) : (busWrites l s).res = s.res := by rw [busWrites_eq]

@[simp] theorem pinInit_res (s : State) : (pinInit s).res = s.res := by rw [pinInit_eq]

@[simp] theorem resetSequence_begun (s : State) : (resetSequence s).begun = s.begun := by
  cases h : s.cfg.hasResetLine
  · rw [resetSequence_software h, loadDefaults_begun]
  · rw [resetSequence_hardware h, loadDefaults_begun]

@[simp] theorem resetSequence_res (s : State) : (resetSequence s).res = s.res := by
  cases h : s.cfg.hasResetLine
  · rw [resetSequence_software h, loadDefaults_res]
  · rw [resetSequence_hardware h, loadDefaults_res]

/-! ### Who writes which register -/

theorem Effect.begun_of_begin {s t : State} (h : Effect .begin s t) : t.begun = true := by
  cases h with
  | begin => exact State.setBegun_begun _

theorem Effect.begun_eq {i : Instr} {s t : State} (h : Effect i s t) (hi : i ≠ .begin) : t.begun = s.begun := by
  cases h with
  | begin => exact absurd rfl hi
  | reset => exact resetSequence_begun s
  | write | updop | keyon | keyoff => exact busWrites_begun _ _
  | opoff | choff | setfreq | opset | chset => rfl

theorem Effect.res_eq {i : Instr} {s t : State} (h : Effect i s t) :
    t.res = s.res ∨ ∃ idx, i = .opoff idx ∨ i = .choff idx := by
  cases h with
  | opoff => exact .inr ⟨_, .inl rfl⟩
  | choff => exact .inr ⟨_, .inr rfl⟩
  | begin => exact .inl ((resetSequence_res _).trans (pinInit_res s))
  | reset => exact .inl (resetSequence_res s)
  | write | updop | keyon | keyoff => exact .inl (busWrites_res _ _)
  | setfreq | opset | chset => exact .inl rfl

theorem Effect.ops_eq {i : Instr} {s t : State} (h : Effect i s t) :
    t.ops = s.ops ∨ i = .begin ∨ i = .reset ∨ ∃ idx fsel val, i = .opset idx fsel val := by
  cases h with
  | begin => exact .inr (.inl rfl)
  | reset => exact .inr (.inr (.inl rfl))
  | opset => exact .inr (.inr (.inr ⟨_, _, _, rfl⟩))
  | write | updop | keyon | keyoff => exact .inl (busWrites_ops _ _)
  | opoff | choff | setfreq | chset => exact .inl rfl

theorem Effect.chs_eq {i : Instr} {s t : State} (h : Effect i s t) :
    t.chs = s.chs ∨ i = .begin ∨ i = .reset ∨ (∃ idx fsel val, i = .chset idx fsel val) ∨
      (∃ idx freq, i = .setfreq idx freq) ∨ ∃ idx, i = .keyon idx ∨ i = .keyoff idx := by
  cases h with
  | begin => exact .inr (.inl rfl)
  | reset => exact .inr (.inr (.inl rfl))
  | chset => exact .inr (.inr (.inr (.inl ⟨_, _, _, rfl⟩)))
  | setfreq => exact .inr (.inr (.inr (.inr (.inl ⟨_, _, rfl⟩))))
  | keyon => exact .inr (.inr (.inr (.inr (.inr ⟨_, .inl rfl⟩))))
  | keyoff => exact .inr (.inr (.inr (.inr (.inr ⟨_, .inr rfl⟩))))
  | write | updop => exact .inl (busWrites_chs _ _)
  | opoff | choff | opset => exact .inl rfl

/-- Settles O55: an ignored command writes nothing, a fault the fault registers only, and each effect what the lemmas above
say. -/
theorem whoWritesTheFlags : Obligations.WhoWritesTheFlags := by
  intro i s t h
  rcases exec_cases h with ⟨-, rfl⟩ | ⟨hf, c, -, rfl⟩ | ⟨hf, hc, hbody⟩
  · exact ⟨fun hne => absurd rfl hne, fun hne => absurd rfl hne, id, fun _ => ⟨rfl, rfl⟩, rfl⟩
  · refine ⟨fun hne => absurd rfl hne, fun hne => absurd rfl hne, fun _ => rfl, fun heq => ?_, rfl⟩
    simp [hf] at heq
  · have heff := effect_of_commandBody hbody
    obtain ⟨-, -, hbusy, hfault, hcode, hinfo, -⟩ := commandBody_bus hf hc hbody
    refine ⟨fun hne => ?_, heff.res_eq.resolve_left, fun hs => hfault.trans hs, fun _ => ⟨hcode, hinfo⟩, hbusy⟩
    have hi : i = .begin := by_contra fun hi => hne (heff.begun_eq hi)
    subst hi
    exact ⟨rfl, heff.begun_of_begin⟩

/-- Settles O56: only an effect can write a file, and each effect writes what the lemmas above say. -/
theorem whoWritesTheFiles : Obligations.WhoWritesTheFiles := by
  intro i s t h
  rcases exec_cases h with ⟨-, rfl⟩ | ⟨-, c, -, rfl⟩ | ⟨-, -, hbody⟩
  · exact ⟨fun hne => absurd rfl hne, fun hne => absurd rfl hne⟩
  · exact ⟨fun hne => absurd rfl hne, fun hne => absurd rfl hne⟩
  · have heff := effect_of_commandBody hbody
    exact ⟨heff.ops_eq.resolve_left, heff.chs_eq.resolve_left⟩

/-! ### No command reads the target (10_state.md R25) -/

theorem busWrites_withTarget (l : List (Addr × Byte)) (s : State) (g : Target) :
    busWrites l { s with tgt := g } = { busWrites l s with tgt := targetAfterAll s.cfg.aExt l g } := by
  simp only [busWrites_eq]

theorem pinInit_withTarget (s : State) (g : Target) : pinInit { s with tgt := g } = { pinInit s with tgt := g } := by
  simp only [pinInit_eq]

theorem resetSequence_withTarget (s : State) (g : Target) :
    ∃ g', resetSequence { s with tgt := g } = { resetSequence s with tgt := g' } := by
  cases h : s.cfg.hasResetLine
  · exact ⟨_, by rw [resetSequence_software h, resetSequence_software (s := { s with tgt := g }) h]; rfl⟩
  · exact ⟨_, by rw [resetSequence_hardware h, resetSequence_hardware (s := { s with tgt := g }) h]; rfl⟩

/-- An effect from another target is the same effect but for the target. -/
theorem Effect.withTarget {i : Instr} {s t : State} (h : Effect i s t) (g : Target) :
    ∃ g', Effect i { s with tgt := g } { t with tgt := g' } := by
  cases h with
  | begin =>
    obtain ⟨g', hg⟩ := resetSequence_withTarget (pinInit s) g
    have he := Effect.begin { s with tgt := g }
    rw [pinInit_withTarget, hg] at he
    exact ⟨g', he⟩
  | reset =>
    obtain ⟨g', hg⟩ := resetSequence_withTarget s g
    exact ⟨g', hg ▸ Effect.reset { s with tgt := g }⟩
  | write addr data => exact ⟨_, busWrites_withTarget _ s g ▸ Effect.write addr data { s with tgt := g }⟩
  | updop hk => exact ⟨_, busWrites_withTarget _ s g ▸ Effect.updop hk { s with tgt := g }⟩
  | keyon hk => exact ⟨_, busWrites_withTarget _ (setKeyOn _ true s) g ▸ Effect.keyon hk { s with tgt := g }⟩
  | keyoff hk => exact ⟨_, busWrites_withTarget _ (setKeyOn _ false s) g ▸ Effect.keyoff hk { s with tgt := g }⟩
  | opoff hk => exact ⟨g, .opoff hk { s with tgt := g }⟩
  | choff hk => exact ⟨g, .choff hk { s with tgt := g }⟩
  | setfreq hk hfb => exact ⟨g, .setfreq (s := { s with tgt := g }) hk hfb⟩
  | opset hk hf val => exact ⟨g, .opset hk hf val { s with tgt := g }⟩
  | chset hk hf val => exact ⟨g, .chset hk hf val { s with tgt := g }⟩

/-- A command with a cause raises it. -/
theorem exec_of_cause {i : Instr} {s : State} {c : Cause} (hf : s.fault = false) (hc : faultCause i s = some c) :
    exec i s = .next (s.setFault c (encode i)) := by
  rcases exec_spec i s with ⟨hf', -⟩ | ⟨-, c', hc', e⟩ | ⟨-, hc', -⟩
  · simp [hf] at hf'
  · cases hc.symm.trans hc'
    exact e
  · cases hc.symm.trans hc'

/-- A command without a cause has its effect. -/
theorem exec_of_effect {i : Instr} {s t : State} (hf : s.fault = false) (hc : faultCause i s = none) (h : Effect i s t) :
    exec i s = .next t := by
  rcases exec_spec i s with ⟨hf', -⟩ | ⟨-, c, hc', -⟩ | ⟨-, -, u, hu, e⟩
  · simp [hf] at hf'
  · cases hc.symm.trans hc'
  · cases (commandBody_of_effect h).symm.trans hu
    exact e

theorem faultCause_withTarget (i : Instr) (s : State) (g : Target) :
    faultCause i { s with tgt := g } = faultCause i s := rfl

/-- Settles O53: neither the admission and the checks of a command nor its effect depend on the target. -/
theorem commandsNeverReadTheTarget : Obligations.CommandsNeverReadTheTarget := by
  intro i s t g h
  rcases exec_cases h with ⟨hf, rfl⟩ | ⟨hf, c, hc, rfl⟩ | ⟨hf, hc, hbody⟩
  · exact ⟨g, (exec_eq i _).trans (runCommand_faulted (s := { t with tgt := g }) hf i _)⟩
  · exact ⟨g, exec_of_cause (s := { s with tgt := g }) hf ((faultCause_withTarget i s g).trans hc)⟩
  · obtain ⟨g', hg⟩ := (effect_of_commandBody hbody).withTarget g
    exact ⟨g', exec_of_effect hf ((faultCause_withTarget i s g).trans hc) hg⟩

/-! ### The state of power-on (10_state.md R38) -/

/-- Settles O8: the values of `State.powerOn`. -/
theorem powerOnInputClearsTheFlags : Obligations.PowerOnInputClearsTheFlags := by
  intro s rest h
  have hstep : step s = .next (powerOnInput rest s) := by simp only [step, h]
  exact ⟨_, hstep, rfl, rfl, rfl, rfl, rfl, rfl, rfl, rfl, rfl, rfl, Memory.read_nil, rfl, rfl⟩

theorem State.powerOn_Inv (cfg : Config) (host : List HostInput) : (State.powerOn cfg host).Inv where
  memory := Memory.wf_nil
  idle := ⟨rfl, rfl⟩
  noFault _ := ⟨rfl, rfl⟩
  faultCode h := nomatch h
  beforeBegin _ := ⟨rfl, rfl⟩
  busIdle h := nomatch h
  lastWrite h := nomatch h

/-- The monitor over the empty trace is where it starts. -/
theorem State.powerOn_timingMet (cfg : Config) (host : List HostInput) : (State.powerOn cfg host).timingMet :=
  ⟨rfl, rfl, Nat.le_refl _⟩

/-- Settles O51: `State.reset` is a power-on state. -/
theorem resetMeetsTheInvariants : Obligations.ResetMeetsTheInvariants :=
  ⟨State.powerOn_Inv _ _, powerOnInput_traceExplains [] State.reset, State.powerOn_timingMet _ _⟩

/-! ### Every step keeps the invariant (10_state.md R26, R29, R31; 40_bus_write.md R138) -/

/-- A command that finds no cause is `BEGIN`, or comes after it (60_exceptions.md R232). -/
theorem begun_or_begin_of_faultCause_none {i : Instr} {s : State} (hc : faultCause i s = none) :
    s.begun = true ∨ i = .begin := by
  unfold faultCause at hc
  split at hc
  · cases hc
  · split at hc
    · cases hc
    · rename_i hb
      cases hbegun : s.begun with
      | true => exact .inl rfl
      | false => exact .inr (by simpa [hbegun] using hb)

/-- After a command that finds no cause the core has begun. -/
theorem Effect.begun_of_faultCause_none {i : Instr} {s t : State} (h : Effect i s t) (hc : faultCause i s = none) :
    t.begun = true := by
  by_cases hi : i = .begin
  · subst hi
    exact h.begun_of_begin
  · exact (h.begun_eq hi).trans ((begun_or_begin_of_faultCause_none hc).resolve_right hi)

theorem Cause.code_range (c : Cause) : 1 ≤ c.code.toNat ∧ c.code.toNat ≤ 6 := by cases c <;> decide

/-! The transactions a command issues: the reset sequence ends with extended mode on, and only the other commands, which have
no lead-in, issue none. -/

theorem issuedBy_begin {s : State} (hf : s.fault = false) (hc : faultCause .begin s = none) :
    issuedBy .begin s = resetWrites s.cfg.toParams := by simp [issuedBy, hf, hc]

theorem issuedBy_reset {s : State} (hf : s.fault = false) (hc : faultCause .reset s = none) :
    issuedBy .reset s = resetWrites s.cfg.toParams := by simp [issuedBy, hf, hc]

theorem resetWrites_ne_nil (p : Params) : resetWrites p ≠ [] := by simp [resetWrites]

/-- The last baseline write is the one to `A_EXT` (41_reset_init.md R159). -/
theorem ext_targetAfterAll_resetWrites (p : Params) (t : Target) :
    (targetAfterAll p.aExt (resetWrites p) t).ext ≠ none := by
  simp [ext_targetAfterAll, resetWrites, List.foldl_append]

/-- Known extended mode stays known: a write to `A_EXT` says what it is. -/
theorem ext_targetAfterAll_ne_none {t : Target} (h : t.ext ≠ none) (aExt : Addr) (l : List (Addr × Byte)) :
    (targetAfterAll aExt l t).ext ≠ none := by
  induction l generalizing t with
  | nil => exact h
  | cons x l ih =>
    refine ih (t := targetAfter aExt x.1 x.2 t) ?_
    simp only [targetAfter, Target.ext_write]
    split
    · exact Option.some_ne_none _
    · exact h

/-- Before its transactions a command leaves the target as it is or resets it (41_reset_init.md R156). -/
theorem leadTarget_cases (p : Params) (t : Target) (i : Instr) :
    leadTarget p t i = t ∨ leadTarget p t i = t.hardwareReset := by
  cases i with
  | begin | reset =>
    simp only [leadTarget]
    split
    · exact .inr rfl
    · exact .inl rfl
  | write | opoff | choff | updop | keyon | keyoff | setfreq | opset | chset => exact .inl rfl

theorem leadTarget_wf {t : Target} (h : t.shadow.wf) (p : Params) (i : Instr) : (leadTarget p t i).shadow.wf := by
  rcases leadTarget_cases p t i with e | e <;> rw [e]
  · exact h
  · rw [Target.hardwareReset_shadow]
    exact Memory.wf_allZero

theorem leadTarget_ext_ne_none {t : Target} (h : t.ext ≠ none) (p : Params) (i : Instr) :
    (leadTarget p t i).ext ≠ none := by
  rcases leadTarget_cases p t i with e | e <;> rw [e]
  · exact h
  · rw [Target.hardwareReset_ext]
    exact Option.some_ne_none _

/-- The lead-in leaves an idle reset line idle, and that of `BEGIN` makes it so. -/
theorem leadPins_rst {p : Params} (hl : p.hasResetLine = true) {q : Pins} {i : Instr}
    (h : q.rst = .inactive ∨ i = .begin) : (leadPins p q i).rst = .inactive := by
  cases i with
  | begin | reset => simp only [leadPins, hl, if_true]
  | write | opoff | choff | updop | keyon | keyoff | setfreq | opset | chset => exact h.resolve_right nofun

/-- The bus is idle, and the latches and `T_ADDR` are as the last transaction in `WLOG` left them (40_bus_write.md R138). -/
def Settled (q : Pins) (t : Target) : Prop :=
  q.cs = .off ∧ q.wr = .high ∧ ∃ a d, t.wlogRev.head? = some (a, d) ∧ t.addr = some a ∧
    q.mode = .data ∧ q.bank = a.extractLsb' 8 1 ∧ q.d = d

theorem settled_after_transactions {l : List (Addr × Byte)} (hl : l ≠ []) (aExt : Addr) (q : Pins) (t : Target) :
    Settled (pinsAfterAll l q) (targetAfterAll aExt l t) := by
  obtain ⟨l', x, rfl⟩ : ∃ l' x, l = l' ++ [x] := ⟨_, _, (List.dropLast_append_getLast hl).symm⟩
  have hlog : (targetAfterAll aExt (l' ++ [x]) t).wlogRev.head? = some x := by simp [wlog_targetAfterAll]
  have haddr := addr_targetAfterAll_append aExt l' x t
  rw [pinsAfterAll_append]
  exact ⟨rfl, rfl, x.1, x.2, hlog, haddr, rfl, rfl, rfl⟩

/-- A command that issues no transaction has no lead-in. -/
theorem lead_of_issuedBy_nil {i : Instr} {s : State} (hf : s.fault = false) (hc : faultCause i s = none)
    (h : issuedBy i s = []) (p : Params) (q : Pins) (t : Target) :
    i ≠ .begin ∧ leadPins p q i = q ∧ leadTarget p t i = t := by
  cases i with
  | begin => exact absurd ((issuedBy_begin hf hc).symm.trans h) (resetWrites_ne_nil _)
  | reset => exact absurd ((issuedBy_reset hf hc).symm.trans h) (resetWrites_ne_nil _)
  | write | opoff | choff | updop | keyon | keyoff | setfreq | opset | chset => exact ⟨nofun, rfl, rfl⟩

section
variable {i : Instr} {s t : State} (hf : s.fault = false) (hc : faultCause i s = none) (h : commandBody i s = .ok t)
include hf hc h

/-- The transactions of a command leave the bus settled; without any it stays as it was. -/
theorem commandBody_settled (hs : s.begun = true → Settled s.pins s.tgt) : Settled t.pins t.tgt := by
  obtain ⟨-, -, -, -, -, -, -, -, hpins, htgt⟩ := commandBody_bus hf hc h
  rw [hpins, htgt]
  by_cases hl : issuedBy i s = []
  · obtain ⟨hi, hq, ht⟩ := lead_of_issuedBy_nil hf hc hl s.cfg.toParams s.pins s.tgt
    rw [hl, hq, ht]
    exact hs ((begun_or_begin_of_faultCause_none hc).resolve_right hi)
  · exact settled_after_transactions hl _ _ _

/-- `BEGIN` makes extended mode known, and it stays known. -/
theorem commandBody_ext_ne_none (hs : s.begun = true → s.tgt.ext ≠ none) : t.tgt.ext ≠ none := by
  obtain ⟨-, -, -, -, -, -, -, -, -, htgt⟩ := commandBody_bus hf hc h
  rw [htgt]
  rcases begun_or_begin_of_faultCause_none hc with hb | rfl
  · exact ext_targetAfterAll_ne_none (leadTarget_ext_ne_none (hs hb) _ i) _ _
  · rw [issuedBy_begin hf hc]
    exact ext_targetAfterAll_resetWrites _ _

/-- `BEGIN` puts a reset line to rest, and no command leaves it active. -/
theorem commandBody_rst_inactive (hl : s.cfg.hasResetLine = true) (hs : s.begun = true → s.pins.rst = .inactive) :
    t.pins.rst = .inactive := by
  obtain ⟨-, -, -, -, -, -, -, -, hpins, -⟩ := commandBody_bus hf hc h
  rw [hpins, rst_pinsAfterAll]
  exact leadPins_rst hl ((begun_or_begin_of_faultCause_none hc).imp_left hs)

theorem commandBody_wf (hs : s.tgt.shadow.wf) : t.tgt.shadow.wf := by
  obtain ⟨-, -, -, -, -, -, -, -, -, htgt⟩ := commandBody_bus hf hc h
  rw [htgt]
  exact wf_targetAfterAll (leadTarget_wf hs _ i) _ _

end

/-- An accepted word that is ignored changes nothing the invariant speaks of. -/
theorem State.Inv.ignored {s : State} (hs : s.Inv) (rest : List HostInput) : (completeCommand (acceptWord rest s)).Inv :=
  { hs with idle := ⟨rfl, rfl⟩ }

/-- A fault records one of the six codes and changes nothing else. -/
theorem State.Inv.faulted {s : State} (hs : s.Inv) (rest : List HostInput) (c : Cause) (cw : CmdWord) :
    (completeCommand ((acceptWord rest s).setFault c cw)).Inv :=
  { hs with
    idle := ⟨rfl, rfl⟩
    noFault := nofun
    faultCode := fun _ => c.code_range }

/-- An admitted command's effect, run to completion, keeps the invariant. -/
theorem State.Inv.completed {i : Instr} {s t : State} {rest : List HostInput} (hs : s.Inv) (hf : s.fault = false)
    (hc : faultCause i (acceptWord rest s) = none) (h : commandBody i (acceptWord rest s) = .ok t) :
    (completeCommand t).Inv := by
  obtain ⟨hcfg, -, -, hfault, hcode, hinfo, -⟩ := commandBody_bus (s := acceptWord rest s) hf hc h
  have hbegun : t.begun = true := (effect_of_commandBody h).begun_of_faultCause_none hc
  have hwf : t.tgt.shadow.wf := commandBody_wf (s := acceptWord rest s) hf hc h hs.memory
  have hsettled : Settled t.pins t.tgt := commandBody_settled (s := acceptWord rest s) hf hc h fun hb =>
    have ⟨hcs, hwr, _⟩ := hs.busIdle hb
    ⟨hcs, hwr, hs.lastWrite hb⟩
  have hext : t.tgt.ext ≠ none := commandBody_ext_ne_none (s := acceptWord rest s) hf hc h fun hb =>
    have ⟨_, _, _, hext⟩ := hs.busIdle hb
    hext
  have hrst (hl : t.cfg.hasResetLine = true) : t.pins.rst = .inactive := by
    rw [hcfg] at hl
    refine commandBody_rst_inactive (s := acceptWord rest s) hf hc h hl fun hb => ?_
    obtain ⟨-, -, hrst, -⟩ := hs.busIdle hb
    exact hrst hl
  obtain ⟨hcs, hwr, hlast⟩ := hsettled
  exact
    { memory := hwf
      idle := ⟨rfl, rfl⟩
      noFault := fun _ => by
        obtain ⟨hcode', hinfo'⟩ := hs.noFault hf
        exact ⟨hcode.trans hcode', hinfo.trans hinfo'⟩
      faultCode := fun htrue => by cases htrue.symm.trans (hfault.trans hf)
      beforeBegin := fun hfalse => by cases hfalse.symm.trans hbegun
      busIdle := fun _ => ⟨hcs, hwr, hrst, hext⟩
      lastWrite := fun _ => hlast }

/-- Settles O50: power-on has the invariant, and idling, an ignored word, a fault and a completed command each keep it. -/
theorem stepsKeepTheInvariant : Obligations.StepsKeepTheInvariant := by
  intro s t hs h
  rcases step_cases h with rfl | ⟨rest, -, rfl⟩ |
    ⟨cw, rest, -, -, ⟨-, rfl⟩ | ⟨-, c, w, rfl⟩ | ⟨hf, i, u, -, hc, hu, rfl⟩⟩
  · exact hs
  · exact State.powerOn_Inv s.cfg rest
  · exact hs.ignored rest
  · exact hs.faulted rest c w
  · exact hs.completed hf hc hu

/-! ### The steps of the sequencer (10_state.md R26, R27) -/

@[simp] theorem endPulse_seq (s : State) : (endPulse s).seq = s.seq := rfl

@[simp] theorem strobe_seq (s : State) : (strobe s).seq = s.seq := by
  simp only [strobe, delay_seq, endPulse_seq, setLine_seq]

/-- What a step does on the bus leaves the position. -/
@[simp] theorem busAction_seq (a : Addr) (d : Byte) (n : Nat) (s : State) : (busAction a d n s).seq = s.seq := by
  unfold busAction
  split <;> simp only [setLine_seq, delay_seq, strobe_seq]

@[simp] theorem busStep_seq (w : Nat) (a : Addr) (d : Byte) (s : State) (n : Nat) :
    (busStep w a d s n).seq = ⟨w, n⟩ := busAction_seq a d n _

/-- A step acts on what the steps before it left. -/
theorem busSteps_succ (w : Nat) (a : Addr) (d : Byte) (k : Nat) (s : State) :
    busSteps w a d (k + 1) s = busStep w a d (busSteps w a d k s) (k + 1) := by
  rw [busSteps, List.range'_1_concat, List.foldl_append, Nat.add_comm 1 k]
  rfl

/-- Step `n + 1` of transaction `j` acts on what the `11 j + n` steps before it left. -/
theorem busProgressFrom_succ {l : List (Addr × Byte)} {j n : Nat} (hj : j < l.length) (hn : n < 11) (w : Nat) (s : State) :
    busProgressFrom w l (11 * j + n + 1) s =
      busStep (w + j) l[j].1 l[j].2 (busProgressFrom w l (11 * j + n) s) (n + 1) := by
  induction j generalizing l w s with
  | zero =>
    obtain ⟨x, l, rfl⟩ := List.exists_cons_of_length_pos hj
    rw [Nat.mul_zero, Nat.zero_add, busProgressFrom_first hn, busProgressFrom_first hn.le, busSteps_succ]
    rfl
  | succ j ih =>
    obtain ⟨x, l, rfl⟩ := List.exists_cons_of_length_pos (Nat.zero_lt_of_lt hj)
    have hsteps : 11 * (j + 1) + n = 11 * j + n + 11 := by omega
    have hposition : w + (j + 1) = w + 1 + j := by omega
    rw [hsteps, Nat.add_right_comm, busProgressFrom_rest, busProgressFrom_rest, ih (Nat.lt_of_succ_lt_succ hj), hposition]
    rfl

theorem busProgress_zero (l : List (Addr × Byte)) (s : State) : busProgress l 0 s = s := by
  cases l with
  | nil => rfl
  | cons x l => exact busProgressFrom_first (Nat.zero_le 11) s

/-- The bus as a command's first transaction finds it, field by field. -/
theorem busLead_eq (i : Instr) (s : State) :
    busLead i s =
      { s with
        pins := leadPins s.cfg.toParams s.pins i
        traceRev := (leadEvents s.cfg.toParams i).reverse ++ s.traceRev
        tgt := leadTarget s.cfg.toParams s.tgt i } := by
  cases i with
  | begin =>
    cases h : s.cfg.hasResetLine <;>
      simp [busLead, resetLead, pinInit_eq, hardwareResetPath_eq, leadPins, leadEvents, leadTarget, h]
  | reset =>
    cases h : s.cfg.hasResetLine <;> simp [busLead, resetLead, hardwareResetPath_eq, leadPins, leadEvents, leadTarget, h]
  | write | opoff | choff | updop | keyon | keyoff | setfreq | opset | chset => rfl

/-- An effect leaves the bus as the command's transactions from its lead-in do. -/
theorem commandBody_sameBus {i : Instr} {s t : State} (hseq : s.seq = Seq.idle) (hf : s.fault = false)
    (hc : faultCause i s = none) (h : commandBody i s = .ok t) : SameBus (busWrites (issuedBy i s) (busLead i s)) t := by
  obtain ⟨-, -, -, -, -, -, hidle, htrace, hpins, htgt⟩ := commandBody_bus hf hc h
  have htraceRev : (busWrites (issuedBy i s) (busLead i s)).traceRev = t.traceRev := by
    rw [busWrites_eq, busLead_eq, htrace, List.reverse_append, List.append_assoc]
  have htgt' : (busWrites (issuedBy i s) (busLead i s)).tgt = t.tgt := by rw [busWrites_eq, busLead_eq, htgt]
  have hpins' : (busWrites (issuedBy i s) (busLead i s)).pins = t.pins := by rw [busWrites_eq, busLead_eq, hpins]
  have hseq' : (busWrites (issuedBy i s) (busLead i s)).seq = t.seq := (hidle hseq).symm
  simp only [SameBus, State.pinTrace, State.writeLog, hseq', hpins', htraceRev, htgt', implies_true, and_self]

/-- Settles O17: the recursion of `busSteps` and of `busProgress`, step by step, and the bus side of each command's effect. -/
theorem sequencerStepsInOrder : Obligations.SequencerStepsInOrder := by
  refine ⟨fun w a d s k hk _ => ?_, fun l s => ⟨busProgress_zero l s, fun j hj n hn hn' => ?_, rfl⟩,
    fun i s t hseq hf hc h => ?_⟩
  · obtain ⟨k, rfl⟩ := Nat.exists_eq_add_of_le' hk
    have hstep := busSteps_succ w a d k s
    exact ⟨(congrArg State.seq hstep).trans (busStep_seq w a d _ _), hstep⟩
  · obtain ⟨n, rfl⟩ := Nat.exists_eq_add_of_le' hn
    have hstep : busProgress l (11 * j + n + 1) s = busStep j l[j].1 l[j].2 (busProgress l (11 * j + n) s) (n + 1) := by
      have := busProgressFrom_succ hj hn' 0 s
      rwa [Nat.zero_add] at this
    exact ⟨(congrArg State.seq hstep).trans (busStep_seq j _ _ _ _), hstep⟩
  · rcases exec_cases h with ⟨hf', -⟩ | ⟨-, c, hc', -⟩ | ⟨-, -, hbody⟩
    · cases hf'.symm.trans hf
    · cases hc'.symm.trans hc
    · exact commandBody_sameBus hseq hf hc hbody

end Sys2Proof.Machine
end

section
/-! PROOFS of the family 20_memory.md: register addresses, and the write log of a command. -/

namespace Sys2Proof.Machine

/-! ### Register addresses (20_memory.md R73) -/

theorem operatorOffset_low_le (i : Fin 36) : ((operatorOffset i).extractLsb' 0 8).toNat ≤ 21 := by
  revert i
  decide

theorem channelOffset_low_le (i : Fin 18) : ((channelOffset i).extractLsb' 0 8).toNat ≤ 8 := by
  revert i
  decide

/-- An address as the number of its bank and its in-bank part. -/
theorem toNat_eq_bank_low (a : Addr) : a.toNat = 0x100 * (a.extractLsb' 8 1).toNat + (a.extractLsb' 0 8).toNat := by
  simp only [BitVec.extractLsb'_toNat, Nat.shiftRight_eq_div_pow]
  omega

section
variable {base : Byte} {off : Addr} (h : base.toNat + (off.extractLsb' 0 8).toNat < 0x100)
include h

/-- The sum stays in the offset's bank, so it does not wrap at the end of the register space either. -/
theorem toNat_registerAddress : (registerAddress base off).toNat = base.toNat + off.toNat := by
  have hoff := toNat_eq_bank_low off
  have hbase : (base.setWidth 9).toNat = base.toNat := BitVec.toNat_setWidth_of_le (by decide)
  rw [registerAddress, BitVec.toNat_add, hbase]
  omega

theorem bank_registerAddress : (registerAddress base off).extractLsb' 8 1 = off.extractLsb' 8 1 := by
  have hoff := toNat_eq_bank_low off
  have haddr := toNat_eq_bank_low (registerAddress base off)
  rw [toNat_registerAddress h] at haddr
  apply BitVec.eq_of_toNat_eq
  omega

theorem low_registerAddress :
    ((registerAddress base off).extractLsb' 0 8).toNat = base.toNat + (off.extractLsb' 0 8).toNat := by
  have hoff := toNat_eq_bank_low off
  have haddr := toNat_eq_bank_low (registerAddress base off)
  rw [toNat_registerAddress h, bank_registerAddress h] at haddr
  omega

end

/-- Settles O31: the limits 0xEA and 0xF7 on the bases leave room in the bank for the largest in-bank offsets, 21 and 8. -/
theorem registerAddressesKeepTheirBank : Obligations.RegisterAddressesKeepTheirBank := by
  intro c
  refine ⟨fun b hb i => ?_, fun b hb i => ?_⟩
  · have hroom : b.toNat + ((operatorOffset i).extractLsb' 0 8).toNat < 0x100 :=
      Nat.lt_succ_of_le (Nat.add_le_add (c.opBase_le hb) (operatorOffset_low_le i))
    exact ⟨rfl, bank_registerAddress hroom, low_registerAddress hroom⟩
  · have hroom : b.toNat + ((channelOffset i).extractLsb' 0 8).toNat < 0x100 :=
      Nat.lt_succ_of_le (Nat.add_le_add (c.chBase_le hb) (channelOffset_low_le i))
    exact ⟨rfl, bank_registerAddress hroom, low_registerAddress hroom⟩

/-! ### The write log (20_memory.md R61, R74) -/

theorem issuedBy_of_fault {s : State} (hf : s.fault = true) (i : Instr) : issuedBy i s = [] := by
  simp only [issuedBy, hf, Bool.true_or, if_true]

theorem issuedBy_of_cause {i : Instr} {s : State} {c : Cause} (hc : faultCause i s = some c) : issuedBy i s = [] := by
  simp only [issuedBy, hc, Option.isSome_some, Bool.or_true, if_true]

@[simp] theorem State.setFault_writeLog (c : Cause) (cw : CmdWord) (s : State) :
    (s.setFault c cw).writeLog = s.writeLog := rfl

/-- The reset pulse does not touch the log (41_reset_init.md R156). -/
@[simp] theorem leadTarget_wlogRev (p : Params) (t : Target) (i : Instr) : (leadTarget p t i).wlogRev = t.wlogRev := by
  rcases leadTarget_cases p t i with e | e
  · rw [e]
  · rw [e, Target.hardwareReset_wlogRev]

/-- An admitted command logs its transactions, in the order issued. -/
theorem commandBody_writeLog {i : Instr} {s t : State} (hf : s.fault = false) (hc : faultCause i s = none)
    (h : commandBody i s = .ok t) : t.writeLog = s.writeLog ++ issuedBy i s := by
  obtain ⟨-, -, -, -, -, -, -, -, -, htgt⟩ := commandBody_bus hf hc h
  rw [State.writeLog, htgt, wlog_targetAfterAll, leadTarget_wlogRev, List.reverse_append, List.reverse_reverse,
    State.writeLog]

/-- Settles O54: an ignored command and one that faults issue nothing and leave the log, the others log what they issue. -/
theorem theWriteLogIsTheConcatenation : Obligations.TheWriteLogIsTheConcatenation := by
  intro i s t h
  rcases exec_cases h with ⟨hf, rfl⟩ | ⟨-, c, hc, rfl⟩ | ⟨hf, hc, hbody⟩
  · rw [issuedBy_of_fault hf, List.append_nil]
  · rw [issuedBy_of_cause hc, List.append_nil, State.setFault_writeLog]
  · exact commandBody_writeLog hf hc hbody

end Sys2Proof.Machine
end

section
/-! PROOFS of the family 30_encoding.md: the layouts of the words, the decoder and the encoder, illegal words, the opcode table,
the register bytes, and the words a step accepts. -/

namespace Sys2Proof

/-! ### The fields of a word, read and written (30_encoding.md R91, R93 to R97) -/

/-- A part of a word is two neighbouring fields when each of them is. -/
theorem append_eq_extractLsb'_iff {k m n s : Nat} {x : BitVec m} {y : BitVec n} {w : BitVec k} :
    x ++ y = w.extractLsb' s (m + n) ↔ x = w.extractLsb' (s + n) m ∧ y = w.extractLsb' s n := by
  rw [← BitVec.extractLsb'_append_extractLsb'_eq_extractLsb' (x := w) rfl]
  constructor
  · intro h
    have hx := congrArg (BitVec.extractLsb' n m) h
    have hy := congrArg (BitVec.extractLsb' 0 n) h
    simp only [BitVec.extractLsb'_append_eq_left, BitVec.extractLsb'_append_eq_right] at hx hy
    exact ⟨hx, hy⟩
  · rintro ⟨rfl, rfl⟩
    rfl

/-- A whole word is two neighbouring fields when each of them is. -/
theorem append_eq_iff {m n : Nat} {x : BitVec m} {y : BitVec n} {w : BitVec (m + n)} :
    x ++ y = w ↔ x = w.extractLsb' (0 + n) m ∧ y = w.extractLsb' 0 n := by
  rw [← append_eq_extractLsb'_iff, BitVec.extractLsb'_eq_self]

section
variable {w : CmdWord} {opc : BitVec 4}

theorem wordN_eq_iff : opc ++ 0#28 = w ↔ opc = opcodeField w ∧ 0#28 = w.extractLsb' 0 28 :=
  append_eq_iff

theorem wordW_eq_iff {addr : Addr} {data : Byte} :
    opc ++ 0#11 ++ addr ++ data = w ↔
      opc = opcodeField w ∧ 0#11 = w.extractLsb' 17 11 ∧ addr = w.extractLsb' 8 9 ∧ data = w.extractLsb' 0 8 := by
  refine append_eq_iff.trans ?_
  simp only [append_eq_extractLsb'_iff, and_assoc]
  rfl

theorem wordI_eq_iff {idx : BitVec 6} :
    opc ++ 0#22 ++ idx = w ↔ opc = opcodeField w ∧ 0#22 = w.extractLsb' 6 22 ∧ idx = w.extractLsb' 0 6 := by
  refine append_eq_iff.trans ?_
  simp only [append_eq_extractLsb'_iff, and_assoc]
  rfl

theorem wordF_eq_iff {idx : BitVec 6} {freq : BitVec 16} :
    opc ++ 0#6 ++ idx ++ freq = w ↔
      opc = opcodeField w ∧ 0#6 = w.extractLsb' 22 6 ∧ idx = w.extractLsb' 16 6 ∧ freq = w.extractLsb' 0 16 := by
  refine append_eq_iff.trans ?_
  simp only [append_eq_extractLsb'_iff, and_assoc]
  rfl

theorem wordS_eq_iff {idx : BitVec 6} {fsel : BitVec 4} {val : BitVec 10} :
    opc ++ 0#6 ++ idx ++ fsel ++ 0#2 ++ val = w ↔
      opc = opcodeField w ∧ 0#6 = w.extractLsb' 22 6 ∧ idx = w.extractLsb' 16 6 ∧ fsel = w.extractLsb' 12 4 ∧
      0#2 = w.extractLsb' 10 2 ∧ val = w.extractLsb' 0 10 := by
  refine append_eq_iff.trans ?_
  simp only [append_eq_extractLsb'_iff, and_assoc]
  rfl

/-! ### What each format's decoder answers -/

theorem decodeN_eq_ok_iff {i j : Instr} : decodeN w j = .ok i ↔ w.extractLsb' 0 28 = 0 ∧ j = i := by
  simp [decodeN, ite_eq_iff]

theorem decodeW_eq_ok_iff {mk : Addr → Byte → Instr} {i : Instr} :
    decodeW w mk = .ok i ↔ w.extractLsb' 17 11 = 0 ∧ mk (w.extractLsb' 8 9) (w.extractLsb' 0 8) = i := by
  simp [decodeW, ite_eq_iff]

theorem decodeI_eq_ok_iff {mk : BitVec 6 → Instr} {i : Instr} :
    decodeI w mk = .ok i ↔ w.extractLsb' 6 22 = 0 ∧ mk (w.extractLsb' 0 6) = i := by
  simp [decodeI, ite_eq_iff]

theorem decodeF_eq_ok_iff {mk : BitVec 6 → BitVec 16 → Instr} {i : Instr} :
    decodeF w mk = .ok i ↔ w.extractLsb' 22 6 = 0 ∧ mk (w.extractLsb' 16 6) (w.extractLsb' 0 16) = i := by
  simp [decodeF, ite_eq_iff]

theorem decodeS_eq_ok_iff {selectorOk : BitVec 4 → Bool} {mk : BitVec 6 → BitVec 4 → BitVec 10 → Instr} {i : Instr} :
    decodeS w selectorOk mk = .ok i ↔
      (w.extractLsb' 22 6 = 0 ∧ w.extractLsb' 10 2 = 0) ∧ selectorOk (w.extractLsb' 12 4) = true ∧
        mk (w.extractLsb' 16 6) (w.extractLsb' 12 4) (w.extractLsb' 0 10) = i := by
  simp [decodeS, ite_eq_iff]

end

/-! ### The round trip (30_encoding.md R91, R93 to R97) -/

theorem decode_encode {i : Instr} (h : i.wellFormed = true) : decode (encode i) = .ok i := by
  generalize hw : encode i = w
  cases i with
  | begin | reset =>
    subst hw
    rfl
  | write addr data =>
    obtain ⟨hopc, hres, haddr, hdata⟩ := wordW_eq_iff.mp hw
    simp [decode, ← hopc, decodeW_eq_ok_iff, ← hres, ← haddr, ← hdata]
  | opoff idx | choff idx | updop idx | keyon idx | keyoff idx =>
    obtain ⟨hopc, hres, hidx⟩ := wordI_eq_iff.mp hw
    simp [decode, ← hopc, decodeI_eq_ok_iff, ← hres, ← hidx]
  | setfreq idx freq =>
    obtain ⟨hopc, hres, hidx, hfreq⟩ := wordF_eq_iff.mp hw
    simp [decode, ← hopc, decodeF_eq_ok_iff, ← hres, ← hidx, ← hfreq]
  | opset idx fsel val | chset idx fsel val =>
    obtain ⟨hopc, hres, hidx, hfsel, hres', hval⟩ := wordS_eq_iff.mp hw
    simp only [Instr.wellFormed] at h
    simp [decode, ← hopc, decodeS_eq_ok_iff, ← hres, ← hidx, ← hfsel, ← hres', ← hval, h]

/-- Settles O1: `decode_encode`. -/
theorem decodeUndoesEncode : Obligations.DecodeUndoesEncode := fun _ => decode_encode

theorem encode_of_decode {w : CmdWord} {i : Instr} (h : decode w = .ok i) : i.wellFormed = true ∧ encode i = w := by
  unfold decode at h
  split at h
  case h_1 hopc =>
    obtain ⟨hres, rfl⟩ := decodeN_eq_ok_iff.mp h
    exact ⟨rfl, wordN_eq_iff (opc := 1) |>.mpr ⟨BitVec.eq_of_toNat_eq hopc.symm, hres.symm⟩⟩
  case h_2 hopc =>
    obtain ⟨hres, rfl⟩ := decodeN_eq_ok_iff.mp h
    exact ⟨rfl, wordN_eq_iff (opc := 2) |>.mpr ⟨BitVec.eq_of_toNat_eq hopc.symm, hres.symm⟩⟩
  case h_3 hopc =>
    obtain ⟨hres, rfl⟩ := decodeW_eq_ok_iff.mp h
    exact ⟨rfl, wordW_eq_iff.mpr ⟨BitVec.eq_of_toNat_eq hopc.symm, hres.symm, rfl, rfl⟩⟩
  case h_4 hopc | h_5 hopc | h_6 hopc | h_7 hopc | h_8 hopc =>
    obtain ⟨hres, rfl⟩ := decodeI_eq_ok_iff.mp h
    exact ⟨rfl, wordI_eq_iff.mpr ⟨BitVec.eq_of_toNat_eq hopc.symm, hres.symm, rfl⟩⟩
  case h_9 hopc =>
    obtain ⟨hres, rfl⟩ := decodeF_eq_ok_iff.mp h
    exact ⟨rfl, wordF_eq_iff.mpr ⟨BitVec.eq_of_toNat_eq hopc.symm, hres.symm, rfl, rfl⟩⟩
  case h_10 hopc | h_11 hopc =>
    obtain ⟨⟨hres, hres'⟩, hsel, rfl⟩ := decodeS_eq_ok_iff.mp h
    exact ⟨hsel, wordS_eq_iff.mpr ⟨BitVec.eq_of_toNat_eq hopc.symm, hres.symm, rfl, rfl, hres'.symm, rfl⟩⟩
  case h_12 => cases h

/-- Settles O2: `encode_of_decode`. -/
theorem everyCommandHasOneWord : Obligations.EveryCommandHasOneWord := fun _ _ => encode_of_decode

end Sys2Proof

namespace Sys2Proof.Machine

/-! ### Illegal words (30_encoding.md R107) -/

theorem toNat_opcodeField (w : CmdWord) : (opcodeField w).toNat = w.toNat / 2 ^ 28 := by
  rw [opcodeField, BitVec.extractLsb'_toNat, Nat.shiftRight_eq_div_pow]
  omega

theorem toNat_selectorField (w : CmdWord) : (w.extractLsb' 12 4).toNat = w.toNat / 2 ^ 12 % 16 := by
  rw [BitVec.extractLsb'_toNat, Nat.shiftRight_eq_div_pow]

/-- A mask that covers a field does not change it. -/
theorem extractLsb'_and_mask {k lo len : Nat} {m : BitVec k} (hm : m.extractLsb' lo len = BitVec.allOnes len)
    (w : BitVec k) : (w &&& m).extractLsb' lo len = w.extractLsb' lo len := by
  rw [BitVec.extractLsb'_and, hm, BitVec.and_allOnes]

/-- The three cases in terms of the word's fields. -/
theorem illegalWord_iff {w : CmdWord} :
    IllegalWord w ↔
      ((opcodeField w).toNat = 0 ∨ 0xC ≤ (opcodeField w).toNat) ∨ w &&& reservedBits (opcodeField w).toNat ≠ 0 ∨
        ((opcodeField w).toNat = 0xA ∧ 12 ≤ (w.extractLsb' 12 4).toNat) ∨
        ((opcodeField w).toNat = 0xB ∧ 9 ≤ (w.extractLsb' 12 4).toNat) := by
  simp only [toNat_opcodeField, toNat_selectorField]
  rfl

section
variable {w : CmdWord}

/-- Case (b): a field that the word's format reserves is not 0. -/
theorem illegalWord_of_reservedField {lo len opc : Nat} (hopc : (opcodeField w).toNat = opc)
    (hm : (reservedBits opc).extractLsb' lo len = BitVec.allOnes len) (h : w.extractLsb' lo len ≠ 0) : IllegalWord w := by
  refine illegalWord_iff.mpr (.inr (.inl fun h0 => h ?_))
  rw [hopc] at h0
  rw [← extractLsb'_and_mask hm, h0]
  exact BitVec.extractLsb'_zero

theorem decodeS_error_cases {selectorOk : BitVec 4 → Bool} {mk : BitVec 6 → BitVec 4 → BitVec 10 → Instr} {e : Illegal}
    (h : decodeS w selectorOk mk = .error e) :
    w.extractLsb' 22 6 ≠ 0 ∨ w.extractLsb' 10 2 ≠ 0 ∨ selectorOk (w.extractLsb' 12 4) = false := by
  by_contra hcon
  simp only [not_or, ne_eq, not_not, Bool.not_eq_false] at hcon
  obtain ⟨hres, hres', hsel⟩ := hcon
  exact nomatch h.symm.trans (decodeS_eq_ok_iff.mpr ⟨⟨hres, hres'⟩, hsel, rfl⟩)

/-- A word the decoder rejects is illegal: it has a reserved field or selector that is set, or no format at all. -/
theorem illegalWord_of_decode_error {e : Illegal} (h : decode w = .error e) : IllegalWord w := by
  unfold decode at h
  split at h
  case h_1 hopc | h_2 hopc =>
    exact illegalWord_of_reservedField (lo := 0) (len := 28) hopc rfl fun h0 =>
      nomatch h.symm.trans (decodeN_eq_ok_iff.mpr ⟨h0, rfl⟩)
  case h_3 hopc =>
    exact illegalWord_of_reservedField (lo := 17) (len := 11) hopc rfl fun h0 =>
      nomatch h.symm.trans (decodeW_eq_ok_iff.mpr ⟨h0, rfl⟩)
  case h_4 hopc | h_5 hopc | h_6 hopc | h_7 hopc | h_8 hopc =>
    exact illegalWord_of_reservedField (lo := 6) (len := 22) hopc rfl fun h0 =>
      nomatch h.symm.trans (decodeI_eq_ok_iff.mpr ⟨h0, rfl⟩)
  case h_9 hopc =>
    exact illegalWord_of_reservedField (lo := 22) (len := 6) hopc rfl fun h0 =>
      nomatch h.symm.trans (decodeF_eq_ok_iff.mpr ⟨h0, rfl⟩)
  case h_10 hopc =>
    obtain hres | hres | hsel := decodeS_error_cases h
    · exact illegalWord_of_reservedField hopc rfl hres
    · exact illegalWord_of_reservedField hopc rfl hres
    · exact illegalWord_iff.mpr (.inr (.inr (.inl ⟨hopc, by simpa [opSelectorOk] using hsel⟩)))
  case h_11 hopc =>
    obtain hres | hres | hsel := decodeS_error_cases h
    · exact illegalWord_of_reservedField hopc rfl hres
    · exact illegalWord_of_reservedField hopc rfl hres
    · exact illegalWord_iff.mpr (.inr (.inr (.inr ⟨hopc, by simpa [chSelectorOk] using hsel⟩)))
  case h_12 =>
    refine illegalWord_iff.mpr (.inl ?_)
    simp only [imp_false] at *
    omega

end

/-! ### The rows of the opcode table (30_encoding.md R109) -/

/-- The selector check that rows of format S add to their mask and match (30_encoding.md R107 case c). -/
def selectorFits (r : TableRow) (w : CmdWord) : Prop :=
  (r.mnemonic = "OPSET" → w.toNat / 2 ^ 12 % 16 ≤ 11) ∧ (r.mnemonic = "CHSET" → w.toNat / 2 ^ 12 % 16 ≤ 8)

/-- Every mask covers the opcode and the reserved bits of its row's format, and the match has no reserved bit. -/
theorem opcodeTable_masks : ∀ r ∈ opcodeTable,
    r.mask.extractLsb' 28 4 = BitVec.allOnes 4 ∧
    r.mask &&& reservedBits (opcodeField r.bits).toNat = reservedBits (opcodeField r.bits).toNat ∧
    r.bits &&& reservedBits (opcodeField r.bits).toNat = 0 := by decide

/-- Every row's opcode is assigned, 0xA to `OPSET` and 0xB to `CHSET`. -/
theorem opcodeTable_opcodes : ∀ r ∈ opcodeTable,
    ¬ ((opcodeField r.bits).toNat = 0 ∨ 0xC ≤ (opcodeField r.bits).toNat) ∧
    ((opcodeField r.bits).toNat = 0xA → r.mnemonic = "OPSET") ∧
    ((opcodeField r.bits).toNat = 0xB → r.mnemonic = "CHSET") := by decide

theorem row_eq_of_opcodeField_eq : ∀ r ∈ opcodeTable, ∀ r' ∈ opcodeTable,
    opcodeField r.bits = opcodeField r'.bits → r = r' := by decide

section
variable {w : CmdWord} {r r' : TableRow}

theorem opcodeField_of_match (hr : r ∈ opcodeTable) (h : w &&& r.mask = r.bits) : opcodeField w = opcodeField r.bits := by
  rw [← h]
  exact (extractLsb'_and_mask (opcodeTable_masks r hr).1 w).symm

theorem row_unique (hr : r ∈ opcodeTable) (hr' : r' ∈ opcodeTable) (h : w &&& r.mask = r.bits)
    (h' : w &&& r'.mask = r'.bits) : r = r' :=
  row_eq_of_opcodeField_eq r hr r' hr' ((opcodeField_of_match hr h).symm.trans (opcodeField_of_match hr' h'))

/-- A word that fits a row is legal. -/
theorem not_illegalWord_of_match (hr : r ∈ opcodeTable) (h : w &&& r.mask = r.bits) (hsel : selectorFits r w) :
    ¬ IllegalWord w := by
  obtain ⟨-, hmask, hbits⟩ := opcodeTable_masks r hr
  obtain ⟨hopc, hop, hch⟩ := opcodeTable_opcodes r hr
  obtain ⟨hop', hch'⟩ := hsel
  rw [illegalWord_iff, opcodeField_of_match hr h, toNat_selectorField]
  rintro (ha | hb | ⟨hc, hc'⟩ | ⟨hc, hc'⟩)
  · exact hopc ha
  · rw [← hmask, ← BitVec.and_assoc, h] at hb
    exact hb hbits
  · have := hop' (hop hc)
    omega
  · have := hch' (hch hc)
    omega

end

theorem encode_matches_row (i : Instr) : Laws.TableRow.Statement i := by
  cases i with
  | begin => exact Laws.TableRow.begin
  | reset => exact Laws.TableRow.reset
  | write addr data => exact Laws.TableRow.write addr data
  | opoff idx => exact Laws.TableRow.opoff idx
  | choff idx => exact Laws.TableRow.choff idx
  | updop idx => exact Laws.TableRow.updop idx
  | keyon idx => exact Laws.TableRow.keyon idx
  | keyoff idx => exact Laws.TableRow.keyoff idx
  | setfreq idx freq => exact Laws.TableRow.setfreq idx freq
  | opset idx fsel val => exact Laws.TableRow.opset idx fsel val
  | chset idx fsel val => exact Laws.TableRow.chset idx fsel val

theorem encode_selectorFits {i : Instr} (h : i.wellFormed = true) : selectorFits i.row (encode i) := by
  unfold selectorFits
  rw [← toNat_selectorField]
  cases i with
  | opset idx fsel val =>
    obtain ⟨-, -, -, hfsel, -⟩ := wordS_eq_iff.mp (rfl : _ = encode (.opset idx fsel val))
    rw [← hfsel]
    simp only [Instr.wellFormed, opSelectorOk, decide_eq_true_eq] at h
    exact ⟨fun _ => by omega, by simp [Instr.row]⟩
  | chset idx fsel val =>
    obtain ⟨-, -, -, hfsel, -⟩ := wordS_eq_iff.mp (rfl : _ = encode (.chset idx fsel val))
    rw [← hfsel]
    simp only [Instr.wellFormed, chSelectorOk, decide_eq_true_eq] at h
    exact ⟨by simp [Instr.row], fun _ => by omega⟩
  | begin | reset | write | opoff | choff | updop | keyon | keyoff | setfreq =>
    exact ⟨by simp [Instr.row], by simp [Instr.row]⟩

/-- The word of a command fits the command's row. -/
theorem match_of_decode {w : CmdWord} {i : Instr} (h : decode w = .ok i) :
    i.row ∈ opcodeTable ∧ w &&& i.row.mask = i.row.bits ∧ selectorFits i.row w := by
  obtain ⟨hwf, rfl⟩ := encode_of_decode h
  obtain ⟨hr, hm⟩ := encode_matches_row i
  exact ⟨hr, beq_iff_eq.mp hm, encode_selectorFits hwf⟩

/-- A word decodes unless it is illegal. -/
theorem illegalWord_iff_not_decodes (w : CmdWord) : IllegalWord w ↔ ¬ ∃ i, decode w = .ok i := by
  constructor
  · rintro hw ⟨i, hi⟩
    obtain ⟨hr, hm, hsel⟩ := match_of_decode hi
    exact not_illegalWord_of_match hr hm hsel hw
  · intro hno
    cases h : decode w with
    | ok i => exact absurd ⟨i, h⟩ hno
    | error e => exact illegalWord_of_decode_error h

/-- Settles O3: a word that fits a row is legal, so it decodes, and the row of the command it decodes to fits it too. -/
theorem decodeFollowsTheTable : Obligations.DecodeFollowsTheTable := by
  refine ⟨fun w r hr => ⟨?_, ?_⟩, fun w r hr r' hr' => row_unique hr hr'⟩
  · rintro ⟨i, hi, rfl⟩
    exact (match_of_decode hi).2
  · rintro ⟨hm, hsel⟩
    have hlegal := not_illegalWord_of_match hr hm hsel
    rw [illegalWord_iff_not_decodes, not_not] at hlegal
    obtain ⟨i, hi⟩ := hlegal
    obtain ⟨hri, hmi, -⟩ := match_of_decode hi
    exact ⟨i, hi, row_unique hri hr hmi hm⟩

/-! ### The words a step takes (30_encoding.md R90) -/

section
variable {s : State} {cw : CmdWord} {rest : List HostInput}

theorem step_of_no_input (h : s.host = []) : step s = .next s := by
  simp only [step, h]

theorem step_of_busy (h : s.host = .command cw :: rest) (hb : s.busy = true) : step s = .next s := by
  simp only [step, h, hb, if_true]

theorem step_of_command (h : s.host = .command cw :: rest) (hb : s.busy = false) :
    step s = runWord cw (acceptWord rest s) := by
  simp only [step, h, hb, Bool.false_eq_true, if_false]

end

theorem runWord_of_decode {cw : CmdWord} {i : Instr} (h : decode cw = .ok i) (s : State) :
    runWord cw s = complete (exec i s) := by
  simp only [runWord, h]

theorem runWord_of_illegalWord {cw : CmdWord} (h : IllegalWord cw) {s : State} (hf : s.fault = false) :
    runWord cw s = .next (completeCommand (s.setFault .illegalCommand cw)) := by
  cases hd : decode cw with
  | ok i => exact absurd ⟨i, hd⟩ ((illegalWord_iff_not_decodes cw).mp h)
  | error e => simp only [runWord, hd, illegalWord, complete, raise_eq_of_clear hf]

/-- No command stops the machine. -/
theorem exec_answers (i : Instr) (s : State) : ∃ t, exec i s = .next t := by
  rcases exec_spec i s with ⟨-, e⟩ | ⟨-, c, -, e⟩ | ⟨-, -, t, -, e⟩
  · exact ⟨_, e⟩
  · exact ⟨_, e⟩
  · exact ⟨_, e⟩

/-- Settles O6: the three cases are `illegalWord_iff_not_decodes`, and the fault is all that is left of an illegal word. -/
theorem illegalWordsRaiseIllegalCommand : Obligations.IllegalWordsRaiseIllegalCommand := by
  refine ⟨illegalWord_iff_not_decodes, .inl (by decide), .inl (by decide), ?_⟩
  intro s cw rest hh hb hseq hf hill
  rw [step_of_command hh hb, runWord_of_illegalWord hill (s := acceptWord rest s) hf]
  simp only [completeCommand, State.setFault, acceptWord, Cause.code, ← hb, ← hseq]

/-- Settles O5: a step on an accepted word that decodes completes what the command answers. -/
theorem stepRunsTheDecodedCommand : Obligations.StepRunsTheDecodedCommand := by
  intro s cw rest i hh hb hd
  obtain ⟨t, ht⟩ := exec_answers i (acceptWord rest s)
  refine ⟨t, ht, ?_⟩
  rw [step_of_command hh hb, runWord_of_decode hd, ht]
  rfl

/-- Settles O7: `step_of_no_input` and `step_of_busy`. -/
theorem idleAndBusyStepsChangeNothing : Obligations.IdleAndBusyStepsChangeNothing :=
  ⟨fun _ => step_of_no_input, fun _ _ _ => step_of_busy⟩

/-! ### The register bytes (30_encoding.md R102 to R105) -/

/-- Two neighbouring fields as a number: the upper one weighs a power of 2. -/
theorem toNat_append_eq_add {m n : Nat} (x : BitVec m) (y : BitVec n) : (x ++ y).toNat = x.toNat * 2 ^ n + y.toNat := by
  rw [BitVec.toNat_append, ← Nat.shiftLeft_add_eq_or_of_lt y.isLt, Nat.shiftLeft_eq]

/-- Settles O35: each byte is its fields side by side, and a waveform's code is its place in the listing. -/
theorem operatorBytesHoldTheFields : Obligations.OperatorBytesHoldTheFields := by
  intro o
  refine ⟨?_, toNat_append_eq_add _ _, toNat_append_eq_add _ _, toNat_append_eq_add _ _, ?_⟩
  · simp only [packMult, toNat_append_eq_add, BitVec.toNat_ofBool]
    omega
  · rw [packWave]
    cases o.waveform <;> rfl

/-- Settles O36: each byte is its fields side by side, the f-number cut at its bit 8. -/
theorem channelBytesHoldTheFields : Obligations.ChannelBytesHoldTheFields := by
  intro c k
  have hf := c.fNumber.isLt
  refine ⟨BitVec.extractLsb'_toNat 0 8 c.fNumber, ?_, ?_⟩
  · simp only [packFhi, toNat_append_eq_add, BitVec.toNat_ofBool, BitVec.toNat_ofNat, BitVec.extractLsb'_toNat,
      Nat.shiftRight_eq_div_pow]
    omega
  · simp only [packFbc, toNat_append_eq_add, BitVec.toNat_ofBool]
    omega

end Sys2Proof.Machine
end

section
/-! PROOFS of the family 40_bus_write.md: the timing contract of the bus, one transaction, and `WRITE`. -/

namespace Sys2Proof.Machine

/-! ### The timing contract (40_bus_write.md R134) -/

/-- The contract is met so far, the strobe is high and its hold time over: what every transaction starts from and leaves. -/
def TimingMonitor.Rested (p : Params) (m : TimingMonitor) : Prop :=
  m.met = true ∧ m.lowFor = none ∧ p.kSafe * p.tDH ≤ m.sinceRise

theorem monitor_append (p : Params) (l l' : List PinEvent) (m : TimingMonitor) :
    monitor p (l ++ l') m = monitor p l' (monitor p l m) := List.foldl_append

section
variable {p : Params} {m : TimingMonitor}

/-- With the strobe high and the hold time over every line may change. -/
theorem TimingMonitor.Rested.mayChange (h : m.Rested p) : m.mayChange p = true := by
  obtain ⟨-, hlow, hhold⟩ := h
  simp only [TimingMonitor.mayChange, hlow, Option.isNone_none, hhold, decide_true, Bool.and_self]

/-- Only the fall of `WR` makes a demand that rest alone does not meet. -/
theorem TimingMonitor.Rested.event {e : PinEvent} (h : m.Rested p) (he : e ≠ .set (.wr .low)) :
    (m.event p e).Rested p := by
  have hmay := h.mayChange
  obtain ⟨hmet, hlow, hhold⟩ := h
  have hmet' : (m.met && m.mayChange p) = true := by rw [hmet, hmay, Bool.and_self]
  cases e with
  | delay n => exact ⟨hmet, congrArg (Option.map (· + n)) hlow, Nat.le_add_right_of_le hhold⟩
  | set v =>
    cases v with
    | mode | bank | cs | d => exact ⟨hmet', hlow, hhold⟩
    | rst => exact ⟨hmet, hlow, hhold⟩
    | wr level =>
      cases level with
      | low => exact absurd rfl he
      | high =>
        have hrise : m.event p (.set (.wr .high)) = m := by simp only [TimingMonitor.event, hlow]
        rw [hrise]
        exact ⟨hmet, hlow, hhold⟩

/-- A stretch of trace without a strobe keeps rest. -/
theorem TimingMonitor.Rested.noPulse {l : List PinEvent} (h : m.Rested p) (hl : PinEvent.set (.wr .low) ∉ l) :
    (monitor p l m).Rested p := by
  induction l generalizing m with
  | nil => exact h
  | cons e l ih =>
    obtain ⟨he, hl⟩ := List.ne_and_not_mem_of_not_mem_cons hl
    exact ih (h.event he.symm) hl

/-- A strobe asks for the setup of `MODE` and `BANK` before it; the setup of `D`, the pulse width and the hold are its own
delays (40_bus_write.md R133). -/
theorem TimingMonitor.Rested.strobe (h : m.Rested p) (hsetup : p.kSafe * p.tAS ≤ m.sinceSelect) :
    (monitor p (strobeEvents p) m).Rested p := by
  obtain ⟨hmet, hlow, hhold⟩ := h
  have hselect : p.kSafe * (p.tAS + p.tDS) ≤ m.sinceSelect + p.kSafe * p.tDS := by
    rw [Nat.mul_add]
    exact Nat.add_le_add_right hsetup _
  simp [TimingMonitor.Rested, monitor, strobeEvents, TimingMonitor.event, hmet, hselect]

/-- Each of a transaction's two strobes comes after the delay `T_AS` that follows the last change of `MODE` and `BANK`
(40_bus_write.md R132). -/
theorem TimingMonitor.Rested.transaction (h : m.Rested p) (a : Addr) (d : Byte) :
    (monitor p (transactionEvents p a d) m).Rested p := by
  simp only [transactionEvents, monitor_append]
  refine ((((h.noPulse ?_).strobe ?_).noPulse ?_).strobe ?_).noPulse ?_
  case refine_2 | refine_4 => exact Nat.le_add_left _ _
  case refine_1 | refine_3 | refine_5 => simp

theorem TimingMonitor.Rested.transactions (h : m.Rested p) (l : List (Addr × Byte)) :
    (monitor p (eventsOf p l) m).Rested p := by
  induction l generalizing m with
  | nil => exact h
  | cons x l ih =>
    rw [eventsOf, List.flatMap_cons, monitor_append]
    exact ih (h.transaction x.1 x.2)

end

/-- Pin initialisation and the reset pulse start no strobe (41_reset_init.md R153, R155). -/
theorem noPulse_leadEvents (p : Params) (i : Instr) : PinEvent.set (.wr .low) ∉ leadEvents p i := by
  cases i with
  | begin | reset => cases h : p.hasResetLine <;> simp [leadEvents, pinInitEvents, resetPulseEvents, h]
  | write | opoff | choff | updop | keyon | keyoff | setfreq | opset | chset => exact List.not_mem_nil

/-- The effects of an admitted command keep the contract: its lead has no strobe, and its transactions meet it. -/
theorem commandBody_timingMet {i : Instr} {s t : State} (hf : s.fault = false) (hc : faultCause i s = none)
    (h : commandBody i s = .ok t) (hs : s.timingMet) : t.timingMet := by
  obtain ⟨hcfg, -, -, -, -, -, -, htrace, -⟩ := commandBody_bus hf hc h
  have hrest : (monitor s.cfg.toParams s.pinTrace (TimingMonitor.start s.cfg.toParams)).Rested s.cfg.toParams := hs
  have hpins : t.pinTrace =
      s.pinTrace ++ (leadEvents s.cfg.toParams i ++ eventsOf s.cfg.toParams (issuedBy i s)) := by
    rw [State.pinTrace, htrace, List.reverse_append, List.reverse_reverse, State.pinTrace]
  rw [State.timingMet, hcfg, hpins, monitor_append, monitor_append]
  exact (hrest.noPulse (noPulse_leadEvents _ i)).transactions _

/-- Settles O20: power-on starts the trace again, and a command's events keep the monitor at rest. -/
theorem stepsMeetTheTimingContract : Obligations.StepsMeetTheTimingContract := by
  intro s t hs h
  rcases step_cases h with rfl | ⟨rest, -, rfl⟩ |
    ⟨cw, rest, -, -, ⟨-, rfl⟩ | ⟨-, c, w, rfl⟩ | ⟨hf, i, u, -, hc, hu, rfl⟩⟩
  · exact hs
  · exact State.powerOn_timingMet s.cfg rest
  · exact hs
  · exact hs
  · exact commandBody_timingMet (s := acceptWord rest s) (t := u) hf hc hu hs

/-! ### One transaction (40_bus_write.md R132, R136, R138, R140) -/

theorem busWrite_pinTrace (w : Nat) (a : Addr) (d : Byte) (s : State) :
    (busWrite w a d s).pinTrace = s.pinTrace ++ transactionEvents s.cfg.toParams a d := by
  rw [busWrite_eq, State.pinTrace, List.reverse_append, List.reverse_reverse, State.pinTrace]

theorem busWrite_pins (w : Nat) (a : Addr) (d : Byte) (s : State) :
    (busWrite w a d s).pins = pinsAfter a d s.pins := by rw [busWrite_eq]

theorem busWrite_tgt (w : Nat) (a : Addr) (d : Byte) (s : State) :
    (busWrite w a d s).tgt = targetAfter s.cfg.aExt a d s.tgt := by rw [busWrite_eq]

theorem busWrite_writeLog (w : Nat) (a : Addr) (d : Byte) (s : State) :
    (busWrite w a d s).writeLog = s.writeLog ++ [(a, d)] := by
  rw [State.writeLog, busWrite_tgt]
  exact List.reverse_cons

/-- What the target holds after a transaction: the written location follows 20_memory.md R66, every other stays. -/
theorem read_targetAfter (aExt a b : Addr) (d : Byte) (t : Target) :
    (targetAfter aExt a d t).shadow.read b =
      if b = a then (if a.getLsbD 8 = false ∨ a = aExt ∨ t.ext = some true then some d else none)
      else t.shadow.read b := by
  refine (Target.read_write aExt a b d t).trans ?_
  by_cases hab : b = a
  · subst hab
    rw [if_pos rfl]
  · rw [if_neg (Ne.symm hab), if_neg hab]

/-- Settles O15: everything in the target is `targetAfter`, from any pins. -/
theorem busWriteIsOneRegisterWrite : Obligations.BusWriteIsOneRegisterWrite := by
  intro w a d s
  refine ⟨busWrite_writeLog w a d s, ?_⟩
  rw [busWrite_tgt]
  exact ⟨rfl, fun b => read_targetAfter s.cfg.aExt a b d s.tgt, Target.ext_write s.cfg.aExt a d s.tgt⟩

/-- The delays of a transaction: `T_AS` twice, and the three of each strobe. -/
theorem requestedNs_transactionEvents (p : Params) (a : Addr) (d : Byte) :
    requestedNs (transactionEvents p a d) = p.kSafe * (2 * p.tAS + 2 * (p.tDS + p.tWW + p.tDH)) := by
  simp only [transactionEvents, strobeEvents, List.cons_append, List.nil_append, requestedNs]
  ring

/-- Settles O16: the events and the pins are those of `busWrite_eq`. -/
theorem busWriteEmitsNineteenEvents : Obligations.BusWriteEmitsNineteenEvents := by
  intro w a d s
  refine ⟨busWrite_pinTrace w a d s, rfl, requestedNs_transactionEvents s.cfg.toParams a d, rfl, ?_⟩
  rw [busWrite_pins]
  exact ⟨rfl, rfl, rfl, rfl, rfl, rfl⟩

/-! ### `WRITE` (40_bus_write.md R131) -/

theorem busWrites_sameFiles (l : List (Addr × Byte)) (s : State) : SameFiles s (busWrites l s) :=
  ⟨busWrites_ops l s, busWrites_chs l s⟩

theorem busWrites_sameFlags (l : List (Addr × Byte)) (s : State) : SameFlags s (busWrites l s) := by
  rw [busWrites_eq]
  exact ⟨rfl, rfl, rfl, rfl, rfl⟩

theorem busWrites_sameInputs (l : List (Addr × Byte)) (s : State) : SameInputs s (busWrites l s) := by
  rw [busWrites_eq]
  exact ⟨rfl, rfl⟩

/-- After `BEGIN` nothing is wrong with a `WRITE` (60_exceptions.md R232). -/
theorem faultCause_write {s : State} (hb : s.begun = true) (addr : Addr) (data : Byte) :
    faultCause (.write addr data) s = none := by simp [faultCause, Instr.wellFormed, hb, ownCause]

theorem exec_write_of_ready {s : State} (h : s.ready) (addr : Addr) (data : Byte) :
    exec (.write addr data) s = .next (busWrites [(addr, data)] s) := by
  obtain ⟨hf, hb⟩ := h
  exact exec_of_effect hf (faultCause_write hb addr data) (.write addr data s)

/-- Settles O18: `WRITE` is its one transaction, and transactions leave the core's registers. -/
theorem writeIssuesOneTransaction : Obligations.WriteIssuesOneTransaction := fun s addr data h =>
  ⟨busWrites [(addr, data)] s, exec_write_of_ready h addr data, busWrites_issued (List.cons_ne_nil _ _) s,
    busWrites_sameFiles _ s, busWrites_sameFlags _ s, busWrites_sameInputs _ s, busWrites_res _ s⟩

end Sys2Proof.Machine
end

section
/-! PROOFS of the family 41_reset_init.md: the reset pulse, the software wipe, and the completion of `BEGIN` and `RESET`. -/

namespace Sys2Proof.Machine

/-! ### The reset pulse (41_reset_init.md R155) -/

/-- Settles O26: the quotient that rounds up is the ceiling, for the remainder of its division is below the clock. -/
theorem resetPulseIsLongEnough : Obligations.ResetPulseIsLongEnough := by
  intro c
  have hclock := c.clock_ge
  refine ⟨(400 * 10 ^ 9 + (c.clockHz - 1)) / c.clockHz, rfl, ?_⟩
  have hle := Nat.div_mul_le_self (400 * 10 ^ 9 + (c.clockHz - 1)) c.clockHz
  have hlt := Nat.lt_div_mul_add (a := 400 * 10 ^ 9 + (c.clockHz - 1)) (b := c.clockHz) (by omega)
  rw [Nat.sub_one_mul]
  omega

/-! ### The software wipe (41_reset_init.md R157, R158) -/

/-- The zero writes to the addresses `lo` to `hi`, ascending. -/
def zeroWrites (lo hi : Nat) : List (Addr × Byte) := (addressesUp lo hi).map (·, 0)

theorem softwareWipe_eq (p : Params) :
    softwareWipe p = zeroWrites p.wipe0Lo.toNat p.wipe0Hi.toNat
      ++ [(p.aExt, p.vExt), (p.aExtMode, 0), (p.aTest1, 0)] ++ zeroWrites p.wipe1Lo.toNat p.wipe1Hi.toNat := rfl

theorem length_zeroWrites (lo hi : Nat) : (zeroWrites lo hi).length = hi + 1 - lo := by
  rw [zeroWrites, List.length_map, length_addressesUp]

theorem getElem?_zeroWrites {lo hi k : Nat} (h : hi < 512) (hk : lo + k ≤ hi) :
    ∃ a : Addr, a.toNat = lo + k ∧ (zeroWrites lo hi)[k]? = some (a, 0) := by
  refine ⟨BitVec.ofNat 9 (lo + k), (BitVec.toNat_ofNat _ _).trans (Nat.mod_eq_of_lt (by omega)), ?_⟩
  have hlen : k < hi + 1 - lo := by omega
  simp [zeroWrites, addressesUp, hlen]

/-- An address of the range is written once, any other never. -/
theorem filter_zeroWrites {lo hi : Nat} (h : hi < 512) (a : Addr) :
    (zeroWrites lo hi).filter (fun x => x.1 == a) = if lo ≤ a.toNat ∧ a.toNat ≤ hi then [(a, 0)] else [] := by
  have hcount : (addressesUp lo hi).filter (· == a) = List.replicate ((addressesUp lo hi).count a) a := List.filter_beq a
  have hmap : (zeroWrites lo hi).filter (fun x => x.1 == a) = ((addressesUp lo hi).filter (· == a)).map (·, 0) :=
    List.filter_map
  rw [hmap, hcount, (nodup_addressesUp h).count]
  simp only [mem_addressesUp h]
  split <;> rfl

section
variable (c : Config)

theorem length_zeroWrites_wipe0 : (zeroWrites c.wipe0Lo.toNat c.wipe0Hi.toNat).length = wipe0Count c.toParams := by
  have hle := BitVec.le_def.mp c.wipe0_le
  rw [length_zeroWrites, wipe0Count]
  omega

theorem length_zeroWrites_wipe1 : (zeroWrites c.wipe1Lo.toNat c.wipe1Hi.toNat).length = wipe1Count c.toParams := by
  have hle := BitVec.le_def.mp c.wipe1_le
  rw [length_zeroWrites, wipe1Count]
  omega

theorem getElem?_softwareWipe_wipe0 {k : Nat} (hk : k < wipe0Count c.toParams) :
    (softwareWipe c.toParams)[k]? = (zeroWrites c.wipe0Lo.toNat c.wipe0Hi.toNat)[k]? := by
  rw [← length_zeroWrites_wipe0] at hk
  rw [softwareWipe_eq, List.append_assoc, List.getElem?_append_left hk]

theorem getElem?_softwareWipe_after_wipe0 (k : Nat) :
    (softwareWipe c.toParams)[wipe0Count c.toParams + k]? =
      ((c.aExt, c.vExt) :: (c.aExtMode, 0) :: (c.aTest1, 0) :: zeroWrites c.wipe1Lo.toNat c.wipe1Hi.toNat)[k]? := by
  rw [softwareWipe_eq, List.append_assoc, ← length_zeroWrites_wipe0, List.getElem?_append_right (Nat.le_add_right _ _),
    Nat.add_sub_cancel_left]
  rfl

end

/-- Settles O23: the primary range fills the first `wipe0Count` places, the three explicit writes and the extended range
those after them. -/
theorem softwareWipeInOrder : Obligations.SoftwareWipeInOrder := by
  intro c
  refine ⟨?_, fun k hk => ?_, getElem?_softwareWipe_after_wipe0 c 0, getElem?_softwareWipe_after_wipe0 c 1,
    getElem?_softwareWipe_after_wipe0 c 2, fun k hk => ?_⟩
  · rw [softwareWipe_eq, List.length_append, List.length_append, length_zeroWrites_wipe0, length_zeroWrites_wipe1]
    rfl
  · rw [getElem?_softwareWipe_wipe0 c hk]
    rw [wipe0Count] at hk
    have hle := BitVec.le_def.mp c.wipe0_le
    exact getElem?_zeroWrites (by omega) (by omega)
  · rw [Nat.add_assoc, getElem?_softwareWipe_after_wipe0, Nat.add_comm 3 k]
    rw [wipe1Count] at hk
    have hle := BitVec.le_def.mp c.wipe1_le
    exact getElem?_zeroWrites (by omega) (by omega)

/-- The addresses of bank 1 are the upper half of the register space (20_memory.md R60). -/
theorem toNat_ge_of_bank {a : Addr} (h : a.getLsbD 8 = true) : 0x100 ≤ a.toNat := Nat.ge_two_pow_of_testBit h

/-- Settles O24: the ranges lie in different banks, and the mode registers in bank 1 outside its range. -/
theorem wipeWritesEachAddressOnce : Obligations.WipeWritesEachAddressOnce := by
  intro c a ha
  have hbank := toNat_ge_of_bank c.wipe1Lo_bank
  have hmodes : [(c.aExt, c.vExt), (c.aExtMode, 0), (c.aTest1, 0)].filter (fun x => x.1 == a) = [] := by
    have hne {m : Addr} (hm : m.getLsbD 8 = true) (hout : ¬ (c.wipe1Lo ≤ m ∧ m ≤ c.wipe1Hi)) : m ≠ a := by
      rintro rfl
      have := toNat_ge_of_bank hm
      exact ha.elim (by omega) hout
    simp [hne c.aExt_bank c.aExt_outside, hne c.aExtMode_bank c.aExtMode_outside, hne c.aTest1_bank c.aTest1_outside]
  rw [BitVec.le_def, BitVec.le_def] at ha
  rw [softwareWipe_eq, List.filter_append, List.filter_append, hmodes, List.append_nil, filter_zeroWrites (by omega),
    filter_zeroWrites (by omega)]
  rcases ha with h0 | h1
  · rw [if_pos h0, if_neg (by omega), List.append_nil]
  · rw [if_neg (by omega), if_pos h1, List.nil_append]

/-! ### The reset sequence (41_reset_init.md R154 to R156, R159) -/

/-- The sequence ends on the baseline write to `A_EXT`. -/
theorem resetWrites_eq_append (p : Params) :
    resetWrites p =
      ((if p.hasResetLine then [] else softwareWipe p) ++ [(p.aWse, p.vWse), (p.aNts, p.vNts)]) ++ [(p.aExt, p.vExt)] := by
  simp only [resetWrites, List.append_assoc, List.cons_append, List.nil_append]

/-- Every transaction drives every line but `RST`, so the latches show the last one. -/
theorem pinsAfterAll_resetWrites (p : Params) (q : Pins) :
    pinsAfterAll (resetWrites p) q = pinsAfter p.aExt p.vExt q := by
  rw [resetWrites_eq_append, pinsAfterAll_append, pinsAfter, rst_pinsAfterAll, pinsAfter]

theorem addr_targetAfterAll_resetWrites (p : Params) (aExt : Addr) (t : Target) :
    (targetAfterAll aExt (resetWrites p) t).addr = some p.aExt := by
  rw [resetWrites_eq_append, addr_targetAfterAll_append]

/-- The last write sets the enable bit of extended mode. -/
theorem ext_targetAfterAll_resetWrites_true (c : Config) (t : Target) :
    (targetAfterAll c.aExt (resetWrites c.toParams) t).ext = some true := by
  rw [ext_targetAfterAll, resetWrites_eq_append, List.foldl_append, List.foldl_cons, List.foldl_nil, if_pos rfl]
  have hbit : c.vExt.getLsbD 0 = true := by
    rw [c.vExt_eq]
    rfl
  exact congrArg some hbit

theorem aExt_extractLsb'_bank (c : Config) : c.aExt.extractLsb' 8 1 = 1 := by
  have hval := toNat_eq_bank_low c.aExt
  have hge := toNat_ge_of_bank c.aExt_bank
  have hone : (1 : BitVec 1).toNat = 1 := rfl
  apply BitVec.eq_of_toNat_eq
  omega

/-- Everything `ResetSequence()` does, with a reset line and without. -/
theorem resetSequence_eq (s : State) :
    resetSequence s =
      { loadDefaults s with
        seq := Seq.idle
        pins := pinsAfterAll (resetWrites s.cfg.toParams) (leadPins s.cfg.toParams s.pins .reset)
        traceRev := (leadEvents s.cfg.toParams .reset ++ eventsOf s.cfg.toParams (resetWrites s.cfg.toParams)).reverse ++
          s.traceRev
        tgt := targetAfterAll s.cfg.aExt (resetWrites s.cfg.toParams) (leadTarget s.cfg.toParams s.tgt .reset) } := by
  cases h : s.cfg.hasResetLine
  · rw [resetSequence_software h]
    simp [resetWrites, baselineWrites, leadPins, leadEvents, leadTarget, h]
  · rw [resetSequence_hardware h]
    simp [resetWrites, baselineWrites, leadPins, leadEvents, leadTarget, h]

theorem resetSequence_sameFlags (s : State) : SameFlags s (resetSequence s) := by
  rw [resetSequence_eq]
  exact ⟨rfl, rfl, rfl, rfl, rfl⟩

theorem resetSequence_sameInputs (s : State) : SameInputs s (resetSequence s) := by
  rw [resetSequence_eq]
  exact ⟨rfl, rfl⟩

theorem resetSequence_pinTrace (s : State) :
    (resetSequence s).pinTrace =
      s.pinTrace ++ (leadEvents s.cfg.toParams .reset ++ eventsOf s.cfg.toParams (resetWrites s.cfg.toParams)) := by
  rw [resetSequence_eq, State.pinTrace, List.reverse_append, List.reverse_reverse, State.pinTrace]

theorem resetSequence_pins (s : State) :
    (resetSequence s).pins = pinsAfter s.cfg.aExt s.cfg.vExt (leadPins s.cfg.toParams s.pins .reset) := by
  rw [resetSequence_eq, ← pinsAfterAll_resetWrites]

theorem resetSequence_tgt (s : State) :
    (resetSequence s).tgt =
      targetAfterAll s.cfg.aExt (resetWrites s.cfg.toParams) (leadTarget s.cfg.toParams s.tgt .reset) := by
  rw [resetSequence_eq]

theorem resetSequence_op (s : State) (i : Fin 36) : (resetSequence s).op i = s.cfg.opDefault := by
  rw [resetSequence_eq]
  exact State.op_loadDefaults s i

theorem resetSequence_ch (s : State) (i : Fin 18) : (resetSequence s).ch i = s.cfg.chDefault := by
  rw [resetSequence_eq]
  exact State.ch_loadDefaults s i

/-- The whole account of the reset sequence, from any state. -/
theorem resetSequence_resetDone (s : State) : ResetDone [] s (resetSequence s) where
  ops := resetSequence_op s
  chs := resetSequence_ch s
  trace := by
    rw [resetSequence_pinTrace, List.append_nil, List.append_assoc]
    rfl
  log := by
    rw [State.writeLog, resetSequence_tgt, wlog_targetAfterAll, leadTarget_wlogRev, List.reverse_append,
      List.reverse_reverse, State.writeLog]
  contents b := by
    rw [resetSequence_tgt, read_targetAfterAll]
    cases h : s.cfg.hasResetLine <;> simp [leadTarget, h]
  addr := by rw [resetSequence_tgt, addr_targetAfterAll_resetWrites]
  ext := by rw [resetSequence_tgt, ext_targetAfterAll_resetWrites_true]
  pins := by
    rw [resetSequence_pins]
    refine ⟨rfl, aExt_extractLsb'_bank s.cfg, rfl, rfl, rfl, ?_⟩
    cases h : s.cfg.hasResetLine <;> simp [leadPins, pinsAfter, h]
  seq := by rw [resetSequence_eq]

/-! ### `RESET` (41_reset_init.md R152) -/

/-- After `BEGIN` nothing is wrong with a `RESET` (60_exceptions.md R232). -/
theorem faultCause_reset {s : State} (hb : s.begun = true) : faultCause .reset s = none := by
  simp [faultCause, Instr.wellFormed, hb, ownCause]

theorem exec_reset_of_ready {s : State} (h : s.ready) : exec .reset s = .next (resetSequence s) := by
  obtain ⟨hf, hb⟩ := h
  exact exec_of_effect hf (faultCause_reset hb) (.reset s)

/-- Settles O22: `RESET` is the reset sequence. -/
theorem resetCompletes : Obligations.ResetCompletes := fun s h =>
  ⟨resetSequence s, exec_reset_of_ready h, resetSequence_resetDone s, resetSequence_sameFlags s,
    resetSequence_sameInputs s, resetSequence_res s⟩

/-! ### `BEGIN` (41_reset_init.md R151, R153) -/

/-- `BEGIN` is admitted before any other command (60_exceptions.md R232). -/
theorem faultCause_begin (s : State) : faultCause .begin s = none := by
  simp [faultCause, Instr.wellFormed, ownCause]

theorem exec_begin_of_clear {s : State} (hf : s.fault = false) :
    exec .begin s = .next (resetSequence (pinInit s)).setBegun :=
  exec_of_effect hf (faultCause_begin s) (.begin s)

theorem pinInit_pinTrace (s : State) : (pinInit s).pinTrace = s.pinTrace ++ pinInitEvents s.cfg.toParams := by
  rw [pinInit_eq, State.pinTrace, List.reverse_append, List.reverse_reverse, State.pinTrace]

/-- Pin initialisation puts its events before those of the sequence and rests a reset line, as the pulse does; it leaves the
log and the target (41_reset_init.md R153). -/
theorem ResetDone.of_pinInit {s t : State} (h : ResetDone [] (pinInit s) t) :
    ResetDone (pinInitEvents s.cfg.toParams) s t := by
  have htrace := h.trace
  have hpins := h.pins
  rw [pinInit_pinTrace, List.append_nil] at htrace
  simp only [pinInit_eq] at h htrace hpins
  obtain ⟨hmode, hbank, hcs, hwr, hd, hrst⟩ := hpins
  refine { h with trace := htrace, pins := ⟨hmode, hbank, hcs, hwr, hd, hrst.trans ?_⟩ }
  cases hl : s.cfg.hasResetLine <;> simp [pinsAfterInit, hl]

theorem ResetDone.setBegun {first : List PinEvent} {s t : State} (h : ResetDone first s t) :
    ResetDone first s t.setBegun := { h with }

/-- Settles O21: `BEGIN` is the pin initialisation, the reset sequence, and `BEGUN`. -/
theorem beginCompletes : Obligations.BeginCompletes := by
  intro s hf
  obtain ⟨hcfg, hhost, hbusy, hfault, hcode, hinfo, -⟩ := commandBody_bus (i := .begin) hf (faultCause_begin s) rfl
  exact ⟨_, exec_begin_of_clear hf, rfl, (resetSequence_resetDone (pinInit s)).of_pinInit.setBegun, ⟨hcfg, hhost⟩,
    (resetSequence_res _).trans (pinInit_res s), hfault.trans hf, hcode, hinfo, hbusy⟩

end Sys2Proof.Machine
end

section
/-! PROOFS of the family 42_address_mapper.md: the two offset functions, and the commands that answer them. -/

namespace Sys2Proof.Machine

/-! ### The offset functions (42_address_mapper.md R171, R173, R175) -/

/-- Bank, group of six and place in the group (42_address_mapper.md R171). -/
theorem toNat_operatorOffset (i : Fin 36) :
    (operatorOffset i).toNat = 0x100 * (i.val / 18) + 8 * (i.val % 18 / 6) + i.val % 6 := by
  have hi := i.isLt
  simp only [operatorOffset, BitVec.toNat_ofNat]
  by_cases hbank : 18 ≤ i.val
  · simp only [hbank, if_true]
    split_ifs <;> omega
  · simp only [hbank, if_false]
    split_ifs <;> omega

/-- Bank and place in the bank (42_address_mapper.md R173). -/
theorem toNat_channelOffset (i : Fin 18) : (channelOffset i).toNat = 0x100 * (i.val / 9) + i.val % 9 := by
  have hi := i.isLt
  simp only [channelOffset, BitVec.toNat_ofNat]
  split_ifs <;> omega

theorem operatorOffset_strictMono {i j : Fin 36} (h : i < j) : (operatorOffset i).toNat < (operatorOffset j).toNat := by
  have hval : i.val < j.val := h
  rw [toNat_operatorOffset, toNat_operatorOffset]
  omega

theorem channelOffset_strictMono {i j : Fin 18} (h : i < j) : (channelOffset i).toNat < (channelOffset j).toNat := by
  have hval : i.val < j.val := h
  have hj := j.isLt
  rw [toNat_channelOffset, toNat_channelOffset]
  omega

/-- The offsets of one bank's operators: three groups of six (42_address_mapper.md R175). -/
def inBankOffsets : List Nat := [0, 1, 2, 3, 4, 5, 8, 9, 10, 11, 12, 13, 16, 17, 18, 19, 20, 21]

/-- The operators in order go through bank 0 and then through bank 1. -/
theorem map_operatorOffset_finRange :
    (List.finRange 36).map (fun i => (operatorOffset i).toNat) = inBankOffsets ++ inBankOffsets.map (0x100 + ·) := by
  decide

theorem exists_operatorOffset_iff (n : Nat) :
    (∃ i, (operatorOffset i).toNat = n) ↔ n ∈ inBankOffsets ∨ ∃ m ∈ inBankOffsets, n = 0x100 + m := by
  calc (∃ i, (operatorOffset i).toNat = n)
    _ ↔ n ∈ (List.finRange 36).map (fun i => (operatorOffset i).toNat) := by simp
    _ ↔ n ∈ inBankOffsets ∨ ∃ m ∈ inBankOffsets, n = 0x100 + m := by
      simp only [map_operatorOffset_finRange, List.mem_append, List.mem_map, eq_comm]

theorem exists_channelOffset_iff (n : Nat) :
    (∃ i, (channelOffset i).toNat = n) ↔ n ≤ 8 ∨ (0x100 ≤ n ∧ n ≤ 0x108) := by
  constructor
  · rintro ⟨i, rfl⟩
    have hi := i.isLt
    rw [toNat_channelOffset]
    omega
  · rintro (h | ⟨hlo, hhi⟩)
    · exact ⟨⟨n, by omega⟩, (toNat_channelOffset _).trans (by dsimp only; omega)⟩
    · exact ⟨⟨n - 0x100 + 9, by omega⟩, (toNat_channelOffset _).trans (by dsimp only; omega)⟩

/-- Settles O30: both orders and the channels' values are read off the closed forms, the operators' values off their list. -/
theorem offsetsAreInjective : Obligations.OffsetsAreInjective :=
  ⟨fun _ _ => operatorOffset_strictMono, fun _ _ => channelOffset_strictMono, exists_operatorOffset_iff,
    exists_channelOffset_iff⟩

/-! ### `OPOFF` and `CHOFF` (42_address_mapper.md R172, R174) -/

/-- After `BEGIN` nothing is wrong with an `OPOFF` of a legal index (60_exceptions.md R232). -/
theorem faultCause_opoff {s : State} (hb : s.begun = true) {idx : BitVec 6} (h : idx.toNat < 36) :
    faultCause (.opoff idx) s = none := by
  simp [faultCause, Instr.wellFormed, hb, ownCause, indexAbove, Nat.le_of_lt_succ h]

/-- After `BEGIN` nothing is wrong with a `CHOFF` of a legal index (60_exceptions.md R232). -/
theorem faultCause_choff {s : State} (hb : s.begun = true) {idx : BitVec 6} (h : idx.toNat < 18) :
    faultCause (.choff idx) s = none := by
  simp [faultCause, Instr.wellFormed, hb, ownCause, indexAbove, Nat.le_of_lt_succ h]

theorem exec_opoff_of_ready {s : State} (hs : s.ready) {idx : BitVec 6} (h : idx.toNat < 36) :
    exec (.opoff idx) s = .next (s.setRes (operatorOffset ⟨idx.toNat, h⟩)) := by
  obtain ⟨hf, hb⟩ := hs
  exact exec_of_effect hf (faultCause_opoff hb h) (.opoff (opIndex_of_lt h) s)

theorem exec_choff_of_ready {s : State} (hs : s.ready) {idx : BitVec 6} (h : idx.toNat < 18) :
    exec (.choff idx) s = .next (s.setRes (channelOffset ⟨idx.toNat, h⟩)) := by
  obtain ⟨hf, hb⟩ := hs
  exact exec_of_effect hf (faultCause_choff hb h) (.choff (chIndex_of_lt h) s)

/-- Settles O28: the result is `operatorOffset` of the index, by its closed form. -/
theorem opoffWritesTheOffset : Obligations.OpoffWritesTheOffset := fun _ _ hs h =>
  ⟨_, toNat_operatorOffset _, exec_opoff_of_ready hs (Nat.lt_succ_of_le h)⟩

/-- Settles O29: the result is `channelOffset` of the index, by its closed form. -/
theorem choffWritesTheOffset : Obligations.ChoffWritesTheOffset := fun _ _ hs h =>
  ⟨_, toNat_channelOffset _, exec_choff_of_ready hs (Nat.lt_succ_of_le h)⟩

end Sys2Proof.Machine
end

section
/-! PROOFS of the family 43_parameter_writes.md: the field writes, the bytes of a record, and the commands that send them. -/

namespace Sys2Proof.Machine

/-- A ready state answers a well-formed command with the command's effect (60_exceptions.md R232). -/
theorem exec_of_ready {i : Instr} {s t : State} (hs : s.ready) (hw : i.wellFormed = true) (h : Effect i s t) :
    exec i s = .next t := by
  obtain ⟨hf, hb⟩ := hs
  rw [exec_eq]
  exact runCommand_ok hf hw (.inl hb) (commandBody_of_effect h)

/-! ### Writing one record of a file -/

theorem State.setOp_sameFlags (i : Fin 36) (o : OpParams) (s : State) : SameFlags s (s.setOp i o) :=
  ⟨rfl, rfl, rfl, rfl, rfl⟩

theorem State.setOp_sameBus (i : Fin 36) (o : OpParams) (s : State) : SameBus s (s.setOp i o) :=
  ⟨rfl, rfl, rfl, rfl, rfl, rfl, fun _ => rfl⟩

theorem State.setOp_sameInputs (i : Fin 36) (o : OpParams) (s : State) : SameInputs s (s.setOp i o) := ⟨rfl, rfl⟩

theorem State.setCh_sameFlags (i : Fin 18) (c : ChParams) (s : State) : SameFlags s (s.setCh i c) :=
  ⟨rfl, rfl, rfl, rfl, rfl⟩

theorem State.setCh_sameBus (i : Fin 18) (c : ChParams) (s : State) : SameBus s (s.setCh i c) :=
  ⟨rfl, rfl, rfl, rfl, rfl, rfl, fun _ => rfl⟩

theorem State.setCh_sameInputs (i : Fin 18) (c : ChParams) (s : State) : SameInputs s (s.setCh i c) := ⟨rfl, rfl⟩

/-! ### `OPSET` and `CHSET` (43_parameter_writes.md R181, R182) -/

/-- The fields of an operator record in the order of their selectors (30_encoding.md R99). -/
def opFields : List OpField :=
  [.multiplier, .keyScaleRate, .sustainMode, .vibrato, .tremolo, .totalLevel, .keyScaleLevel, .attackRate, .decayRate,
    .sustainLevel, .releaseRate, .waveform]

/-- The fields of a channel record in the order of their selectors (30_encoding.md R100). -/
def chFields : List ChField :=
  [.fNumber, .block, .keyOn, .feedback, .algorithm, .panLeft, .panRight, .outC, .outD]

/-- An assigned selector names the field at its place. -/
theorem opField_eq_getElem :
    ∀ (fsel : BitVec 4) (h : fsel.toNat < opFields.length), opField fsel = .ok opFields[fsel.toNat] := by decide

/-- An assigned selector names the field at its place. -/
theorem chField_eq_getElem :
    ∀ (fsel : BitVec 4) (h : fsel.toNat < chFields.length), chField fsel = .ok chFields[fsel.toNat] := by decide

theorem exec_opset_of_ready {s : State} (hs : s.ready) {idx : BitVec 6} (h : idx.toNat < 36) {fsel : BitVec 4} {f : OpField}
    (hf : opFields[fsel.toNat]? = some f) (val : BitVec 10) :
    exec (.opset idx fsel val) s = .next (s.setOp ⟨idx.toNat, h⟩ (writeOpField f val (s.op ⟨idx.toNat, h⟩))) := by
  obtain ⟨hlt, rfl⟩ := List.getElem?_eq_some_iff.mp hf
  exact exec_of_ready hs (decide_eq_true hlt) (.opset (opIndex_of_lt h) (opField_eq_getElem fsel hlt) val s)

theorem exec_chset_of_ready {s : State} (hs : s.ready) {idx : BitVec 6} (h : idx.toNat < 18) {fsel : BitVec 4} {f : ChField}
    (hf : chFields[fsel.toNat]? = some f) (val : BitVec 10) :
    exec (.chset idx fsel val) s = .next (s.setCh ⟨idx.toNat, h⟩ (writeChField f val (s.ch ⟨idx.toNat, h⟩))) := by
  obtain ⟨hlt, rfl⟩ := List.getElem?_eq_some_iff.mp hf
  exact exec_of_ready hs (decide_eq_true hlt) (.chset (chIndex_of_lt h) (chField_eq_getElem fsel hlt) val s)

/-- Settles O32: `OPSET` writes one record, and `writeOpField` one field of it. -/
theorem opsetWritesOneField : Obligations.OpsetWritesOneField := by
  intro s idx h fsel val f hs hf
  refine ⟨_, exec_opset_of_ready hs h hf val, ?_, fun g hg => ?_, fun j hj => State.op_setOp_other hj _ s, rfl,
    State.setOp_sameFlags _ _ s, State.setOp_sameBus _ _ s, State.setOp_sameInputs _ _ s, rfl⟩
  · rw [State.op_setOp_same]
    exact readOpField_write_same f val _
  · rw [State.op_setOp_same]
    exact readOpField_write_other hg val _

/-- Settles O33: `CHSET` writes one record, and `writeChField` one field of it. -/
theorem chsetWritesOneField : Obligations.ChsetWritesOneField := by
  intro s idx h fsel val f hs hf
  refine ⟨_, exec_chset_of_ready hs h hf val, ?_, fun g hg => ?_, fun j hj => State.ch_setCh_other hj _ s, rfl,
    State.setCh_sameFlags _ _ s, State.setCh_sameBus _ _ s, State.setCh_sameInputs _ _ s, rfl⟩
  · rw [State.ch_setCh_same]
    exact readChField_write_same f val _
  · rw [State.ch_setCh_same]
    exact readChField_write_other hg val _

/-! ### The bytes determine the record (43_parameter_writes.md R183) -/

/-- Fields side by side are equal when each of them is. -/
theorem append_inj_iff {m n : Nat} {x x' : BitVec m} {y y' : BitVec n} : x ++ y = x' ++ y' ↔ x = x' ∧ y = y' := by
  rw [append_eq_iff, Nat.zero_add, BitVec.extractLsb'_append_eq_left, BitVec.extractLsb'_append_eq_right]

theorem waveCode_inj {w w' : Waveform} : waveCode w = waveCode w' ↔ w = w' :=
  (Function.LeftInverse.injective waveOfCode_waveCode).eq_iff

/-! What each byte determines (30_encoding.md R102 to R105). -/

section
variable {o o' : OpParams} {c c' : ChParams} {k k' : Bool}

theorem packMult_eq_iff : packMult o = packMult o' ↔
    o.tremolo = o'.tremolo ∧ o.vibrato = o'.vibrato ∧ o.sustainMode = o'.sustainMode ∧
      o.keyScaleRate = o'.keyScaleRate ∧ o.multiplier = o'.multiplier := by
  refine append_inj_iff.trans ?_
  simp only [append_inj_iff, BitVec.ofBool_eq_iff_eq, and_assoc]

theorem packLevel_eq_iff :
    packLevel o = packLevel o' ↔ o.keyScaleLevel = o'.keyScaleLevel ∧ o.totalLevel = o'.totalLevel := append_inj_iff

theorem packAd_eq_iff : packAd o = packAd o' ↔ o.attackRate = o'.attackRate ∧ o.decayRate = o'.decayRate :=
  append_inj_iff

theorem packSr_eq_iff : packSr o = packSr o' ↔ o.sustainLevel = o'.sustainLevel ∧ o.releaseRate = o'.releaseRate :=
  append_inj_iff

theorem packWave_eq_iff : packWave o = packWave o' ↔ o.waveform = o'.waveform := by
  refine append_inj_iff.trans ?_
  simp only [waveCode_inj, true_and]

theorem packFbc_eq_iff : packFbc c = packFbc c' ↔
    c.outD = c'.outD ∧ c.outC = c'.outC ∧ c.panRight = c'.panRight ∧ c.panLeft = c'.panLeft ∧
      c.feedback = c'.feedback ∧ c.algorithm = c'.algorithm := by
  refine append_inj_iff.trans ?_
  simp only [append_inj_iff, BitVec.ofBool_eq_iff_eq, and_assoc]

theorem packFhi_eq_iff : packFhi c k = packFhi c' k' ↔
    k = k' ∧ c.block = c'.block ∧ c.fNumber.extractLsb' 8 2 = c'.fNumber.extractLsb' 8 2 := by
  refine append_inj_iff.trans ?_
  simp only [append_inj_iff, BitVec.ofBool_eq_iff_eq, true_and, and_assoc]

end

/-- The low byte and the two bits above it make up an f-number (30_encoding.md R103, R104). -/
theorem fNumber_ext {x y : BitVec 10} (hlow : x.extractLsb' 0 8 = y.extractLsb' 0 8)
    (hhigh : x.extractLsb' 8 2 = y.extractLsb' 8 2) : x = y := by
  have hx : x.extractLsb' 8 2 ++ x.extractLsb' 0 8 = x := append_eq_iff.mpr ⟨rfl, rfl⟩
  have hy : y.extractLsb' 8 2 ++ y.extractLsb' 0 8 = y := append_eq_iff.mpr ⟨rfl, rfl⟩
  rw [← hx, ← hy, hlow, hhigh]

/-- Settles O37: every field stands in a byte, whole or, for the f-number, in two parts. -/
theorem packingIsInjective : Obligations.PackingIsInjective := by
  refine ⟨fun o o' hmult hlevel had hsr hwave => ?_, fun c c' hflo hfbc hfhi => ?_⟩
  · simp only [packMult_eq_iff, packLevel_eq_iff, packAd_eq_iff, packSr_eq_iff, packWave_eq_iff] at hmult hlevel had hsr hwave
    cases o
    cases o'
    simp_all
  · rw [packFbc_eq_iff] at hfbc
    obtain ⟨hkeyOn, hblock, hhigh⟩ := packFhi_eq_iff.mp hfhi
    have hfNumber : c.fNumber = c'.fNumber := fNumber_ext hflo hhigh
    cases c
    cases c'
    simp_all

/-! ### `UPDOP` (43_parameter_writes.md R184 to R186) -/

theorem exec_updop_of_ready {s : State} (hs : s.ready) {idx : BitVec 6} (h : idx.toNat < 36) :
    exec (.updop idx) s =
      .next (busWrites (updopWrites s.cfg.toParams ⟨idx.toNat, h⟩ (s.op ⟨idx.toNat, h⟩)) s) :=
  exec_of_ready hs rfl (.updop (opIndex_of_lt h) s)

/-- Settles O34: `UPDOP` is its five transactions, and transactions leave the core's registers. -/
theorem updopIssuesFiveTransactions : Obligations.UpdopIssuesFiveTransactions := fun s _ h hs =>
  ⟨_, exec_updop_of_ready hs h, busWrites_issued (List.cons_ne_nil _ _) s, busWrites_sameFiles _ s,
    busWrites_sameFlags _ s, busWrites_sameInputs _ s, busWrites_res _ s⟩

/-- A register written once, where writes land and none goes to `A_EXT`, holds its byte (20_memory.md R66). -/
theorem contentAfter_written {aExt : Addr} {l : List (Addr × Byte)} {x : Addr × Byte} {e : Option Bool} (hx : x ∈ l)
    (honce : (l.map Prod.fst).Nodup) (hext : ∀ y ∈ l, y.1 ≠ aExt) (hlands : x.1.getLsbD 8 = false ∨ e = some true)
    (v : Option Byte) : contentAfter aExt x.1 l v e = some x.2 := by
  induction l generalizing v with
  | nil => cases hx
  | cons y l ih =>
    obtain ⟨hy, honce⟩ := List.nodup_cons.mp honce
    obtain ⟨hyext, hext⟩ := List.forall_mem_cons.mp hext
    rw [contentAfter, if_neg hyext]
    rcases List.mem_cons.mp hx with rfl | hx
    · rw [if_pos rfl, if_pos (hlands.imp_right .inr)]
      exact contentAfter_outside (fun z hz heq => hy (List.mem_map.mpr ⟨z, hz, heq⟩)) _ _
    · exact ih hx honce hext _

/-- The bases of an operator's registers in the order of `UPDOP` (43_parameter_writes.md R186). -/
def opBases (p : Params) : List Byte := [p.baseMult, p.baseLevel, p.baseAd, p.baseSr, p.baseWave]

theorem updopWrites_addresses (p : Params) (i : Fin 36) (o : OpParams) :
    (updopWrites p i o).map Prod.fst = (opBases p).map (registerAddress · (operatorOffset i)) := rfl

theorem exists_base_of_mem_updopWrites {p : Params} {i : Fin 36} {o : OpParams} {x : Addr × Byte}
    (hx : x ∈ updopWrites p i o) : ∃ b ∈ opBases p, registerAddress b (operatorOffset i) = x.1 :=
  List.mem_map.mp (updopWrites_addresses p i o ▸ List.mem_map_of_mem hx)

theorem registerAddress_injective (off : Addr) : Function.Injective (registerAddress · off) := by
  intro b b' h
  have hbase : b.setWidth 9 = b'.setWidth 9 := add_right_cancel h
  simpa using congrArg (BitVec.setWidth 8) hbase

theorem nodup_opBases (c : Config) : (opBases c.toParams).Nodup :=
  c.bases_apart.sublist (l₁ := opBases c.toParams) (List.sublist_append_left _ [c.baseFlo, c.baseFbc, c.baseFhi])

/-- Different bases with one offset are different registers. -/
theorem nodup_updopWrites_addresses (c : Config) (i : Fin 36) (o : OpParams) :
    ((updopWrites c.toParams i o).map Prod.fst).Nodup := by
  rw [updopWrites_addresses]
  exact (nodup_opBases c).map (registerAddress_injective _)

theorem getLsbD_registerAddress_of_bank_zero {base : Byte} {off : Addr} (h : base.toNat + off.toNat < 0x100) :
    (registerAddress base off).getLsbD 8 = false := by
  have hoff := toNat_eq_bank_low off
  have haddr := toNat_registerAddress (base := base) (off := off) (by omega)
  exact Nat.testBit_lt_two_pow (haddr ▸ h)

/-- The registers of the operators 0 to 17 are in bank 0 (42_address_mapper.md R171, 20_memory.md R73). -/
theorem operatorRegister_bank_zero {c : Config} {b : Byte} (hb : b ∈ opBases c.toParams) {i : Fin 36} (hi : i.val < 18) :
    (registerAddress b (operatorOffset i)).getLsbD 8 = false := by
  have hbase : b.toNat ≤ 0xEA := c.opBase_le hb
  have hoff := toNat_operatorOffset i
  exact getLsbD_registerAddress_of_bank_zero (by omega)

/-- `A_EXT` is in bank 1 (00_scope.md R7). -/
theorem ne_aExt_of_bank_zero {c : Config} {a : Addr} (h : a.getLsbD 8 = false) : a ≠ c.aExt := by
  rintro rfl
  cases h.symm.trans c.aExt_bank

/-- Settles O42: the five registers are apart, and each write lands in bank 0 or, with extended mode on, in bank 1. -/
theorem updopReachesTheTarget : Obligations.UpdopReachesTheTarget := by
  intro s t idx h hs hwritable he
  obtain ⟨t', he', hissued, ⟨hops, -⟩, -, ⟨hcfg, -⟩, -⟩ := updopIssuesFiveTransactions s idx h hs
  obtain rfl : t' = t := Host.Outcome.next.inj (he'.symm.trans he)
  have hlands : ∀ x ∈ updopWrites s.cfg.toParams ⟨idx.toNat, h⟩ (s.op ⟨idx.toNat, h⟩),
      x.1 ≠ s.cfg.aExt ∧ (x.1.getLsbD 8 = false ∨ s.tgt.ext = some true) := by
    intro x hx
    obtain ⟨b, hb, hbx⟩ := exists_base_of_mem_updopWrites hx
    rw [← hbx]
    rcases hwritable with hidx | ⟨hext, hne⟩
    · have hbank := operatorRegister_bank_zero hb (i := ⟨idx.toNat, h⟩) hidx
      exact ⟨ne_aExt_of_bank_zero hbank, .inl hbank⟩
    · exact ⟨hne b hb, .inr hext⟩
  have hop : t'.op ⟨idx.toNat, h⟩ = s.op ⟨idx.toNat, h⟩ := by rw [State.op, hops, State.op]
  rw [State.opInTarget, hcfg, hop, List.all_eq_true]
  intro x hx
  obtain ⟨-, hbank⟩ := hlands x hx
  rw [hissued.contents, beq_iff_eq]
  exact contentAfter_written hx (nodup_updopWrites_addresses s.cfg _ _) (fun y hy => (hlands y hy).1) hbank _

/-! ### `KEYON` and `KEYOFF` (43_parameter_writes.md R188 to R192) -/

theorem ch_setKeyOn_same (i : Fin 18) (k : Bool) (s : State) : (setKeyOn i k s).ch i = { s.ch i with keyOn := k } :=
  State.ch_setCh_same i _ s

theorem ch_setKeyOn_other {i j : Fin 18} (h : j ≠ i) (k : Bool) (s : State) : (setKeyOn i k s).ch j = s.ch j :=
  State.ch_setCh_other h _ s

@[simp] theorem busWrites_ch (l : List (Addr × Byte)) (s : State) (i : Fin 18) : (busWrites l s).ch i = s.ch i := by
  rw [State.ch, busWrites_chs, State.ch]

/-- A written record says nothing of the bus. -/
theorem Issued.of_setCh {l : List (Addr × Byte)} {i : Fin 18} {c : ChParams} {s t : State} (h : Issued l (s.setCh i c) t) :
    Issued l s t := { h with }

theorem keyonWrites_keyOn (p : Params) (i : Fin 18) (c : ChParams) (k : Bool) :
    keyonWrites p i { c with keyOn := k } = keyonWrites p i c := rfl

theorem keyoffWrites_keyOn (p : Params) (i : Fin 18) (c : ChParams) (k : Bool) :
    keyoffWrites p i { c with keyOn := k } = keyoffWrites p i c := rfl

section
variable {s : State} (hs : s.ready) {idx : BitVec 6} (h : idx.toNat < 18)
include hs

theorem exec_keyon_of_ready :
    exec (.keyon idx) s =
      .next (busWrites (keyonWrites s.cfg.toParams ⟨idx.toNat, h⟩ (s.ch ⟨idx.toNat, h⟩))
        (setKeyOn ⟨idx.toNat, h⟩ true s)) := by
  rw [← keyonWrites_keyOn _ _ _ true, ← ch_setKeyOn_same]
  exact exec_of_ready hs rfl (.keyon (chIndex_of_lt h) s)

theorem exec_keyoff_of_ready :
    exec (.keyoff idx) s =
      .next (busWrites (keyoffWrites s.cfg.toParams ⟨idx.toNat, h⟩ (s.ch ⟨idx.toNat, h⟩))
        (setKeyOn ⟨idx.toNat, h⟩ false s)) := by
  rw [← keyoffWrites_keyOn _ _ _ false, ← ch_setKeyOn_same]
  exact exec_of_ready hs rfl (.keyoff (chIndex_of_lt h) s)

end

/-- Transactions after `keyOn` of one record is written: they are issued, the record is written, and nothing else is. -/
theorem busWrites_setKeyOn {l : List (Addr × Byte)} (hl : l ≠ []) (i : Fin 18) (k : Bool) {s t : State}
    (ht : busWrites l (setKeyOn i k s) = t) :
    Issued l s t ∧ t.ch i = { s.ch i with keyOn := k } ∧ (∀ j, j ≠ i → t.ch j = s.ch j) ∧
      t.ops = s.ops ∧ SameFlags s t ∧ SameInputs s t ∧ t.res = s.res := by
  subst ht
  refine ⟨(busWrites_issued hl (setKeyOn i k s)).of_setCh, ?_, fun j hj => ?_, busWrites_ops l _,
    busWrites_sameFlags l (setKeyOn i k s), busWrites_sameInputs l (setKeyOn i k s), busWrites_res l _⟩
  · rw [busWrites_ch, ch_setKeyOn_same]
  · rw [busWrites_ch, ch_setKeyOn_other hj]

/-- Settles O38: `KEYON` is the key-on bit written in the file and three transactions. -/
theorem keyonWritesInFixedOrder : Obligations.KeyonWritesInFixedOrder := fun _ _ h hs =>
  ⟨_, exec_keyon_of_ready hs h, busWrites_setKeyOn (List.cons_ne_nil _ _) _ _ rfl⟩

/-- Settles O39: `KEYOFF` is the key-on bit written in the file and one transaction. -/
theorem keyoffIssuesOneWrite : Obligations.KeyoffIssuesOneWrite := fun _ _ h hs =>
  ⟨_, exec_keyoff_of_ready hs h, busWrites_setKeyOn (List.cons_ne_nil _ _) _ _ rfl⟩

/-! The key-on bit of `fhi` is bit 5, and the others do not depend on it (30_encoding.md R104). -/

theorem getLsbD_packFhi_five (c : ChParams) (k : Bool) : (packFhi c k).getLsbD 5 = k := by
  simp only [packFhi, BitVec.getLsbD_append]
  simp

theorem getLsbD_packFhi_of_ne {n : Nat} (hn : n ≠ 5) (c : ChParams) (k k' : Bool) :
    (packFhi c k).getLsbD n = (packFhi c k').getLsbD n := by
  simp only [packFhi, BitVec.getLsbD_append]
  split_ifs
  · rfl
  · rfl
  · omega
  · rfl

/-- The byte takes of the record the frequency fields alone. -/
theorem packFhi_congr {c c' : ChParams} (hfNumber : c.fNumber = c'.fNumber) (hblock : c.block = c'.block) (k : Bool) :
    packFhi c k = packFhi c' k := packFhi_eq_iff.mpr ⟨rfl, hblock, congrArg _ hfNumber⟩

/-- Settles O40: both commands write `fhi` of the same frequency fields, with key-on bit 1 and 0. -/
theorem keyoffKeepsTheFrequencyBits : Obligations.KeyoffKeepsTheFrequencyBits := by
  intro s t u v idx h hs hon hu hcfg hfNumber hblock hoff
  obtain ⟨t', hon', hissued, hch, -, -, -, ⟨hcfg', -⟩, -⟩ := keyonWritesInFixedOrder s idx h hs
  obtain rfl : t' = t := Host.Outcome.next.inj (hon'.symm.trans hon)
  obtain ⟨v', hoff', hissued', -⟩ := keyoffIssuesOneWrite u idx h hu
  obtain rfl : v' = v := Host.Outcome.next.inj (hoff'.symm.trans hoff)
  have hbyte : packFhi (u.ch ⟨idx.toNat, h⟩) false = packFhi (s.ch ⟨idx.toNat, h⟩) false :=
    packFhi_congr (hfNumber.trans (congrArg ChParams.fNumber hch)) (hblock.trans (congrArg ChParams.block hch)) false
  refine ⟨registerAddress s.cfg.baseFhi (channelOffset ⟨idx.toNat, h⟩), packFhi (s.ch ⟨idx.toNat, h⟩) true,
    packFhi (s.ch ⟨idx.toNat, h⟩) false, ?_, ?_, getLsbD_packFhi_five _ true, getLsbD_packFhi_five _ false,
    fun k hk => getLsbD_packFhi_of_ne hk _ false true⟩
  · rw [hissued.log, List.getLast?_append]
    rfl
  · rw [hissued'.log, hcfg, hcfg', hbyte]

end Sys2Proof.Machine
end

section
/-! PROOFS of the family 44_frequency.md: what `SETFREQ` answers, and what the conversion makes of a frequency. -/

namespace Sys2Proof.Machine

/-! ### The halvings of a raw value (44_frequency.md R201) -/

/-- `b` is the least number of halvings that brings `f` below 1024. -/
def LeastHalvings (f b : Nat) : Prop := f / 2 ^ b < 1024 ∧ (b = 0 ∨ 1024 ≤ f / 2 ^ (b - 1))

theorem LeastHalvings.unique {f j k : Nat} (hj : LeastHalvings f j) (hk : LeastHalvings f k) : j = k :=
  halvings_unique hj.1 hj.2 hk.1 hk.2

theorem div_two_pow_succ (f b : Nat) : f / 2 ^ (b + 1) = f / 2 ^ b / 2 := by
  rw [Nat.pow_succ, Nat.div_div_eq_div_mul]

/-- The loop stops at the first value below 1024, which is at least half of 1024 (44_frequency.md R203 (b)). -/
theorem LeastHalvings.normalised {f b : Nat} (h : LeastHalvings f b) : b = 0 ∨ 512 ≤ f / 2 ^ b := by
  obtain ⟨-, rfl | hle⟩ := h
  · exact .inl rfl
  · cases b with
    | zero => exact .inl rfl
    | succ b =>
      rw [Nat.add_sub_cancel] at hle
      rw [div_two_pow_succ]
      omega

section
variable {f g b : Nat}

/-- A value whose half is `f` takes one halving more than `f`, when the last value of `f` would overflow doubled. -/
theorem LeastHalvings.succ_of_half (h : LeastHalvings f b) (hg : g / 2 = f) (hover : 512 ≤ f / 2 ^ b) :
    LeastHalvings g (b + 1) := by
  have hstep : g / 2 ^ (b + 1) = f / 2 ^ b := by rw [Nat.pow_succ', ← Nat.div_div_eq_div_mul, hg]
  refine ⟨hstep ▸ h.1, .inr ?_⟩
  rw [Nat.add_sub_cancel]
  rw [div_two_pow_succ] at hstep
  omega

/-- And none, as `f`, when it would not. -/
theorem LeastHalvings.zero_of_half (h : LeastHalvings f b) (hg : g / 2 = f) (hfits : f / 2 ^ b < 512) :
    b = 0 ∧ LeastHalvings g 0 := by
  obtain rfl : b = 0 := h.normalised.resolve_right (Nat.not_le.mpr hfits)
  rw [Nat.pow_zero, Nat.div_one] at hfits
  refine ⟨rfl, ?_, .inl rfl⟩
  rw [Nat.pow_zero, Nat.div_one]
  omega

end

/-! ### The raw value -/

/-- Half of the raw value of a doubled frequency is the raw value of the frequency. -/
theorem rawFNumber_double_half (p : Params) (x : Nat) : rawFNumber p (2 * x) / 2 = rawFNumber p x := by
  rw [rawFNumber, rawFNumber, Nat.div_div_eq_div_mul, Nat.mul_comm _ 2, Nat.mul_assoc,
    Nat.mul_div_mul_left _ _ (by decide)]

/-- The two truncations together are one division (44_frequency.md R203 (c), (d)). -/
theorem rawFNumber_div_two_pow (p : Params) (x b : Nat) :
    rawFNumber p x / 2 ^ b = x * 2 ^ 20 / (2 ^ b * (p.clockHz / 288)) := by
  rw [rawFNumber, Nat.div_div_eq_div_mul, Nat.mul_comm (p.clockHz / 288)]

/-- A frequency that takes at most seven halvings converts. -/
theorem convert_eq_ok {c : Config} {x b : Nat} (hx : x < 2 ^ (c.wInt - 20)) (h7 : b ≤ 7)
    (hb : LeastHalvings (rawFNumber c.toParams x) b) :
    convert c.toParams x = .ok (BitVec.ofNat 10 (rawFNumber c.toParams x / 2 ^ b), BitVec.ofNat 3 b) := by
  rcases convert_spec c x with ⟨hx', -⟩ | ⟨-, k, hlt, hle, hc⟩
  · omega
  · obtain rfl : k = b := LeastHalvings.unique ⟨hlt, hle⟩ hb
    rcases hc with ⟨h7', -⟩ | ⟨-, hc⟩
    · omega
    · exact hc

/-- What the conversion answers are the value after the least number of halvings, and that number. -/
theorem of_convert_eq_ok {c : Config} {x : Nat} {n : BitVec 10} {b : BitVec 3} (h : convert c.toParams x = .ok (n, b)) :
    LeastHalvings (rawFNumber c.toParams x) b.toNat ∧ n.toNat = rawFNumber c.toParams x / 2 ^ b.toNat := by
  rcases convert_spec c x with ⟨-, hc⟩ | ⟨-, k, hlt, hle, ⟨-, hc⟩ | ⟨h7, hc⟩⟩
  · cases hc.symm.trans h
  · cases hc.symm.trans h
  · cases hc.symm.trans h
    rw [BitVec.toNat_ofNat, BitVec.toNat_ofNat, Nat.mod_eq_of_lt (Nat.lt_succ_of_le h7)]
    exact ⟨⟨hlt, hle⟩, Nat.mod_eq_of_lt hlt⟩

/-! ### What `SETFREQ` answers (44_frequency.md R201) -/

theorem ch_setFrequency_same (i : Fin 18) (n : BitVec 10) (b : BitVec 3) (s : State) :
    (setFrequency i n b s).ch i = { s.ch i with fNumber := n, block := b } := State.ch_setCh_same i _ s

theorem readChField_setFrequency {g : ChField} (hn : g ≠ .fNumber) (hb : g ≠ .block) (n : BitVec 10) (b : BitVec 3)
    (c : ChParams) : readChField g { c with fNumber := n, block := b } = readChField g c := by
  cases g with
  | fNumber => exact absurd rfl hn
  | block => exact absurd rfl hb
  | keyOn | feedback | algorithm | panLeft | panRight | outC | outD => rfl

/-- After `BEGIN` only a command's own checks can fail (60_exceptions.md R232). -/
theorem faultCause_of_ready {i : Instr} {s : State} (hs : s.ready) (hw : i.wellFormed = true) :
    faultCause i s = ownCause s.cfg.toParams i := by
  obtain ⟨-, hb⟩ := hs
  simp [faultCause, hw, hb]

section
variable {s : State} (hs : s.ready) {idx : BitVec 6} {freq : BitVec 16}
include hs

theorem exec_setfreq_of_cause {c : Cause} (hc : ownCause s.cfg.toParams (.setfreq idx freq) = some c) :
    exec (.setfreq idx freq) s = .next (s.setFault c (encode (.setfreq idx freq))) :=
  exec_of_cause hs.1 ((faultCause_of_ready hs rfl).trans hc)

theorem exec_setfreq_of_ready (h : idx.toNat < 18) {b : Nat} (hfreq : freq.toNat < 2 ^ (s.cfg.wInt - 20)) (h7 : b ≤ 7)
    (hb : LeastHalvings (rawFNumber s.cfg.toParams freq.toNat) b) :
    exec (.setfreq idx freq) s = .next (setFrequency ⟨idx.toNat, h⟩
      (BitVec.ofNat 10 (rawFNumber s.cfg.toParams freq.toNat / 2 ^ b)) (BitVec.ofNat 3 b) s) :=
  exec_of_ready hs rfl (.setfreq (chIndex_of_lt h) (convert_eq_ok hfreq h7 hb))

/-- A `SETFREQ` that does not fault leaves the converted frequency in the record. -/
theorem setfreq_converted {t : State} (h : idx.toNat < 18) (he : exec (.setfreq idx freq) s = .next t)
    (ht : t.fault = false) :
    LeastHalvings (rawFNumber s.cfg.toParams freq.toNat) (t.ch ⟨idx.toNat, h⟩).block.toNat ∧
      (t.ch ⟨idx.toNat, h⟩).fNumber.toNat =
        rawFNumber s.cfg.toParams freq.toNat / 2 ^ (t.ch ⟨idx.toNat, h⟩).block.toNat := by
  obtain ⟨hf, -⟩ := hs
  rcases exec_cases he with ⟨hf', -⟩ | ⟨-, c, -, rfl⟩ | ⟨-, -, hbody⟩
  · cases hf.symm.trans hf'
  · cases ht
  · cases effect_of_commandBody hbody with
    | setfreq hk hconv =>
      cases (chIndex_of_lt h).symm.trans hk
      rw [ch_setFrequency_same]
      exact of_convert_eq_ok hconv

end

/-- Settles O43: the causes are `ownCause` in its order, and otherwise one record takes the converted frequency. -/
theorem setfreqConverts : Obligations.SetfreqConverts := by
  intro s idx freq F hs hF
  subst hF
  refine ⟨fun h => ?_, fun h hfreq => ?_, fun h hfreq hF => ?_, fun h b hfreq h7 hlt hle => ?_⟩
  · exact exec_setfreq_of_cause (c := .channelIndexRange) hs (by simp [ownCause, indexAbove, h])
  · exact exec_setfreq_of_cause (c := .frequencyRange) hs (by simp [ownCause, indexAbove, Nat.not_lt.mpr h, hfreq])
  · refine exec_setfreq_of_cause (c := .blockRange) hs ?_
    simp only [ownCause, indexAbove, Nat.not_lt.mpr h, Nat.not_le.mpr hfreq, hF, decide_false, Bool.false_eq_true,
      if_false, if_true]
  · refine ⟨_, exec_setfreq_of_ready hs h hfreq h7 ⟨hlt, hle⟩, ?_, ?_, fun g hn hb => ?_,
      fun j hj => State.ch_setCh_other hj _ s, rfl, State.setCh_sameFlags _ _ s, State.setCh_sameBus _ _ s,
      State.setCh_sameInputs _ _ s, rfl⟩
    · rw [ch_setFrequency_same, BitVec.toNat_ofNat]
      exact Nat.mod_eq_of_lt hlt
    · rw [ch_setFrequency_same, BitVec.toNat_ofNat, Nat.mod_eq_of_lt (Nat.lt_succ_of_le h7)]
    · rw [ch_setFrequency_same]
      exact readChField_setFrequency hn hb _ _ _

/-- Settles O44: the loop's last value is normalised, and it is one truncating quotient of the input. -/
theorem conversionIsNormalised : Obligations.ConversionIsNormalised := by
  intro s t idx h freq hs he ht
  obtain ⟨hleast, hn⟩ := setfreq_converted hs h he ht
  have hlt : (t.ch ⟨idx.toNat, h⟩).fNumber.toNat < 1024 := BitVec.isLt _
  have hb : (t.ch ⟨idx.toNat, h⟩).block.toNat ≤ 7 := Nat.le_of_lt_succ (BitVec.isLt _)
  have hnorm := hleast.normalised
  rw [← hn] at hnorm
  have hquot := hn.trans (rawFNumber_div_two_pow _ _ _)
  have hpos : 0 < 2 ^ (t.ch ⟨idx.toNat, h⟩).block.toNat * (s.cfg.clockHz / 288) :=
    Nat.mul_pos (Nat.two_pow_pos _) s.cfg.divisor_pos
  refine ⟨hlt, hb, hnorm.imp_right fun h512 => ⟨h512, Nat.le_of_lt_succ hlt⟩, hn, ?_, ?_⟩
  · rw [Nat.mul_assoc, hquot]
    exact Nat.div_mul_le_self _ _
  · rw [Nat.mul_assoc, hquot]
    exact Nat.lt_mul_of_div_lt (Nat.lt_succ_self _) hpos

/-- Settles O45: the raw value of the doubled frequency halves to that of the frequency, and least halvings are unique. -/
theorem doublingRaisesTheBlock : Obligations.DoublingRaisesTheBlock := by
  intro s t u idx h x y hs hy het ht heu hu
  obtain ⟨hbt, hnt⟩ := setfreq_converted hs h het ht
  obtain ⟨hbu, -⟩ := setfreq_converted hs h heu hu
  have hhalf : rawFNumber s.cfg.toParams y.toNat / 2 = rawFNumber s.cfg.toParams x.toNat := by
    rw [hy, rawFNumber_double_half]
  rw [hnt]
  refine ⟨fun hover => hbu.unique (hbt.succ_of_half hhalf hover), fun hfits => ?_⟩
  obtain ⟨hzero, hleast⟩ := hbt.zero_of_half hhalf hfits
  exact ⟨BitVec.eq_of_toNat_eq ((hbu.unique hleast).trans hzero.symm), BitVec.eq_of_toNat_eq hzero⟩

/-- Settles O46: the raw value is 9280, four halvings bring it to 580, and 440 passes the first check at every `W_INT`. -/
theorem concertPitchConverts : Obligations.ConcertPitchConverts := by
  intro s idx h hs hclock
  have hF : 9280 = (440#16).toNat * 2 ^ 20 / (s.cfg.clockHz / 288) := by rw [hclock]; decide
  have hfreq : (440#16).toNat < 2 ^ (s.cfg.wInt - 20) :=
    calc (440#16).toNat < 2 ^ 12 := by decide
      _ ≤ 2 ^ (s.cfg.wInt - 20) := Nat.pow_le_pow_right (by decide) (Nat.le_sub_of_add_le s.cfg.wInt_ge)
  obtain ⟨-, -, -, hconverts⟩ := setfreqConverts s idx 440 9280 hs hF
  obtain ⟨t, he, hn, hb, -⟩ := hconverts h 4 hfreq (by decide) (by decide) (by decide)
  exact ⟨t, he, BitVec.eq_of_toNat_eq hn, BitVec.eq_of_toNat_eq hb⟩

end Sys2Proof.Machine
end

section
/-! PROOFS of the family 45_note_dispatcher.md: whole-number pitches, `NOTEON` and `NOTEOFF`, the notes that cannot be converted,
and the range of notes at the clock of the vectors. -/

namespace Sys2Proof.Machine

/-! ### Whole-number pitches (45_note_dispatcher.md R216, R217) -/

theorem hzScaled_strictMono : StrictMono hzScaled := fun x y h =>
  Nat.mul_lt_mul_of_pos_right (Nat.pow_lt_pow_left (by omega) (by decide)) (by decide)

/-- Settles O49: the pitch is `55 · 2^k` itself, and on the scale of pitches the order is that of the hertz. -/
theorem integerPitchesAreExact : Obligations.IntegerPitchesAreExact := by
  intro k h
  rw [noteHzAdmissible_iff, pitchScaled_octaves, hzScaled_strictMono.lt_iff_lt, hzScaled_strictMono.lt_iff_lt]
  omega

/-! ### The two expansions (45_note_dispatcher.md R218, R219)

`CHSET` of `keyOn` writes what `KEYON` and `KEYOFF` write again, so after it they answer as without it. -/

theorem andThen_execAll_nil (o : Outcome) : andThen o (execAll []) = o := by cases o <;> rfl

theorem setKeyOn_ready {s : State} (hs : s.ready) (i : Fin 18) (k : Bool) : (setKeyOn i k s).ready := hs

theorem setFrequency_ready {s : State} (hs : s.ready) (i : Fin 18) (n : BitVec 10) (b : BitVec 3) :
    (setFrequency i n b s).ready := hs

theorem setKeyOn_setKeyOn (i : Fin 18) (j k : Bool) (s : State) : setKeyOn i k (setKeyOn i j s) = setKeyOn i k s := by
  rw [setKeyOn, ch_setKeyOn_same]
  simp [setKeyOn, State.setCh]

section
variable {s : State} (hs : s.ready) {c : BitVec 6} (h : c.toNat < 18)
include hs h

theorem exec_chset_keyOn_of_ready (v : BitVec 10) :
    exec (.chset c 2 v) s = .next (setKeyOn ⟨c.toNat, h⟩ (v.getLsbD 0) s) :=
  exec_chset_of_ready hs h (f := .keyOn) rfl v

theorem exec_keyon_setKeyOn (j : Bool) : exec (.keyon c) (setKeyOn ⟨c.toNat, h⟩ j s) = exec (.keyon c) s := by
  rw [exec_keyon_of_ready (setKeyOn_ready hs _ _) h, exec_keyon_of_ready hs h, setKeyOn_setKeyOn,
    ch_setKeyOn_same, keyonWrites_keyOn]
  rfl

theorem exec_keyoff_setKeyOn (j : Bool) : exec (.keyoff c) (setKeyOn ⟨c.toNat, h⟩ j s) = exec (.keyoff c) s := by
  rw [exec_keyoff_of_ready (setKeyOn_ready hs _ _) h, exec_keyoff_of_ready hs h, setKeyOn_setKeyOn,
    ch_setKeyOn_same, keyoffWrites_keyOn]
  rfl

theorem execAll_chset_keyon : execAll [.chset c 2 1, .keyon c] s = exec (.keyon c) s := by
  rw [execAll, exec_chset_keyOn_of_ready hs h, andThen_next, execAll, andThen_execAll_nil, exec_keyon_setKeyOn hs h]

theorem execAll_chset_keyoff : execAll [.chset c 2 0, .keyoff c] s = exec (.keyoff c) s := by
  rw [execAll, exec_chset_keyOn_of_ready hs h, andThen_next, execAll, andThen_execAll_nil, exec_keyoff_setKeyOn hs h]

end

/-- Settles O48: `NOTEOFF` answers as `KEYOFF` alone. -/
theorem noteOffReleasesTheKey : Obligations.NoteOffReleasesTheKey := by
  intro s c h note vel hs
  obtain ⟨t, ht, hissued, hch, hrest⟩ := keyoffIssuesOneWrite s c h hs
  exact ⟨t, (execAll_chset_keyoff hs h).trans ht, hch, hissued, hrest⟩

/-! ### A note that converts (44_frequency.md R201) -/

/-- A value below 2^17 takes at most seven halvings. -/
theorem exists_leastHalvings {f : Nat} (hf : f < 2 ^ 17) : ∃ b ≤ 7, LeastHalvings f b := by
  have hfuel : f < 1024 * 2 ^ 7 := hf
  obtain ⟨b, -, hlt, hle⟩ := halve_spec 7 f 0 hfuel
  exact ⟨b, Nat.le_of_not_lt fun h7 => absurd ((block_overflow_iff hlt hle).mp h7) (Nat.not_le.mpr hf), hlt, hle⟩

theorem toNat_operand {hz : Nat} (h : hz < 2 ^ 16) : (BitVec.ofNat 16 hz).toNat = hz := Nat.mod_eq_of_lt h

/-- `NOTEON` on a note that converts answers as `KEYON` after the frequency is written. -/
theorem runNote_on_of_converts {s : State} (hs : s.ready) {c : BitVec 6} (h : c.toNat < 18) {note hz b : Nat} (vel : Nat)
    (hhz : hz = noteHz s.cfg.toParams note) (hfits : hz < 2 ^ 16) (hfreq : hz < 2 ^ (s.cfg.wInt - 20)) (h7 : b ≤ 7)
    (hb : LeastHalvings (rawFNumber s.cfg.toParams hz) b) :
    runNote (.on c note vel) s = exec (.keyon c) (setFrequency ⟨c.toNat, h⟩
      (BitVec.ofNat 10 (rawFNumber s.cfg.toParams hz / 2 ^ b)) (BitVec.ofNat 3 b) s) := by
  have hn := toNat_operand hfits
  rw [runNote, ← hhz, sendFrequency_fits hfits, exec_setfreq_of_ready hs h (hn.symm ▸ hfreq) h7 (hn.symm ▸ hb),
    andThen_next, hn]
  exact execAll_chset_keyon (setFrequency_ready hs _ _ _) h

/-- Settles O47: `KEYON` from the state in which the record holds the converted frequency. -/
theorem noteOnPlaysTheFrequency : Obligations.NoteOnPlaysTheFrequency := by
  intro s c h note vel hz F hs hhz hF hfits hfreq hlt
  subst hF
  obtain ⟨b, h7, hb⟩ := exists_leastHalvings hlt
  obtain ⟨t, ht, hissued, hch, hothers, hrest⟩ := keyonWritesInFixedOrder (setFrequency ⟨c.toNat, h⟩ _ _ s) c h hs
  rw [ch_setFrequency_same] at hissued hch
  refine ⟨t, (runNote_on_of_converts hs h vel hhz hfits hfreq h7 hb).trans ht, ⟨b, h7, hb.1, hb.2, hch⟩, ?_,
    fun j hj => (hothers j hj).trans (State.ch_setCh_other hj _ s), hrest⟩
  rw [hch]
  exact hissued.of_setCh

/-! ### A note that does not (44_frequency.md R201, R206, R207) -/

/-- The cause a number of hertz of any size is refused with, in `SETFREQ`'s order of checks (R218; the last one, and the word
below where there is no operand, are the model's choice: log 20). -/
def frequencyCause (p : Params) (c : BitVec 6) (hz : Nat) : Option Cause :=
  if 17 < c.toNat then some .channelIndexRange
  else if 2 ^ (p.wInt - 20) ≤ hz then some .frequencyRange
  else if 2 ^ 17 ≤ rawFNumber p hz then some .blockRange
  else if 2 ^ 16 ≤ hz then some .frequencyRange
  else none

/-- The word recorded with it. -/
def frequencyWord (c : BitVec 6) (hz : Nat) : CmdWord :=
  encode (.setfreq c (if hz < 2 ^ 16 then BitVec.ofNat 16 hz else 0xFFFF))

/-- Where there is an operand, the cause is that of the command. -/
theorem ownCause_setfreq {hz : Nat} (h : hz < 2 ^ 16) (p : Params) (c : BitVec 6) :
    ownCause p (.setfreq c (BitVec.ofNat 16 hz)) = frequencyCause p c hz := by
  simp only [ownCause, indexAbove, decide_eq_true_eq, toNat_operand h, frequencyCause, rawFNumber, Nat.not_le.mpr h, if_false]

/-- Where there is none, it is that of the conversion. -/
theorem frequencyCause_unencodable {cfg : Config} {hz : Nat} (h : 2 ^ 16 ≤ hz) {c : BitVec 6} (hc : c.toNat < 18) :
    frequencyCause cfg.toParams c hz = some (unencodableCause cfg.toParams hz) := by
  rw [unencodableCause_eq, frequencyCause, if_neg (Nat.not_lt.mpr (Nat.le_of_lt_succ hc))]
  by_cases hfreq : hz < 2 ^ (cfg.wInt - 20)
  · rw [if_neg (Nat.not_le.mpr hfreq)]
    by_cases hraw : 2 ^ 17 ≤ rawFNumber cfg.toParams hz
    · rw [if_pos hraw, if_pos ⟨hfreq, hraw⟩]
    · rw [if_neg hraw, if_pos h, if_neg fun hb => hraw hb.2]
  · rw [if_pos (Nat.le_of_not_lt hfreq), if_neg fun hb => hfreq hb.1]

theorem sendFrequency_channelAbove {hz : Nat} (h : 2 ^ 16 ≤ hz) {c : BitVec 6} (hc : 17 < c.toNat) {s : State}
    (hs : s.ready) :
    sendFrequency c hz s = .next (s.setFault .channelIndexRange (encode (.setfreq c 0xFFFF))) := by
  obtain ⟨hf, hb⟩ := hs
  rw [sendFrequency, if_neg (Nat.not_lt.mpr h)]
  exact runCommand_error hf rfl (.inl hb) (by rw [chIndex_of_ge hc])

/-- A number of hertz with a cause is refused with it, and nothing else happens. -/
theorem sendFrequency_of_cause {s : State} (hs : s.ready) {c : BitVec 6} {hz : Nat} {e : Cause}
    (he : frequencyCause s.cfg.toParams c hz = some e) :
    sendFrequency c hz s = .next (s.setFault e (frequencyWord c hz)) := by
  rcases Nat.lt_or_ge hz (2 ^ 16) with hfits | hlarge
  · rw [sendFrequency_fits hfits, exec_setfreq_of_cause hs ((ownCause_setfreq hfits _ c).trans he), frequencyWord,
      if_pos hfits]
  · rw [frequencyWord, if_neg (Nat.not_lt.mpr hlarge)]
    rcases Nat.lt_or_ge 17 c.toNat with hc | hc
    · obtain rfl : Cause.channelIndexRange = e := by simpa [frequencyCause, hc] using he
      exact sendFrequency_channelAbove hlarge hc hs
    · obtain rfl := Option.some.inj ((frequencyCause_unencodable hlarge (Nat.lt_succ_of_le hc)).symm.trans he)
      exact sendFrequency_unencodable hlarge (Nat.lt_succ_of_le hc) hs

/-- And the rest of `NOTEON` is ignored (60_exceptions.md R237). -/
theorem runNote_on_of_cause {s : State} (hs : s.ready) {c : BitVec 6} {note hz : Nat} (vel : Nat) {e : Cause}
    (hhz : hz = noteHz s.cfg.toParams note) (he : frequencyCause s.cfg.toParams c hz = some e) :
    runNote (.on c note vel) s = .next (s.setFault e (frequencyWord c hz)) := by
  rw [runNote, ← hhz, sendFrequency_of_cause hs he, andThen_next]
  exact execAll_faulted (State.setFault_fault _ _ s) _

/-- Settles O57: the clauses are those of `frequencyCause`. -/
theorem unconvertibleNotesFault : Obligations.UnconvertibleNotesFault := by
  intro s c note vel hz F hs hhz hF
  subst hF
  refine ⟨fun hc => ?_, fun hc hfreq => ?_, fun hc hfreq hraw => ?_, fun hc hfreq hraw hlarge => ?_⟩
  · exact runNote_on_of_cause (e := .channelIndexRange) hs vel hhz (if_pos hc)
  · refine runNote_on_of_cause (e := .frequencyRange) hs vel hhz ?_
    rw [frequencyCause, if_neg (Nat.not_lt.mpr hc), if_pos hfreq]
  · refine runNote_on_of_cause (e := .blockRange) hs vel hhz ?_
    rw [frequencyCause, rawFNumber, if_neg (Nat.not_lt.mpr hc), if_neg (Nat.not_le.mpr hfreq), if_pos hraw]
  · refine runNote_on_of_cause (e := .frequencyRange) hs vel hhz ?_
    rw [frequencyCause, rawFNumber, if_neg (Nat.not_lt.mpr hc), if_neg (Nat.not_le.mpr hfreq),
      if_neg (Nat.not_le.mpr hraw), if_pos hlarge]

/-! ### The range of notes at 14318180 Hz (45_note_dispatcher.md R221) -/

theorem noteHz_le_of_le {cfg : Config} {n m b : Nat} (h : n ≤ m) (hb : pitchScaled m ≤ hzScaled b) :
    noteHz cfg.toParams n ≤ b := noteHz_le ((pitchScaled_mono h).trans hb)

theorem le_noteHz_of_le {cfg : Config} {n m b : Nat} (h : m ≤ n) (hb : hzScaled b ≤ pitchScaled m) :
    b ≤ noteHz cfg.toParams n := le_noteHz (hb.trans (pitchScaled_mono h))

/-- At this clock 6214 Hz is the last frequency without `BlockRange` (44_frequency.md R206). -/
theorem rawFNumber_lt_iff_of_clock {p : Params} (h : p.clockHz = 14318180) (hz : Nat) :
    rawFNumber p hz < 2 ^ 17 ↔ hz ≤ 6214 := by
  rw [rawFNumber, h]
  omega

/-- A note that converts plays. -/
theorem runNote_on_plays {s : State} (hs : s.ready) {c : BitVec 6} (h : c.toNat < 18) {note : Nat} (vel : Nat)
    (hfits : noteHz s.cfg.toParams note < 2 ^ 16) (hfreq : noteHz s.cfg.toParams note < 2 ^ (s.cfg.wInt - 20))
    (hraw : rawFNumber s.cfg.toParams (noteHz s.cfg.toParams note) < 2 ^ 17) :
    ∃ t, runNote (.on c note vel) s = .next t ∧ t.fault = false ∧ (t.ch ⟨c.toNat, h⟩).keyOn = true := by
  obtain ⟨t, ht, ⟨b, -, -, -, hch⟩, -, -, -, ⟨-, hfault, -⟩, -⟩ :=
    noteOnPlaysTheFrequency s c h note vel _ _ hs rfl rfl hfits hfreq hraw
  obtain ⟨hf, -⟩ := hs
  exact ⟨t, ht, hfault.trans hf, congrArg ChParams.keyOn hch⟩

/-- Settles O58: the hertz of the notes at the ends of each range, against the first check's bound and 6214 Hz. -/
theorem notesInAndOutOfRange : Obligations.NotesInAndOutOfRange := by
  intro s c h note vel hs hclock
  have h107 (hn : note ≤ 107) : noteHz s.cfg.toParams note ≤ 3952 := noteHz_le_of_le hn (by decide)
  have h108 (hn : 108 ≤ note) : 4186 ≤ noteHz s.cfg.toParams note := le_noteHz_of_le hn (by decide)
  have h114 (hn : note ≤ 114) : noteHz s.cfg.toParams note ≤ 5920 := noteHz_le_of_le hn (by decide)
  have h115 (hn : 115 ≤ note) : 6271 ≤ noteHz s.cfg.toParams note := le_noteHz_of_le hn (by decide)
  have h119 (hn : note ≤ 119) : noteHz s.cfg.toParams note ≤ 7903 := noteHz_le_of_le hn (by decide)
  have hwidth {k : Nat} (hk : k + 20 ≤ s.cfg.wInt) : 2 ^ k ≤ 2 ^ (s.cfg.wInt - 20) :=
    Nat.pow_le_pow_right (by decide) (Nat.le_sub_of_add_le hk)
  have hw12 : 2 ^ 12 ≤ 2 ^ (s.cfg.wInt - 20) := hwidth s.cfg.wInt_ge
  have hw13 (hw : 33 ≤ s.cfg.wInt) : 2 ^ 13 ≤ 2 ^ (s.cfg.wInt - 20) := hwidth hw
  have hblock := rawFNumber_lt_iff_of_clock hclock (noteHz s.cfg.toParams note)
  have hplays (hn : note ≤ 114) (hfreq : noteHz s.cfg.toParams note < 2 ^ (s.cfg.wInt - 20)) :=
    have hhz := h114 hn
    runNote_on_plays hs h vel (hhz.trans_lt (by decide)) hfreq (hblock.mpr (hhz.trans (by decide)))
  have hraw (hn : 115 ≤ note) : 2 ^ 17 ≤ rawFNumber s.cfg.toParams (noteHz s.cfg.toParams note) :=
    Nat.le_of_not_lt fun hlt => absurd ((h115 hn).trans (hblock.mp hlt)) (by decide)
  obtain ⟨-, hfrequencyRange, hblockRange, -⟩ := unconvertibleNotesFault s c note vel _ _ hs rfl rfl
  have hc := Nat.le_of_lt_succ h
  refine ⟨?_, fun hn hw => ?_, fun hn hfreq => ?_, fun hn hfreq => ?_, fun hn hn' hw => ?_⟩
  · rintro (hn | ⟨hn, hw⟩)
    · exact hplays (by omega) ((h107 hn).trans_lt (lt_of_lt_of_le (by decide) hw12))
    · exact hplays hn ((h114 hn).trans_lt (lt_of_lt_of_le (by decide) (hw13 hw)))
  · refine ⟨_, hfrequencyRange hc ?_⟩
    rw [hw]
    exact le_trans (by decide) (h108 hn)
  · exact ⟨_, hblockRange hc hfreq (hraw hn)⟩
  · exact ⟨_, hfrequencyRange hc hfreq⟩
  · exact ⟨_, hblockRange hc ((h119 hn').trans_lt (lt_of_lt_of_le (by decide) (hw13 hw))) (hraw hn)⟩

end Sys2Proof.Machine
end

section
/-! PROOFS of the family 60_exceptions.md: every step answers, a pending fault is terminal, and a command without one reports the
first cause in the order of checks or runs. -/

namespace Sys2Proof.Machine

/-! ### Every step answers (60_exceptions.md R241, 40_bus_write.md R137) -/

theorem complete_answers {o : Outcome} (h : ∃ t, o = .next t) : ∃ t, complete o = .next t := by
  obtain ⟨t, rfl⟩ := h
  exact ⟨completeCommand t, rfl⟩

theorem runWord_answers (cw : CmdWord) (s : State) : ∃ t, runWord cw s = .next t := by
  unfold runWord
  split
  · exact complete_answers (exec_answers _ s)
  · exact complete_answers ⟨_, rfl⟩

theorem step_answers (s : State) : ∃ t, step s = .next t := by
  unfold step
  split
  · exact ⟨s, rfl⟩
  · exact ⟨_, rfl⟩
  · split
    · exact ⟨s, rfl⟩
    · exact runWord_answers _ _

/-- Settles O9: neither a command nor a step has an arm that stops or refuses. -/
theorem everyCommandTerminates : Obligations.EveryCommandTerminates := ⟨exec_answers, step_answers⟩

/-! ### A pending fault (60_exceptions.md R237) -/

theorem exec_of_fault {s : State} (hf : s.fault = true) (i : Instr) : exec i s = .next s :=
  (exec_eq i s).trans (runCommand_faulted hf i _)

/-- Between commands an accepted word that is ignored is consumed, and that is all. -/
theorem completeCommand_acceptWord {s : State} (hb : s.busy = false) (hseq : s.seq = Seq.idle) (rest : List HostInput) :
    completeCommand (acceptWord rest s) = { s with host := rest } := by
  simp only [completeCommand, acceptWord, ← hb, ← hseq]

/-- With a fault pending and no `por` coming, a step consumes at most one input. -/
theorem step_of_fault {s : State} (hf : s.fault = true) (hpor : s.noPor) (hseq : s.seq = Seq.idle) :
    ∃ rest, step s = .next { s with host := rest } ∧ HostInput.por ∉ rest := by
  obtain ⟨t, ht⟩ := step_answers s
  rcases step_cases ht with rfl | ⟨rest, hh, -⟩ | ⟨cw, rest, hh, hb, ⟨-, rfl⟩ | ⟨hclear, -⟩ | ⟨hclear, -⟩⟩
  · exact ⟨t.host, ht, hpor⟩
  · exact absurd (hh ▸ List.mem_cons_self) hpor
  · rw [completeCommand_acceptWord hb hseq] at ht
    exact ⟨rest, ht, fun hmem => hpor (hh ▸ List.mem_cons_of_mem _ hmem)⟩
  · cases hf.symm.trans hclear
  · cases hf.symm.trans hclear

theorem run_succ_of_step {s t : State} (h : step s = .next t) (n : Nat) : core.run (n + 1) s = core.run n t := by
  have hcore : core.step s = .next t := h
  simp only [Host.Core.run, hcore]

/-- A run of any length consumes inputs and changes nothing else. -/
theorem run_of_fault (n : Nat) {s : State} (hf : s.fault = true) (hpor : s.noPor) (hseq : s.seq = Seq.idle) :
    ∃ rest, core.run n s = .next { s with host := rest } := by
  induction n generalizing s with
  | zero => exact ⟨s.host, rfl⟩
  | succ n ih =>
    obtain ⟨rest, hstep, hrest⟩ := step_of_fault hf hpor hseq
    rw [run_succ_of_step hstep]
    exact ih (s := { s with host := rest }) hf hrest hseq

/-- Of everything a step can do, only `por` clears a fault. -/
theorem por_of_step_clears_fault {s t : State} (hf : s.fault = true) (h : step s = .next t) (ht : t.fault = false) :
    ∃ rest, s.host = .por :: rest := by
  rcases step_cases h with rfl | ⟨rest, hh, -⟩ | ⟨cw, rest, -, -, ⟨-, rfl⟩ | ⟨hclear, -⟩ | ⟨hclear, -⟩⟩
  · cases hf.symm.trans ht
  · exact ⟨rest, hh⟩
  · cases hf.symm.trans ht
  · cases hf.symm.trans hclear
  · cases hf.symm.trans hclear

/-- Settles O12: by induction on the length of the run, each step of which leaves all but the inputs. -/
theorem theFaultStateIsTerminal : Obligations.TheFaultStateIsTerminal :=
  ⟨fun n _ => run_of_fault n, fun i _ hf => exec_of_fault hf i,
    fun _ _ => por_of_step_clears_fault⟩

/-! ### The fault a command raises (60_exceptions.md R231, R232, R234) -/

/-- Settles O10: a command that runs its effects leaves `FAULT` as it was, so a new fault comes from a failing check. -/
theorem faultsArePrecise : Obligations.FaultsArePrecise := by
  intro i s t h hf ht
  rcases exec_cases h with ⟨hf', -⟩ | ⟨-, c, -, rfl⟩ | ⟨-, hc, hbody⟩
  · cases hf'.symm.trans hf
  · exact ⟨c, rfl⟩
  · obtain ⟨-, -, -, hfault, -⟩ := commandBody_bus hf hc hbody
    cases ht.symm.trans (hfault.trans hf)

/-- A command that finds no cause leaves the fault registers alone. -/
theorem exec_of_no_cause {i : Instr} {s : State} (hf : s.fault = false) (hc : faultCause i s = none) :
    ∃ t, exec i s = .next t ∧ t.fault = false ∧ t.faultCode = s.faultCode ∧ t.faultInfo = s.faultInfo := by
  obtain ⟨t, ht⟩ := exec_answers i s
  rcases exec_cases ht with ⟨hf', -⟩ | ⟨-, c, hc', -⟩ | ⟨-, -, hbody⟩
  · cases hf'.symm.trans hf
  · cases hc.symm.trans hc'
  · obtain ⟨-, -, -, hfault, hcode, hinfo, -⟩ := commandBody_bus hf hc hbody
    exact ⟨t, ht, hfault.trans hf, hcode, hinfo⟩

/-- Settles O11: the three clauses are those of a pending fault, of a cause and of none. -/
theorem oneCauseInTheOrderOfChecks : Obligations.OneCauseInTheOrderOfChecks := fun i _ =>
  ⟨fun hf => exec_of_fault hf i, fun hf => ⟨fun _ => exec_of_cause hf, exec_of_no_cause hf⟩⟩

/-! ### An index outside its range (60_exceptions.md R231, R235) -/

/-- After `BEGIN` a well-formed command whose own checks find a cause raises it. -/
theorem exec_of_ownCause {i : Instr} {s : State} {c : Cause} (hs : s.ready) (hw : i.wellFormed = true)
    (hc : ownCause s.cfg.toParams i = some c) : exec i s = .next (s.setFault c (encode i)) :=
  exec_of_cause hs.1 ((faultCause_of_ready hs hw).trans hc)

/-- Settles O13: the index is the first of a command's own checks. -/
theorem indexOutOfRangeFaults : Obligations.IndexOutOfRangeFaults := by
  intro s idx fsel val freq hs
  refine ⟨fun h => ?_, fun h => ?_⟩
  · have habove : indexAbove 35 idx = true := decide_eq_true h
    refine ⟨fun i hi => ?_, fun hsel => ?_⟩
    · simp only [List.mem_cons, List.not_mem_nil, or_false] at hi
      rcases hi with rfl | rfl <;> exact exec_of_ownCause (c := .operatorIndexRange) hs rfl (if_pos habove)
    · exact exec_of_ownCause (c := .operatorIndexRange) hs (decide_eq_true (Nat.lt_succ_of_le hsel)) (if_pos habove)
  · have habove : indexAbove 17 idx = true := decide_eq_true h
    refine ⟨fun i hi => ?_, fun hsel => ?_⟩
    · simp only [List.mem_cons, List.not_mem_nil, or_false] at hi
      rcases hi with rfl | rfl | rfl | rfl <;>
        exact exec_of_ownCause (c := .channelIndexRange) hs rfl (if_pos habove)
    · exact exec_of_ownCause (c := .channelIndexRange) hs (decide_eq_true (Nat.lt_succ_of_le hsel)) (if_pos habove)

end Sys2Proof.Machine
end

section
/-! PROOFS of the families 70_reset_and_hazards.md and 95_test_vectors.md: the spec's words, power-on, how many
transactions and pin events a command has, the target after `RESET`, and the key-on edge. -/

namespace Sys2Proof.Machine

/-! ### The words of 95_test_vectors.md V-DECODE -/

/-- Settles O4: each word is the encoding of its command. -/
theorem specWordsDecode : Obligations.SpecWordsDecode :=
  ⟨decode_encode (i := .begin) rfl, decode_encode (i := .reset) rfl, decode_encode (i := .write 0x1B3 0x2A) rfl,
    decode_encode (i := .opoff 24) rfl, decode_encode (i := .choff 12) rfl, decode_encode (i := .updop 24) rfl,
    decode_encode (i := .keyon 12) rfl, decode_encode (i := .keyoff 12) rfl,
    decode_encode (i := .setfreq 12 262) rfl, decode_encode (i := .opset 24 11 2) rfl,
    decode_encode (i := .chset 12 3 4) rfl⟩

/-! ### Power-on (70_reset_and_hazards.md R262) -/

/-- Before `BEGIN` a well-formed command but `BEGIN` finds the cause `NotBegun` (60_exceptions.md R232 step 3). -/
theorem faultCause_of_not_begun {i : Instr} {s : State} (hb : s.begun = false) (hw : i.wellFormed = true)
    (hi : i ≠ .begin) : faultCause i s = some .notBegun := by
  simp [faultCause, hw, hb, hi]

/-- Settles O14: after power-on neither `FAULT` nor `BEGUN` is set, so `BEGIN` runs and every other command has not begun. -/
theorem onlyBeginIsAdmittedAfterPowerOn : Obligations.OnlyBeginIsAdmittedAfterPowerOn := by
  intro cfg host i
  refine ⟨rfl, fun hw hi => exec_of_cause (c := .notBegun) rfl (faultCause_of_not_begun rfl hw hi), ?_⟩
  obtain ⟨t, he, hbegun, -, -, -, hfault, -⟩ := beginCompletes (State.powerOn cfg host) rfl
  exact ⟨t, he, hbegun, hfault⟩

/-! ### Transactions and pin events (70_reset_and_hazards.md R275) -/

/-- Every transaction has nineteen events (40_bus_write.md R136). -/
theorem length_eventsOf (p : Params) (l : List (Addr × Byte)) : (eventsOf p l).length = 19 * l.length := by
  induction l with
  | nil => rfl
  | cons x l ih =>
    have hx : (transactionEvents p x.1 x.2).length = 19 := rfl
    rw [eventsOf, List.flatMap_cons, List.length_append, hx, ← eventsOf, ih, List.length_cons]
    omega

/-- The events before the first transaction: of `PinInit()` 5, and with a reset line 3 of the pulse and one more of `PinInit()`
(41_reset_init.md R153, R155). -/
theorem length_leadEvents (p : Params) (i : Instr) : (leadEvents p i).length = extraEvents p i := by
  cases i with
  | begin | reset =>
    cases h : p.hasResetLine <;> simp [leadEvents, extraEvents, pinInitEvents, resetPulseEvents, h]
  | write | opoff | choff | updop | keyon | keyoff | setfreq | opset | chset => rfl

/-- The software wipe and the three baseline writes, or these alone (41_reset_init.md R160). -/
theorem length_resetWrites (c : Config) : (resetWrites c.toParams).length = transactionCount c.toParams .reset := by
  obtain ⟨hwipe, -⟩ := softwareWipeInOrder c
  rw [resetWrites, transactionCount, List.length_append]
  cases c.hasResetLine
  · simp only [Bool.false_eq_true, if_false, hwipe, List.length_cons, List.length_nil]
    omega
  · rfl

/-- A command whose checks pass issues as many transactions as its row of R275 says. -/
theorem length_issuedBy {i : Instr} {s t : State} (hf : s.fault = false) (hc : faultCause i s = none)
    (h : commandBody i s = .ok t) : (issuedBy i s).length = transactionCount s.cfg.toParams i := by
  cases i with
  | begin => exact issuedBy_begin hf hc ▸ length_resetWrites s.cfg
  | reset => exact issuedBy_reset hf hc ▸ length_resetWrites s.cfg
  | write | opoff | choff | setfreq | opset | chset => simp [issuedBy, hf, hc, transactionCount]
  | updop idx =>
    rcases opIndex_cases idx with ⟨-, he⟩ | ⟨hi, -⟩
    · simp [commandBody, he] at h
    · simp [issuedBy, hf, hc, hi, updopWrites, transactionCount]
  | keyon idx | keyoff idx =>
    rcases chIndex_cases idx with ⟨-, he⟩ | ⟨hi, -⟩
    · simp [commandBody, he] at h
    · simp [issuedBy, hf, hc, hi, keyonWrites, keyoffWrites, transactionCount]

/-- A body's events are those of its lead-in and of its transactions, in that order. -/
theorem commandBody_pinTrace {i : Instr} {s t : State} (hf : s.fault = false) (hc : faultCause i s = none)
    (h : commandBody i s = .ok t) :
    t.pinTrace = s.pinTrace ++ (leadEvents s.cfg.toParams i ++ eventsOf s.cfg.toParams (issuedBy i s)) := by
  obtain ⟨-, -, -, -, -, -, -, htrace, -⟩ := commandBody_bus hf hc h
  rw [State.pinTrace, htrace, List.reverse_append, List.reverse_reverse, State.pinTrace]

@[simp] theorem State.setFault_pinTrace (c : Cause) (cw : CmdWord) (s : State) :
    (s.setFault c cw).pinTrace = s.pinTrace := rfl

/-- Settles O27: an ignored command and one that faults leave log and trace, the others add their transactions to both and
their lead-in to the trace. -/
theorem transactionAndEventCounts : Obligations.TransactionAndEventCounts := by
  intro i s t h
  rcases exec_cases h with ⟨hf, rfl⟩ | ⟨hf, c, hc, rfl⟩ | ⟨hf, hc, hbody⟩
  · refine ⟨fun hf' => ?_, fun _ => ⟨rfl, rfl⟩⟩
    cases hf.symm.trans hf'
  · refine ⟨fun _ hc' => ?_, fun _ => ⟨State.setFault_writeLog c _ s, State.setFault_pinTrace c _ s⟩⟩
    cases hc.symm.trans hc'
  · refine ⟨fun _ _ => ?_, fun hor => ?_⟩
    · rw [commandBody_writeLog hf hc hbody, commandBody_pinTrace hf hc hbody]
      simp only [List.length_append, length_leadEvents, length_eventsOf, length_issuedBy hf hc hbody]
      exact ⟨trivial, by omega⟩
    · rcases hor with hf' | hc'
      · cases hf.symm.trans hf'
      · exact absurd hc hc'

/-! ### The target after `RESET` (70_reset_and_hazards.md R261) -/

/-- Extended mode after the transactions `l`, from `e`: what the last write to `A_EXT` says (20_memory.md R66). -/
def extAfter (aExt : Addr) (l : List (Addr × Byte)) (e : Option Bool) : Option Bool :=
  l.foldl (fun e x => if x.1 = aExt then some (x.2.getLsbD 0) else e) e

/-- Transactions in a row: the later ones start from what the earlier ones leave. -/
theorem contentAfter_append (aExt b : Addr) (l m : List (Addr × Byte)) (v : Option Byte) (e : Option Bool) :
    contentAfter aExt b (l ++ m) v e = contentAfter aExt b m (contentAfter aExt b l v e) (extAfter aExt l e) := by
  induction l generalizing v e with
  | nil => rfl
  | cons x l ih => exact ih _ _

/-- A write to another location is passed over. -/
theorem contentAfter_cons_other {aExt a b : Addr} (h : a ≠ b) (d : Byte) (l : List (Addr × Byte)) (v : Option Byte)
    (e : Option Bool) :
    contentAfter aExt b ((a, d) :: l) v e = contentAfter aExt b l v (if a = aExt then some (d.getLsbD 0) else e) := by
  rw [contentAfter, if_neg h]

/-- A write that lands and is the last to its location leaves its byte. -/
theorem contentAfter_cons_last {aExt b : Addr} {d : Byte} {l : List (Addr × Byte)} {e : Option Bool}
    (hlands : b.getLsbD 8 = false ∨ b = aExt ∨ e = some true) (hlast : ∀ x ∈ l, x.1 ≠ b) (v : Option Byte) :
    contentAfter aExt b ((b, d) :: l) v e = some d := by
  rw [contentAfter, if_pos rfl, if_pos hlands, contentAfter_outside hlast]

/-- Writes of zero alone, each to `b` landing and none to `A_EXT`: `b` is cleared if it is among them. -/
theorem contentAfter_zeros {aExt b : Addr} {l : List Addr} (hext : aExt ∉ l) {e : Option Bool}
    (hlands : b ∈ l → b.getLsbD 8 = false ∨ e = some true) (v : Option Byte) :
    contentAfter aExt b (l.map (·, 0)) v e = if b ∈ l then some 0 else v := by
  induction l generalizing v with
  | nil => rfl
  | cons a l ih =>
    obtain ⟨haext, hext⟩ := not_or.mp (mt List.mem_cons.mpr hext)
    rw [List.map_cons, contentAfter, if_neg (Ne.symm haext), ih hext fun hb => hlands (List.mem_cons_of_mem a hb)]
    by_cases hab : a = b
    · subst a
      rw [if_pos rfl, if_pos ((hlands List.mem_cons_self).imp_right .inr), ite_self, if_pos List.mem_cons_self]
    · simp only [List.mem_cons, Ne.symm hab, hab, false_or, if_false]

/-- The addresses the software wipe writes zero to before it turns extended mode on (41_reset_init.md R157). -/
def primaryZeros (p : Params) : List Addr := addressesUp p.wipe0Lo.toNat p.wipe0Hi.toNat

/-- The addresses it writes zero to after that. -/
def extendedZeros (p : Params) : List Addr := p.aExtMode :: p.aTest1 :: addressesUp p.wipe1Lo.toNat p.wipe1Hi.toNat

theorem softwareWipe_eq_zeros (p : Params) :
    softwareWipe p = (primaryZeros p).map (·, 0) ++ (p.aExt, p.vExt) :: (extendedZeros p).map (·, 0) := by
  simp [softwareWipe, primaryZeros, extendedZeros]

section
variable (c : Config)

theorem mem_primaryZeros {a : Addr} :
    a ∈ primaryZeros c.toParams ↔ c.wipe0Lo.toNat ≤ a.toNat ∧ a.toNat ≤ c.wipe0Hi.toNat :=
  mem_addressesUp (by omega)

theorem mem_extendedZeros {a : Addr} :
    a ∈ extendedZeros c.toParams ↔ a = c.aExtMode ∨ a = c.aTest1 ∨ (c.wipe1Lo ≤ a ∧ a ≤ c.wipe1Hi) := by
  simp only [extendedZeros, List.mem_cons, mem_addressesUp c.wipe1Hi.isLt, BitVec.le_def]

/-- The table of 70_reset_and_hazards.md R261 names the two registers and then the two ranges. -/
theorem mem_zeros_iff {a : Addr} :
    a ∈ extendedZeros c.toParams ∨ a ∈ primaryZeros c.toParams ↔
      a = c.aExtMode ∨ a = c.aTest1 ∨ (c.wipe0Lo.toNat ≤ a.toNat ∧ a.toNat ≤ c.wipe0Hi.toNat) ∨
        (c.wipe1Lo ≤ a ∧ a ≤ c.wipe1Hi) := by
  rw [mem_extendedZeros, mem_primaryZeros, or_assoc, or_assoc, or_comm (a := c.wipe1Lo ≤ a ∧ a ≤ c.wipe1Hi)]

theorem bank_zero_of_mem_primaryZeros {a : Addr} (h : a ∈ primaryZeros c.toParams) : a.getLsbD 8 = false := by
  obtain ⟨-, hle⟩ := (mem_primaryZeros c).mp h
  exact Nat.testBit_lt_two_pow (by omega)

/-- What the software wipe leaves in a register other than `A_EXT`, whatever extended mode was before (41_reset_init.md
R158). -/
theorem contentAfter_softwareWipe {b : Addr} (hb : b ≠ c.aExt) (hmodes : c.aExt ∉ extendedZeros c.toParams)
    (v : Option Byte) (e : Option Bool) :
    contentAfter c.aExt b (softwareWipe c.toParams) v e =
      if b ∈ extendedZeros c.toParams ∨ b ∈ primaryZeros c.toParams then some 0 else v := by
  have hext : c.aExt ∉ primaryZeros c.toParams := fun h => by
    cases (bank_zero_of_mem_primaryZeros c h).symm.trans c.aExt_bank
  have hvExt : c.vExt.getLsbD 0 = true := by
    rw [c.vExt_eq]
    rfl
  rw [softwareWipe_eq_zeros, contentAfter_append,
    contentAfter_zeros hext fun h => .inl (bank_zero_of_mem_primaryZeros c h), contentAfter_cons_other hb.symm, if_pos rfl,
    contentAfter_zeros hmodes fun _ => .inr (congrArg some hvExt), ite_or]

/-- Where the mode registers are five, the wipe writes no zero to `A_EXT` (log 14). -/
theorem aExt_not_mem_extendedZeros (h : modesApart c.toParams) : c.aExt ∉ extendedZeros c.toParams := by
  simp only [modesApart, List.pairwise_cons, List.forall_mem_cons] at h
  obtain ⟨⟨-, -, ⟨hmode, htest, -⟩, -⟩, -⟩ := h
  rw [mem_extendedZeros]
  exact not_or.mpr ⟨hmode, not_or.mpr ⟨htest, c.aExt_outside⟩⟩

/-- Each baseline write is the last to its register and lands, whatever was before (41_reset_init.md R159). -/
theorem contentAfter_baselineWrites (h : modesApart c.toParams) {x : Addr × Byte} (hx : x ∈ baselineWrites c.toParams)
    (v : Option Byte) (e : Option Bool) : contentAfter c.aExt x.1 (baselineWrites c.toParams) v e = some x.2 := by
  simp only [modesApart, List.pairwise_cons, List.forall_mem_cons] at h
  obtain ⟨⟨⟨hwseNts, hwseExt, -⟩, ⟨hntsExt, -⟩, -⟩, hwse, hnts⟩ := h
  simp only [baselineWrites, List.mem_cons, List.not_mem_nil, or_false] at hx
  rcases hx with rfl | rfl | rfl
  · exact contentAfter_cons_last (.inl hwse) (by simp [hwseNts.symm, hwseExt.symm]) v
  · rw [baselineWrites, contentAfter_cons_other hwseNts]
    exact contentAfter_cons_last (.inl hnts) (by simp [hntsExt.symm]) v
  · rw [baselineWrites, contentAfter_cons_other hwseExt, contentAfter_cons_other hntsExt]
    exact contentAfter_cons_last (.inr (.inl rfl)) (by simp) v

end

section
variable {first : List PinEvent} {s t : State} (h : ResetDone first s t) (hmodes : modesApart s.cfg.toParams)
include h hmodes

theorem ResetDone.read_baseline {x : Addr × Byte} (hx : x ∈ baselineWrites s.cfg.toParams) :
    t.tgt.shadow.read x.1 = some x.2 := by
  have hlast := contentAfter_baselineWrites s.cfg hmodes hx
  have hwrites : resetWrites s.cfg.toParams = _ ++ baselineWrites s.cfg.toParams := rfl
  rw [h.contents, hwrites, contentAfter_append, contentAfter_append, hlast, hlast, ite_self]

/-- Outside the baseline registers the pulse leaves 0 everywhere, and the wipe where it writes zero. -/
theorem ResetDone.read_other {b : Addr} (hb : ∀ x ∈ baselineWrites s.cfg.toParams, x.1 ≠ b) :
    t.tgt.shadow.read b =
      if s.cfg.hasResetLine = true ∨ b ∈ extendedZeros s.cfg.toParams ∨ b ∈ primaryZeros s.cfg.toParams then some 0
      else s.tgt.shadow.read b := by
  have hwrites : resetWrites s.cfg.toParams = _ ++ baselineWrites s.cfg.toParams := rfl
  have hext : b ≠ s.cfg.aExt := fun e => hb (s.cfg.aExt, s.cfg.vExt) (by simp [baselineWrites]) e.symm
  rw [h.contents, hwrites, contentAfter_append, contentAfter_append, contentAfter_outside hb, contentAfter_outside hb]
  cases s.cfg.hasResetLine
  · simp only [Bool.false_eq_true, if_false, false_or,
      contentAfter_softwareWipe s.cfg hext (aExt_not_mem_extendedZeros s.cfg hmodes)]
  · simp only [if_true, true_or, contentAfter]

end

/-- Settles O25: the baseline writes come last, and every other register holds what the pulse or the wipe left. -/
theorem targetAfterReset : Obligations.TargetAfterReset := by
  intro s t a hs hmodes he
  obtain ⟨t', he', hdone, -, ⟨hcfg, -⟩, -⟩ := resetCompletes s hs
  obtain rfl : t' = t := Host.Outcome.next.inj (he'.symm.trans he)
  have hwse := hdone.read_baseline hmodes (x := (s.cfg.aWse, s.cfg.vWse)) (by simp [baselineWrites])
  have hnts := hdone.read_baseline hmodes (x := (s.cfg.aNts, s.cfg.vNts)) (by simp [baselineWrites])
  have hext := hdone.read_baseline hmodes (x := (s.cfg.aExt, s.cfg.vExt)) (by simp [baselineWrites])
  refine ⟨?_, fun h => h ▸ hwse, fun h => h ▸ hnts, fun h => h ▸ hext, fun ha₁ ha₂ ha₃ => ?_⟩
  · rw [State.waveSelectOn, hcfg, hwse]
    simp
  · have hread := hdone.read_other hmodes (b := a) (by simp [baselineWrites, ha₁.symm, ha₂.symm, ha₃.symm])
    rw [← mem_zeros_iff]
    exact ⟨fun h => hread.trans (if_pos h), fun h => hread.trans (if_neg h)⟩

/-! ### The key-on edge (70_reset_and_hazards.md R269) -/

/-- The bases of a channel's registers in the order of `KEYON` (43_parameter_writes.md R188). -/
def chBases (p : Params) : List Byte := [p.baseFlo, p.baseFbc, p.baseFhi]

theorem nodup_chBases (c : Config) : (chBases c.toParams).Nodup :=
  c.bases_apart.sublist (l₁ := chBases c.toParams)
    (List.sublist_append_right [c.baseMult, c.baseLevel, c.baseAd, c.baseSr, c.baseWave] _)

/-- The registers of the channels 0 to 8 are in bank 0 (42_address_mapper.md R173, 20_memory.md R73). -/
theorem channelRegister_bank_zero {c : Config} {b : Byte} (hb : b ∈ chBases c.toParams) {i : Fin 18} (hi : i.val < 9) :
    (registerAddress b (channelOffset i)).getLsbD 8 = false := by
  have hbase : b.toNat ≤ 0xF7 := c.chBase_le hb
  have hoff := toNat_channelOffset i
  exact getLsbD_registerAddress_of_bank_zero (by omega)

/-- Writes to the channel's registers land and leave extended mode: they are in bank 0, or extended mode is known on and none of
them is `A_EXT` (20_memory.md R66, R73). -/
def ChannelWritable (s : State) (i : Fin 18) : Prop :=
  i.val < 9 ∨ (s.tgt.ext = some true ∧ ∀ b ∈ chBases s.cfg.toParams, registerAddress b (channelOffset i) ≠ s.cfg.aExt)

theorem ChannelWritable.lands {s : State} {i : Fin 18} (h : ChannelWritable s i) {b : Byte}
    (hb : b ∈ chBases s.cfg.toParams) :
    registerAddress b (channelOffset i) ≠ s.cfg.aExt ∧
      ((registerAddress b (channelOffset i)).getLsbD 8 = false ∨ s.tgt.ext = some true) := by
  rcases h with hi | ⟨hext, hne⟩
  · have hbank := channelRegister_bank_zero hb hi
    exact ⟨ne_aExt_of_bank_zero hbank, .inl hbank⟩
  · exact ⟨hne b hb, .inr hext⟩

/-- Transactions to registers of a writable channel, each register once, leave each its byte. -/
theorem Issued.read_channelRegister {l : List (Addr × Byte)} {s t : State} {i : Fin 18} (h : Issued l s t)
    (hw : ChannelWritable s i) {bases : List Byte} (hbases : bases.Sublist (chBases s.cfg.toParams))
    (hl : l.map Prod.fst = bases.map (registerAddress · (channelOffset i))) :
    ∀ x ∈ l, t.tgt.shadow.read x.1 = some x.2 := by
  intro x hx
  have honce : (l.map Prod.fst).Nodup :=
    hl ▸ ((nodup_chBases s.cfg).sublist hbases).map (registerAddress_injective _)
  have hlands : ∀ y ∈ l, y.1 ≠ s.cfg.aExt ∧ (y.1.getLsbD 8 = false ∨ s.tgt.ext = some true) := by
    intro y hy
    obtain ⟨b, hb, hby⟩ := List.mem_map.mp (hl ▸ List.mem_map_of_mem hy)
    exact hby ▸ hw.lands (hbases.subset hb)
  obtain ⟨-, hbank⟩ := hlands x hx
  rw [h.contents]
  exact contentAfter_written hx honce (fun y hy => (hlands y hy).1) hbank _

section
variable {s t : State} (hs : s.ready) {idx : BitVec 6} (h : idx.toNat < 18)
  (hw : ChannelWritable s ⟨idx.toNat, h⟩)
include hs hw

/-- After `KEYON` the target holds the three bytes of the record, the key-on bit among them. -/
theorem keyon_reaches_target (he : exec (.keyon idx) s = .next t) :
    t.keyedOn ⟨idx.toNat, h⟩ = some true ∧ t.chInTarget ⟨idx.toNat, h⟩ = true := by
  obtain ⟨t', he', hissued, hch, -, -, -, ⟨hcfg, -⟩, -⟩ := keyonWritesInFixedOrder s idx h hs
  obtain rfl : t' = t := Host.Outcome.next.inj (he'.symm.trans he)
  have hread := hissued.read_channelRegister hw (List.Sublist.refl _) rfl
  simp only [List.forall_mem_cons] at hread
  obtain ⟨hflo, hfbc, hfhi, -⟩ := hread
  constructor
  · rw [State.keyedOn, hcfg, hfhi, Option.map_some, getLsbD_packFhi_five]
  · simp only [State.chInTarget, hcfg, hch, hflo, hfbc, hfhi, packFlo, packFbc, packFhi, beq_self_eq_true, Bool.and_self]

theorem keyoff_clears_keyedOn (he : exec (.keyoff idx) s = .next t) : t.keyedOn ⟨idx.toNat, h⟩ = some false := by
  obtain ⟨t', he', hissued, -, -, -, -, ⟨hcfg, -⟩, -⟩ := keyoffIssuesOneWrite s idx h hs
  obtain rfl : t' = t := Host.Outcome.next.inj (he'.symm.trans he)
  have hsub : [s.cfg.baseFhi].Sublist (chBases s.cfg.toParams) := List.singleton_sublist.mpr (by simp [chBases])
  have hread := hissued.read_channelRegister hw hsub rfl _ (List.mem_singleton_self _)
  rw [State.keyedOn, hcfg, hread, Option.map_some, getLsbD_packFhi_five]

end

/-- Settles O41: `KEYON` leaves the bit set, so it rose exactly if it was clear; `KEYOFF` leaves it clear. -/
theorem retriggerNeedsAnEdge : Obligations.RetriggerNeedsAnEdge := by
  intro s t idx h hs hw
  refine ⟨fun he => ?_, keyoff_clears_keyedOn hs h hw⟩
  obtain ⟨hon, htarget⟩ := keyon_reaches_target hs h hw he
  exact ⟨hon, htarget, fun hset => by simp [keyOnEdge, hset], fun hclear => by simp [keyOnEdge, hclear, hon]⟩

end Sys2Proof.Machine
end
